-- ==== Sys2Proof/Word.lean ====
section
/-! DEFINITION. The word types of the AVR_ADS1015 bus block (spec R10, R20, R50, R70): every block register and
every host result register is 8 bits, a host statement word is 32 bits, a slave address is 7 bits. -/

namespace Sys2Proof

/-- An 8-bit value: a register's content, an operand, a byte on the bus or on the serial link (R20, R50). -/
abbrev Byte := BitVec 8

/-- A 32-bit host statement word, HSW (R70). -/
abbrev Word := BitVec 32

/-- A FIFO index. The spec gives it K bits with K at most 8, and every rule masks it with MASK (R33, R34, R164), so
it is held in the byte that TXQ_HEAD and TXQ_TAIL read (R39, log entry 11). That its value is at most MASK is an invariant. -/
abbrev Index := BitVec 8

end Sys2Proof
end

