-- ==== Sys2Proof/Config.lean ====
section
/-! DEFINITION. The parameters of spec R8, the agents of R12, the bus events of R30, and the FREE VALUES: what the spec
leaves open. A free value is an opaque constant with no body, so no proof can see what it is. -/

namespace Sys2Proof

/-- The agents that take steps (R12). The fifth agent of R12, SLAVE, takes none: ENG steps read it as an oracle. -/
inductive Agent where
  /-- The program's single thread of execution. -/
  | host
  /-- The TWM bus engine, which completes issued commands. -/
  | eng
  /-- The TXQ consumer, the drain interrupt. -/
  | drain
  /-- The serial transmitter. -/
  | ser
  deriving DecidableEq, Repr, Inhabited

/-- One event on the two-wire bus (R30). -/
inductive BusEvent where
  /-- A start condition from IDLE. -/
  | start
  /-- A repeated start inside an open transaction. -/
  | repStart
  /-- A stop condition. -/
  | stop
  /-- Master-transmitted byte and the slave's acknowledge (true = ACK). -/
  | wr (b : Byte) (ack : Bool)
  /-- Slave-transmitted byte and the master's acknowledge (true = ACK). -/
  | rd (b : Byte) (ack : Bool)
  deriving DecidableEq, Repr

/-- The parameters of R8. They are launch arguments that no step writes. State carries them, so that a claim
about every state is a claim about every configuration. K and MASK are derived (R8): `Machine.indexBits`,
`Machine.mask`. SLAVE and PROG, the other two parameters, are the oracles below and the field `State.prog`. -/
structure Params where
  /-- BLOCK_BASE: host address of register offset 0x00. -/
  blockBase : Nat
  /-- TXQ_CAP: the FIFO slot count. Legal values are 2^K with K from 1 to 8 (R8, R9). -/
  txqCap : Nat
  /-- DEV_ADDR: the slave address used by the device transactions (R150). -/
  devAddr : BitVec 7
  /-- F_SCL: the bus bit rate, positive. No rule reads it (R8, R222). -/
  fScl : Nat
  /-- SERIAL_FRAME: the serial character size. No rule reads it (R8, R170). -/
  serialFrame : Nat
  /-- BAUD_DIV: the serial baud divisor. No rule reads it (R8, R170). -/
  baudDiv : Nat
  /-- BUS_LIVE: ENG is weakly fair (R98). When false, a command in flight may never complete (R119). -/
  busLive : Bool
  /-- TX_LIVE: SER is weakly fair (R98). When false, a byte may stay in the transmitter for ever. -/
  txLive : Bool
  deriving DecidableEq, Repr

/-- The TXQ_CAP values a model accepts (R9): a power of two, at least 2, at most 256. -/
def Params.capLegal (p : Params) : Bool :=
  p.txqCap == 2 ^ Nat.log2 p.txqCap && decide (2 ≤ p.txqCap) && decide (p.txqCap ≤ 256)

/-- The parameter values State.reset is written with. The spec leaves every one OPEN.
DESIGN CHOICE (log entry 2): TXQ_CAP = 4 and DEV_ADDR = 0x48 are the values of the spec's own test vectors. -/
def Params.reset : Params where
  blockBase := 0
  txqCap := 4
  devAddr := 0x48#7
  fScl := 100000
  serialFrame := 0
  baudDiv := 0
  busLive := false
  txLive := false

/-- FREE VALUE (log entry 3): which agent moves at a tick, where State's own list of choices says nothing; `none` asks that
none does. R196: any agent with an enabled step may take the next one, and no priority exists. -/
opaque Config.schedule : Nat → Option Agent

/-- FREE VALUE (log entry 4): the SLAVE oracle's acknowledge of a written byte, SlaveAck(trace, b) of R130. -/
opaque Config.slaveAck : List BusEvent → Byte → Bool

/-- FREE VALUE (log entry 4): the SLAVE oracle's byte for a READ, SlaveByte(trace) of R130. -/
opaque Config.slaveByte : List BusEvent → Byte

/-- FREE VALUE (log entry 5): the byte a DRAIN step finds in a FIFO slot that no P3 has written. R174 (I4) says that no
run observes it. -/
opaque Config.unwrittenSlot : Nat → Byte

/-- FREE VALUE (log entry 6): the word recorded by Fault(PC_RANGE), where no statement was fetched. -/
opaque Config.pcRangeWord : Nat → Word

end Sys2Proof
end

