-- ==== Sys2Proof/Syntax.lean ====
section
/-! DEFINITION. The host statements (spec R76, one constructor per row of the opcode table), the host result registers,
the TWM commands and the fault codes. -/

namespace Sys2Proof

/-- The 8 host result registers (R20). None is hardwired. -/
inductive Reg where
  | r0 | r1 | r2 | r3 | r4 | r5 | r6 | r7
  deriving DecidableEq, Repr

/-- The TWM command set (R3, R28). `ack` is TWM_CTRL[3]: true = the master acknowledges the byte it reads. -/
inductive Command where
  | nop
  | start
  | stop
  | write
  | read (ack : Bool)
  deriving DecidableEq, Repr

/-- The fault codes of R190, by name. `Machine.faultNumber` gives their numbers. -/
inductive FaultCode where
  | pcRange
  | illegalStatement
  | unwrittenReg
  | badAccess
  | badCmd
  | cmdWhileBusy
  | dataWhileBusy
  | protocol
  | dataUnwritten
  | openTransaction
  deriving DecidableEq, Repr

/-- A host statement: one constructor per row of R76. A branch target is an absolute statement index (R73), a natural
number; that it fits TARGET's 16 bits is checked in `WellFormed`. -/
inductive Instr where
  /-- `twm.nop` (R113) -/
  | twmNop
  /-- `twm.start` (R114) -/
  | twmStart
  /-- `twm.stop` (R115) -/
  | twmStop
  /-- `twm.write` (R116) -/
  | twmWrite
  /-- `twm.read.nack` (R117) -/
  | twmReadNack
  /-- `twm.read.ack` (R117) -/
  | twmReadAck
  /-- `twm.wrdata imm8` (R111) -/
  | twmWrdata (val : Byte)
  /-- `twm.rdstatus rd` (R110) -/
  | twmRdstatus (rd : Reg)
  /-- `twm.rddata rd` (R112) -/
  | twmRddata (rd : Reg)
  /-- `txq.push imm8` (R163) -/
  | txqPush (val : Byte)
  /-- `txq.rdstatus rd` (R160) -/
  | txqRdstatus (rd : Reg)
  /-- `txq.rdhead rd` (R161) -/
  | txqRdhead (rd : Reg)
  /-- `txq.rdtail rd` (R162) -/
  | txqRdtail (rd : Reg)
  /-- `bnz rs, imm8, target` (R93) -/
  | bnz (rs : Reg) (imm : Byte) (target : Nat)
  /-- `bz rs, imm8, target` (R94) -/
  | bz (rs : Reg) (imm : Byte) (target : Nat)
  /-- `bne rs, imm8, target` (R95) -/
  | bne (rs : Reg) (imm : Byte) (target : Nat)
  /-- `halt` (R96) -/
  | halt
  /-- `fatal` (R97) -/
  | fatal
  deriving DecidableEq, Repr

/-- The pseudo-operations of R81, and `deviceInit` (R154): the source's named operations. Their expansions into host
statements are in `Machine/Pseudo.lean`. -/
inductive Pseudo where
  /-- `start` (R124) -/
  | start
  /-- `stop` (R125) -/
  | stop
  /-- `writeByte imm8` (R126) -/
  | writeByte (b : Byte)
  /-- `readByte.ack rN` (ack = true) and `readByte.nack rN` (ack = false) (R127) -/
  | readByte (ack : Bool) (rN : Reg)
  /-- `writeRegister reg, imm16` (R151) -/
  | writeRegister (reg : Byte) (v : BitVec 16)
  /-- `readRegister reg, rH, rL` (R152) -/
  | readRegister (reg : Byte) (rH rL : Reg)
  /-- `deviceInit cfg` (R154) -/
  | deviceInit (cfg : BitVec 16)
  /-- `putByte imm8` (R172) -/
  | putByte (b : Byte)
  /-- `putString "s"` (R173): the host's memory from the string's first byte on -/
  | putString (s : List Byte)
  /-- `putFlashString "s"` (R173): "Flash" names where the host keeps the string, which changes nothing -/
  | putFlashString (s : List Byte)
  deriving DecidableEq, Repr

end Sys2Proof
end

