-- ==== Sys2Proof/WellFormed.lean ====
section
/-! DEFINITION. Which terms the spec gives a meaning: a statement whose operands fit their fields (R73), a pseudo-operation
within the operands its rule allows (R151, R152), and the parameter values R8 and R9 call legal. -/

namespace Sys2Proof

/-- A statement whose operands fit their fields. The only operand with a wider type than its field is TARGET (16 bits,
R73). -/
def Instr.wellFormed : Instr → Bool
  | .bnz _ _ target => decide (target < 2 ^ 16)
  | .bz _ _ target => decide (target < 2 ^ 16)
  | .bne _ _ target => decide (target < 2 ^ 16)
  | .twmNop | .twmStart | .twmStop | .twmWrite | .twmReadNack | .twmReadAck => true
  | .twmWrdata _ | .twmRdstatus _ | .twmRddata _ => true
  | .txqPush _ | .txqRdstatus _ | .txqRdhead _ | .txqRdtail _ => true
  | .halt | .fatal => true

/-- The operands R151 and R152 allow: a pointer value from 0 to 3, and result registers other than the scratch r7. -/
def Pseudo.wellFormed : Pseudo → Bool
  | .writeRegister reg _ => decide (reg.toNat ≤ 3)
  | .readRegister reg rH rL => decide (reg.toNat ≤ 3) && decide (rH ≠ .r7) && decide (rL ≠ .r7)
  | .start | .stop | .writeByte _ | .readByte _ _ | .deviceInit _ => true
  | .putByte _ | .putString _ | .putFlashString _ => true

/-- The parameter values R8 calls legal: TXQ_CAP as R9 says, and a positive F_SCL. -/
def Params.wellFormed (p : Params) : Bool :=
  p.capLegal && decide (0 < p.fScl)

end Sys2Proof
end

