-- ==== Sys2Proof/Decode.lean ====
section
/-! DEFINITION. Decoding a host statement word (spec R70 to R79) and encoding a statement, both from the tables of R71
to R76. The decoder is total on 32-bit words and rejects by fault code, in the order of R77. -/

namespace Sys2Proof

/-! ## Fields -/

/-- KIND, HSW[31:28] (R70). -/
def kindOf (w : Word) : BitVec 4 := w.extractLsb' 28 4

/-- W, HSW[15] (R72): true = write. -/
def writeBit (w : Word) : Bool := w.getLsbD 15

/-- OFF, HSW[14:8] (R72). -/
def offField (w : Word) : BitVec 7 := w.extractLsb' 8 7

/-- VAL, HSW[7:0] (R72). -/
def valField (w : Word) : Byte := w.extractLsb' 0 8

/-- RD, HSW[18:16] (R71). -/
def rdField (w : Word) : BitVec 3 := w.extractLsb' 16 3

/-- RS, HSW[26:24] (R73). -/
def rsField (w : Word) : BitVec 3 := w.extractLsb' 24 3

/-- IMM8, HSW[23:16] (R73). -/
def immField (w : Word) : Byte := w.extractLsb' 16 8

/-- TARGET, HSW[15:0] (R73), an unsigned statement index, not scaled (R75). -/
def targetField (w : Word) : Nat := (w.extractLsb' 0 16).toNat

/-- The 3-bit number of a host result register (R75). -/
def regCode : Reg → BitVec 3
  | .r0 => 0#3 | .r1 => 1#3 | .r2 => 2#3 | .r3 => 3#3
  | .r4 => 4#3 | .r5 => 5#3 | .r6 => 6#3 | .r7 => 7#3

/-- The host result register a 3-bit number selects (R75). -/
def regOf (c : BitVec 3) : Reg :=
  match c.toNat with
  | 0 => .r0 | 1 => .r1 | 2 => .r2 | 3 => .r3
  | 4 => .r4 | 5 => .r5 | 6 => .r6 | _ => .r7

/-- The command a TWM_CTRL value names, from its fields CMD = VAL[2:0], ACK = VAL[3] and reserved = VAL[7:4] (R28, R72).
None where R28 says Fault(BAD_CMD). -/
def ctrlCommand (v : Byte) : Option Command :=
  if v.extractLsb' 4 4 ≠ 0#4 then none
  else
    match (v.extractLsb' 0 3).toNat, v.getLsbD 3 with
    | 0, false => some .nop
    | 1, false => some .start
    | 2, false => some .stop
    | 3, false => some .write
    | 4, a => some (.read a)
    | _, _ => none

/-- The TWM_CTRL value of a command (R28). -/
def commandCtrl : Command → Byte
  | .nop => 0x00#8
  | .start => 0x01#8
  | .stop => 0x02#8
  | .write => 0x03#8
  | .read false => 0x04#8
  | .read true => 0x0C#8

/-- The statement that writes a command to TWM_CTRL (R76). -/
def commandInstr : Command → Instr
  | .nop => .twmNop
  | .start => .twmStart
  | .stop => .twmStop
  | .write => .twmWrite
  | .read false => .twmReadNack
  | .read true => .twmReadAck

/-! ## The decoder -/

/-- Format A, after KIND = 0x0 (R77). -/
def decodeAccess (w : Word) : Except FaultCode Instr :=
  if w.extractLsb' 19 9 ≠ 0#9 then .error .illegalStatement
  else if writeBit w = true ∧ rdField w ≠ 0#3 then .error .illegalStatement
  else if writeBit w = false ∧ valField w ≠ 0#8 then .error .illegalStatement
  else if writeBit w = true then
    if offField w = 0x00#7 then
      match ctrlCommand (valField w) with
      | some c => .ok (commandInstr c)
      | none => .error .badCmd
    else if offField w = 0x02#7 then .ok (.twmWrdata (valField w))
    else if offField w = 0x08#7 then .ok (.txqPush (valField w))
    else .error .badAccess
  else
    if offField w = 0x01#7 then .ok (.twmRdstatus (regOf (rdField w)))
    else if offField w = 0x02#7 then .ok (.twmRddata (regOf (rdField w)))
    else if offField w = 0x09#7 then .ok (.txqRdstatus (regOf (rdField w)))
    else if offField w = 0x0A#7 then .ok (.txqRdhead (regOf (rdField w)))
    else if offField w = 0x0B#7 then .ok (.txqRdtail (regOf (rdField w)))
    else .error .badAccess

/-- Format B, after KIND = 0x1, 0x2 or 0x3 (R73, R77). -/
def decodeBranch (make : Reg → Byte → Nat → Instr) (w : Word) : Except FaultCode Instr :=
  if w.getLsbD 27 = true then .error .illegalStatement
  else .ok (make (regOf (rsField w)) (immField w) (targetField w))

/-- Format Z, after KIND = 0xE or 0xF (R74, R77). -/
def decodeBare (i : Instr) (w : Word) : Except FaultCode Instr :=
  if w.extractLsb' 0 28 ≠ 0#28 then .error .illegalStatement else .ok i

/-- The decoder (R77): every 32-bit word is one statement or raises one of three faults. The checks on the format come
first, the access check next, the command check last. -/
def decodeWord (w : Word) : Except FaultCode Instr :=
  if kindOf w = 0x0#4 then decodeAccess w
  else if kindOf w = 0x1#4 then decodeBranch .bnz w
  else if kindOf w = 0x2#4 then decodeBranch .bz w
  else if kindOf w = 0x3#4 then decodeBranch .bne w
  else if kindOf w = 0xE#4 then decodeBare .halt w
  else if kindOf w = 0xF#4 then decodeBare .fatal w
  else .error .illegalStatement

/-- The statement read from a word given as a number whose bit 0 is HSW[0]. Every statement is one 32-bit word (R70), so
nothing is read from bits above 31, and a number that does not fit 32 bits is no statement. -/
def decodeTableWord (nbits w : Nat) : Option Instr :=
  if w % 2 ^ nbits < 2 ^ 32 then
    match decodeWord (BitVec.ofNat 32 (w % 2 ^ nbits)) with
    | .ok i => some i
    | .error _ => none
  else none

/-! ## The encoder -/

/-- The 16-bit access word AW (R72). -/
def accessWord (write : Bool) (off : BitVec 7) (val : Byte) : BitVec 16 :=
  BitVec.ofBool write ++ off ++ val

/-- A format-A word (R71). -/
def encodeAccess (rd : BitVec 3) (aw : BitVec 16) : Word :=
  0x0#4 ++ 0#9 ++ rd ++ aw

/-- A format-A write: RD must be 0 (R71). -/
def encodeWrite (off : BitVec 7) (val : Byte) : Word :=
  encodeAccess 0#3 (accessWord true off val)

/-- A format-A read: VAL must be 0 (R72). -/
def encodeRead (rd : Reg) (off : BitVec 7) : Word :=
  encodeAccess (regCode rd) (accessWord false off 0#8)

/-- A format-B word (R73). -/
def encodeBranch (kind : BitVec 4) (rs : Reg) (imm : Byte) (target : Nat) : Word :=
  kind ++ 0#1 ++ regCode rs ++ imm ++ BitVec.ofNat 16 target

/-- A format-Z word (R74). -/
def encodeBare (kind : BitVec 4) : Word := kind ++ 0#28

/-- The word of a statement (R70 to R76). It is also the word a fault records (R40). -/
def encode : Instr → Word
  | .twmNop => encodeWrite 0x00#7 (commandCtrl .nop)
  | .twmStart => encodeWrite 0x00#7 (commandCtrl .start)
  | .twmStop => encodeWrite 0x00#7 (commandCtrl .stop)
  | .twmWrite => encodeWrite 0x00#7 (commandCtrl .write)
  | .twmReadNack => encodeWrite 0x00#7 (commandCtrl (.read false))
  | .twmReadAck => encodeWrite 0x00#7 (commandCtrl (.read true))
  | .twmWrdata val => encodeWrite 0x02#7 val
  | .twmRdstatus rd => encodeRead rd 0x01#7
  | .twmRddata rd => encodeRead rd 0x02#7
  | .txqPush val => encodeWrite 0x08#7 val
  | .txqRdstatus rd => encodeRead rd 0x09#7
  | .txqRdhead rd => encodeRead rd 0x0A#7
  | .txqRdtail rd => encodeRead rd 0x0B#7
  | .bnz rs imm target => encodeBranch 0x1#4 rs imm target
  | .bz rs imm target => encodeBranch 0x2#4 rs imm target
  | .bne rs imm target => encodeBranch 0x3#4 rs imm target
  | .halt => encodeBare 0xE#4
  | .fatal => encodeBare 0xF#4

/-! ## The opcode map as a table -/

/-- The match and the mask of a statement's row of R76: a word matches when `(HSW & mask) == match`. -/
def opcodeRow : Instr → Word × Word
  | .twmNop => (0x00008000#32, 0xFFFFFFFF#32)
  | .twmStart => (0x00008001#32, 0xFFFFFFFF#32)
  | .twmStop => (0x00008002#32, 0xFFFFFFFF#32)
  | .twmWrite => (0x00008003#32, 0xFFFFFFFF#32)
  | .twmReadNack => (0x00008004#32, 0xFFFFFFFF#32)
  | .twmReadAck => (0x0000800C#32, 0xFFFFFFFF#32)
  | .twmWrdata _ => (0x00008200#32, 0xFFFFFF00#32)
  | .twmRdstatus _ => (0x00000100#32, 0xFFF8FFFF#32)
  | .twmRddata _ => (0x00000200#32, 0xFFF8FFFF#32)
  | .txqPush _ => (0x00008800#32, 0xFFFFFF00#32)
  | .txqRdstatus _ => (0x00000900#32, 0xFFF8FFFF#32)
  | .txqRdhead _ => (0x00000A00#32, 0xFFF8FFFF#32)
  | .txqRdtail _ => (0x00000B00#32, 0xFFF8FFFF#32)
  | .bnz _ _ _ => (0x10000000#32, 0xF8000000#32)
  | .bz _ _ _ => (0x20000000#32, 0xF8000000#32)
  | .bne _ _ _ => (0x30000000#32, 0xF8000000#32)
  | .halt => (0xE0000000#32, 0xFFFFFFFF#32)
  | .fatal => (0xF0000000#32, 0xFFFFFFFF#32)

/-- The 18 rows of R76 in the table's order, each as (match, mask). -/
def opcodeTable : List (Word × Word) :=
  [opcodeRow .twmNop, opcodeRow .twmStart, opcodeRow .twmStop, opcodeRow .twmWrite, opcodeRow .twmReadNack,
    opcodeRow .twmReadAck] ++
  [opcodeRow (.twmWrdata 0), opcodeRow (.twmRdstatus .r0), opcodeRow (.twmRddata .r0), opcodeRow (.txqPush 0),
    opcodeRow (.txqRdstatus .r0), opcodeRow (.txqRdhead .r0), opcodeRow (.txqRdtail .r0)] ++
  [opcodeRow (.bnz .r0 0 0), opcodeRow (.bz .r0 0 0), opcodeRow (.bne .r0 0 0), opcodeRow .halt, opcodeRow .fatal]

/-- A word matches a row of R76. -/
def rowMatches (w : Word) (row : Word × Word) : Bool := w &&& row.2 == row.1

end Sys2Proof
end

