-- ==== Sys2Proof/Machine/State.lean ====
section
/-! DEFINITION. The state of the AVR_ADS1015 bus block and its host as plain data (spec 10_state.md), its value at reset,
and the reasons a step can stop. -/

namespace Sys2Proof.Machine

/-- The 8 host result registers (R20). Each holds a byte or *unwritten*, which is `none`: the spec's own state, with
the spec's own fault for reading it (R20, R44, log entry 11). -/
structure Regs where
  r0 : Option Byte
  r1 : Option Byte
  r2 : Option Byte
  r3 : Option Byte
  r4 : Option Byte
  r5 : Option Byte
  r6 : Option Byte
  r7 : Option Byte
  deriving DecidableEq, Repr

/-- The push micro-steps (R164 to R168). -/
inductive PushStep where
  | p1 | p2 | p3 | p4 | p5
  deriving DecidableEq, Repr

/-- The host run state (R22). -/
inductive HState where
  /-- Fetching and executing statements. -/
  | run
  /-- Stalled inside a TXQ_DATA write of byte `b`. -/
  | push (step : PushStep) (b : Byte) (next : Index)
  /-- Executed `halt`. -/
  | halted
  /-- Executed `fatal`: the source's Fatal class (R192). -/
  | fatal
  deriving DecidableEq, Repr

/-- The command in flight (R24); no command is `none` in `State.pend`. -/
inductive InFlight where
  | start
  | stop
  /-- The byte latched from `data` at issue. -/
  | write (b : Byte)
  /-- The acknowledge the master will send. -/
  | read (ack : Bool)
  deriving DecidableEq, Repr

/-- TWM's position in the open transaction (R27). -/
inductive Phase where
  | idle | addr | tx | rx | rxend
  deriving DecidableEq, Repr

/-- What `raise Fault(code)` records (R40, R190). -/
structure FaultRecord where
  code : FaultCode
  pc : Nat
  word : Word
  deriving DecidableEq, Repr

/-- A host bus access of two bytes or more, `extra + 2` of them from the host address `addr` on: what a platform may make of
an access statement (R54, log entry 20). -/
structure WideAccess where
  addr : Nat
  extra : Nat
  deriving DecidableEq, Repr

/-- Its width in bytes. -/
abbrev WideAccess.width (a : WideAccess) : Nat := a.extra + 2

/-- The FIFO storage `buf` (R32): the slots that hold a byte, each with its index, indices strictly rising. A slot that is
not listed is *unwritten* (R44). -/
abbrev Memory := List Host.Cell

/-- Everything the spec gives the machine (10_state.md), then the launch arguments (R8), then the model's own fields. -/
structure State where
  /-- `r0`..`r7` (R20). -/
  regs : Regs
  /-- Statement index (R21). -/
  pc : Nat
  /-- Host run state (R22). -/
  hstate : HState
  /-- A command is in flight (R23). -/
  busy : Bool
  /-- The command in flight (R24). -/
  pend : Option InFlight
  /-- The slave's acknowledge of the last completed WRITE (R25). -/
  ackr : Bool
  /-- TWM_DATA (R26); `none` is unwritten. -/
  data : Option Byte
  /-- Position in the transaction (R27). -/
  phase : Phase
  /-- Bus trace, oldest event first (R30). -/
  bus : List BusEvent
  /-- FIFO storage (R32). -/
  buf : Memory
  /-- Index of the last written slot (R33). -/
  head : Index
  /-- Index of the last drained slot (R34). -/
  tail : Index
  /-- The "buffer empty" interrupt enable (R35). -/
  txie : Bool
  /-- The transmitter's data register is free (R36). -/
  txReady : Bool
  /-- Serial trace, oldest byte first (R37). -/
  serial : List Byte
  /-- The sticky fault register (R40). -/
  fault : Option FaultRecord
  /-- PROG, the host program (R8, R21, R65). -/
  prog : List Word
  /-- The launch parameters (R8). -/
  params : Params
  /-- THE MODEL'S OWN: the agents preferred at the next steps, in order; `none` prefers that none moves (R196, log
  entry 3). -/
  schedule : List (Option Agent)
  /-- THE MODEL'S OWN: steps taken, the argument of the free values (log entry 3). -/
  tick : Nat
  /-- THE MODEL'S OWN: the SLAVE's next acknowledges, in order (R130, log entry 4). -/
  slaveAcks : List Bool
  /-- THE MODEL'S OWN: the SLAVE's next bytes, in order (R130, log entry 4). -/
  slaveBytes : List Byte
  /-- THE MODEL'S OWN: what the platform makes of the access statement executed at each of the next steps, in order; `none`
  is the one-byte access the statement asks for (R54, log entry 20). -/
  wideAccesses : List (Option WideAccess)
  deriving DecidableEq, Repr

/-- Why the machine has no step. All three are states of the spec in which no agent can step, so stopping is safe. -/
inductive Fault where
  /-- Raised by `step` when the fault register is set: no agent has a step (R40, R191). Safe. -/
  | faultRecorded
  /-- Raised by `step` in a final state: the run has ended as R99 says. Safe. -/
  | runEnded
  /-- Raised by `step` when no agent can step, no fault is recorded and the state is not final: stuck (R99), for example
  FATAL with nothing left to do. Safe. -/
  | stuck
  deriving DecidableEq, Repr

/-- What the model gives no meaning. -/
inductive Refusal where
  /-- Raised by `exec` for an instruction that has no meaning yet. No arm raises it. Safe. -/
  | notModelled (mnemonic : String)
  /-- Raised by `step` when TXQ_CAP is not one of R9's legal values: "A model must refuse" it. Safe. -/
  | illegalCapacity
  deriving DecidableEq, Repr

/-- Every host result register unwritten (R44). -/
def Regs.unwritten : Regs := ⟨none, none, none, none, none, none, none, none⟩

/-- The clean launch of a program under given parameters (R44, R45): every piece of the spec's state at R44's value, and
the model's own lists empty. -/
def State.launch (p : Params) (prog : List Word) : State where
  regs := Regs.unwritten
  pc := 0
  hstate := .run
  busy := false
  pend := none
  ackr := false
  data := none
  phase := .idle
  bus := []
  buf := []
  head := 0#8
  tail := 0#8
  txie := false
  txReady := true
  serial := []
  fault := none
  prog := prog
  params := p
  schedule := []
  tick := 0
  slaveAcks := []
  slaveBytes := []
  wideAccesses := []

/-- The machine right after reset (R44, R210, R211), with no program loaded: PROG is a launch argument (log entry 1). -/
def State.reset : State := State.launch Params.reset []

end Sys2Proof.Machine
end

