-- ==== Sys2Proof/Machine/Ops.lean ====
section
/-! DEFINITION. The named operations over State: FIFO storage, index arithmetic, completing a statement, and RAISING A
FAULT, the spec's only exception entry (R191). There is no return from it: a fault has no handler, no vector and no
return (R191, R198, R199). -/

namespace Sys2Proof.Machine

/-! ## FIFO storage (R32) -/

/-- The content of a slot; `none` is unwritten. -/
def Memory.read : Memory → Nat → Option Byte
  | [], _ => none
  | c :: rest, a => if a = c.1 then some c.2 else Memory.read rest a

/-- Store a byte into a slot, keeping the indices strictly rising. -/
def Memory.write : Memory → Nat → Byte → Memory
  | [], a, b => [(a, b)]
  | c :: rest, a, b =>
    if a < c.1 then (a, b) :: c :: rest
    else if a = c.1 then (a, b) :: rest
    else c :: Memory.write rest a b

/-- The canonical form: slot indices strictly rising. No cell can equal what an unlisted slot holds (unwritten), so equal
storages are equal lists. -/
abbrev Memory.wf (m : Memory) : Prop := m.Pairwise (fun c d => c.1 < d.1)

/-! ## Index arithmetic (R8, R164) -/

/-- K, the width in bits of the indices: log2(TXQ_CAP) (R8). -/
def indexBits (p : Params) : Nat := Nat.log2 p.txqCap

/-- MASK = TXQ_CAP - 1 (R8). -/
def mask (p : Params) : Index := BitVec.ofNat 8 (p.txqCap - 1)

/-- The wrapping increment `(i + 1) & MASK` (R164, R169). -/
def nextIndex (p : Params) (i : Index) : Index := (i + 1#8) &&& mask p

/-! ## Completing a statement and raising a fault -/

/-- `pc <- pc + 1` (R21): pc does not wrap. -/
def State.nextPc (s : State) : State := { s with pc := s.pc + 1 }

/-- The numbers of the fault codes (R190). -/
def faultNumber : FaultCode → Nat
  | .pcRange => 1
  | .illegalStatement => 2
  | .unwrittenReg => 3
  | .badAccess => 4
  | .badCmd => 5
  | .cmdWhileBusy => 6
  | .dataWhileBusy => 7
  | .protocol => 8
  | .dataUnwritten => 9
  | .openTransaction => 10

/-- `raise Fault(code)` at the statement whose word is `w` (R40, R191): record (code, pc, word) if no fault is recorded
yet, and change nothing else. That every agent stops is `enabled`'s doing (log entry 8). -/
def raiseFault (code : FaultCode) (w : Word) (s : State) : State :=
  match s.fault with
  | none => { s with fault := some { code := code, pc := s.pc, word := w } }
  | some _ => s

/-- `emit e` (R11). -/
def emit (e : BusEvent) (s : State) : State := { s with bus := s.bus ++ [e] }

/-- `send b` (R11). -/
def send (b : Byte) (s : State) : State := { s with serial := s.serial ++ [b] }

/-! ## The SLAVE oracle (R130) -/

/-- `draw SlaveAck(bus, b)`: the next acknowledge State holds, else the free value of this trace and byte. -/
def slaveAckOf (s : State) (b : Byte) : Bool := s.slaveAcks.headD (Config.slaveAck s.bus b)

/-- `draw SlaveByte(bus)`: the next byte State holds, else the free value of this trace. -/
def slaveByteOf (s : State) : Byte := s.slaveBytes.headD (Config.slaveByte s.bus)

end Sys2Proof.Machine
end

