-- ==== Sys2Proof/Machine/Operands.lean ====
section
/-! DEFINITION. The operand forms of a host statement: host result registers (R20) and the registers of the block's
window by offset (R31). -/

namespace Sys2Proof.Machine

/-- The content of a host result register; `none` is unwritten. -/
def Regs.get (rs : Regs) : Reg → Option Byte
  | .r0 => rs.r0 | .r1 => rs.r1 | .r2 => rs.r2 | .r3 => rs.r3
  | .r4 => rs.r4 | .r5 => rs.r5 | .r6 => rs.r6 | .r7 => rs.r7

/-- Write a host result register. -/
def Regs.set (rs : Regs) (r : Reg) (v : Byte) : Regs :=
  match r with
  | .r0 => { rs with r0 := some v } | .r1 => { rs with r1 := some v }
  | .r2 => { rs with r2 := some v } | .r3 => { rs with r3 := some v }
  | .r4 => { rs with r4 := some v } | .r5 => { rs with r5 := some v }
  | .r6 => { rs with r6 := some v } | .r7 => { rs with r7 := some v }

/-- `r[i]` (R11, R20): reading an unwritten register is Fault(UNWRITTEN_REG) and never yields a value. -/
def readReg (r : Reg) (s : State) : Except FaultCode Byte :=
  match s.regs.get r with
  | some v => .ok v
  | none => .error .unwrittenReg

/-- `r[i] <- v` (R11). -/
def writeReg (r : Reg) (v : Byte) (s : State) : State := { s with regs := s.regs.set r v }

/-- The registers of the block's window (R31). -/
inductive BlkReg where
  | twmCtrl | twmStatus | twmData | txqData | txqStatus | txqHead | txqTail
  deriving DecidableEq, Repr

/-- Offsets from BLOCK_BASE (R31). -/
def offsetOf : BlkReg → BitVec 7
  | .twmCtrl => 0x00#7
  | .twmStatus => 0x01#7
  | .twmData => 0x02#7
  | .txqData => 0x08#7
  | .txqStatus => 0x09#7
  | .txqHead => 0x0A#7
  | .txqTail => 0x0B#7

/-- The register at an offset; `none` is unmapped (R31). -/
def regAt (off : BitVec 7) : Option BlkReg :=
  [BlkReg.twmCtrl, .twmStatus, .twmData, .txqData, .txqStatus, .txqHead, .txqTail].find?
    (fun r => offsetOf r == off)

end Sys2Proof.Machine
end

