-- ==== Sys2Proof/Machine/Flags.lean ====
section
/-! DEFINITION. The status registers and the conditions they show (R27, R29, R38, R43), and the command legality table
(R118). -/

namespace Sys2Proof.Machine

/-- The STATUS.PHASE code (R27). Codes 0b101 to 0b111 are never produced. -/
def phaseCode : Phase → BitVec 3
  | .idle => 0b000#3
  | .addr => 0b001#3
  | .tx => 0b010#3
  | .rx => 0b011#3
  | .rxend => 0b100#3

/-- TWM_STATUS: `{0b000, phase_code, ackr, busy}` (R29). -/
def twmStatus (s : State) : Byte :=
  0b000#3 ++ phaseCode s.phase ++ BitVec.ofBool s.ackr ++ BitVec.ofBool s.busy

/-- EMPTY: head == tail (R38). -/
def fifoEmpty (s : State) : Bool := s.head == s.tail

/-- FULL: `((head + 1) & MASK) == tail` (R38). -/
def fifoFull (s : State) : Bool := nextIndex s.params s.head == s.tail

/-- TXQ_STATUS: `{0b0000, tx_ready, txie, full, empty}` (R38, R160). -/
def txqStatus (s : State) : Byte :=
  0b0000#4 ++ BitVec.ofBool s.txReady ++ BitVec.ofBool s.txie ++ BitVec.ofBool (fifoFull s) ++
    BitVec.ofBool (fifoEmpty s)

/-- count = `(head - tail) & MASK`, the number of stored, undrained bytes (R174, I1). -/
def fifoCount (s : State) : Nat := ((s.head - s.tail) &&& mask s.params).toNat

/-- The legality of a command by phase (R118). -/
def commandLegal : Phase → Command → Bool
  | _, .nop => true
  | .idle, .start => true
  | .tx, .start => true
  | .rxend, .start => true
  | .tx, .stop => true
  | .rxend, .stop => true
  | .addr, .write => true
  | .tx, .write => true
  | .rx, .read _ => true
  | _, _ => false

/-- The command an in-flight record was issued by. -/
def commandOf : InFlight → Command
  | .start => .start
  | .stop => .stop
  | .write _ => .write
  | .read a => .read a

end Sys2Proof.Machine
end

