-- ==== Sys2Proof/Machine/HostProgram.lean ====
section
/-! DEFINITION. The meanings of the branches, `halt` and `fatal` (spec 40_host_program.md §2 and §3), and the fetch. -/

namespace Sys2Proof.Machine

/-- A conditional branch on a host result register (R92): the target is an absolute statement index, accepted whatever
PROG's length. -/
def branchIf (taken : Byte → Bool) (rs : Reg) (target : Nat) (w : Word) (s : State) :
    Host.Outcome State Fault Refusal :=
  match readReg rs s with
  | .error c => .next (raiseFault c w s)
  | .ok v => .next (if taken v = true then { s with pc := target } else s.nextPc)

/-- `bnz rs, imm8, target`: branch if any masked bit is set (R93). -/
def execBnz (rs : Reg) (imm : Byte) (target : Nat) (s : State) : Host.Outcome State Fault Refusal :=
  branchIf (fun v => v &&& imm != 0#8) rs target (encode (.bnz rs imm target)) s

/-- `bz rs, imm8, target`: branch if every masked bit is clear (R94). -/
def execBz (rs : Reg) (imm : Byte) (target : Nat) (s : State) : Host.Outcome State Fault Refusal :=
  branchIf (fun v => v &&& imm == 0#8) rs target (encode (.bz rs imm target)) s

/-- `bne rs, imm8, target`: branch if the register differs from the immediate (R95). -/
def execBne (rs : Reg) (imm : Byte) (target : Nat) (s : State) : Host.Outcome State Fault Refusal :=
  branchIf (fun v => v != imm) rs target (encode (.bne rs imm target)) s

/-- `halt`: end of the host program (R96). The pc is not changed. -/
def execHalt (s : State) : Host.Outcome State Fault Refusal :=
  if s.busy = true ∨ s.phase ≠ .idle then .next (raiseFault .openTransaction (encode .halt) s)
  else .next { s with hstate := .halted }

/-- `fatal`: the source's Fatal halt (R97, R192). The pc is not changed and no fault is recorded. -/
def execFatal (s : State) : Host.Outcome State Fault Refusal :=
  .next { s with hstate := .fatal }

/-- The fetch of a HOST step (R90): the statement word at pc, or `none` at or beyond the end of PROG. -/
def fetch (s : State) : Option Word := s.prog[s.pc]?

/-- PROG with a word at a statement index. Missing statements before it are filled with 0x00000000, which is no statement
(R78: a read of TWM_CTRL). -/
def placeWord : List Word → Nat → Word → List Word
  | [], 0, w => [w]
  | [], n + 1, w => 0#32 :: placeWord [] n w
  | _ :: rest, 0, w => w :: rest
  | v :: rest, n + 1, w => v :: placeWord rest n w

end Sys2Proof.Machine
end

