-- ==== Sys2Proof/Machine/Window.lean ====
section
/-! DEFINITION. The block's register window: one 8-bit access to one register (R54 to R57, R91), the issue of a TWM
command (R113 to R118), and the host's access statement over them. -/

namespace Sys2Proof.Machine

/-- Issue a command by a write of TWM_CTRL (R113 to R117), with the checks in the order of R197: busy, then the phase
(R118), then `data`. The pc is not moved here. -/
def issueCommand (c : Command) (s : State) : Except FaultCode State :=
  if s.busy = true then .error .cmdWhileBusy
  else if commandLegal s.phase c = false then .error .protocol
  else
    match c with
    | .nop => .ok s
    | .start => .ok { s with busy := true, pend := some .start }
    | .stop => .ok { s with busy := true, pend := some .stop }
    | .write =>
      match s.data with
      | none => .error .dataUnwritten
      | some b => .ok { s with busy := true, pend := some (.write b) }
    | .read a => .ok { s with busy := true, pend := some (.read a) }

/-- A read of TWM_DATA (R112). -/
def readData (s : State) : Except FaultCode Byte :=
  if s.busy = true then .error .dataWhileBusy
  else
    match s.data with
    | none => .error .dataUnwritten
    | some b => .ok b

/-- A write of TWM_DATA (R111). -/
def writeData (v : Byte) (s : State) : Except FaultCode State :=
  if s.busy = true then .error .dataWhileBusy else .ok { s with data := some v }

/-- `BlkRead(off)`: an 8-bit read of the block register at an offset (R11, R91). No read has a side effect (R56). -/
def blkRead (off : BitVec 7) (s : State) : Except FaultCode Byte :=
  match regAt off with
  | some .twmStatus => .ok (twmStatus s)
  | some .twmData => readData s
  | some .txqStatus => .ok (txqStatus s)
  | some .txqHead => .ok s.head
  | some .txqTail => .ok s.tail
  | some .twmCtrl => .error .badAccess
  | some .txqData => .error .badAccess
  | none => .error .badAccess

/-- `BlkWrite(off, v)`: an 8-bit write of the block register at an offset (R11, R91). A write of TXQ_DATA starts the
push (R163) and is not complete until P5. -/
def blkWrite (off : BitVec 7) (v : Byte) (s : State) : Except FaultCode State :=
  match regAt off with
  | some .twmCtrl =>
    match ctrlCommand v with
    | none => .error .badCmd
    | some c => issueCommand c s
  | some .twmData => writeData v s
  | some .txqData => .ok { s with hstate := .push .p1 v 0#8 }
  | some .twmStatus => .error .badAccess
  | some .txqStatus => .error .badAccess
  | some .txqHead => .error .badAccess
  | some .txqTail => .error .badAccess
  | none => .error .badAccess

/-! ## The window in the host's address space (R54, R57, R75) -/

/-- The bytes from `addr` on, `width` of them, reach the window BLOCK_BASE .. BLOCK_BASE + 0x7F (R57). -/
def reachesWindow (p : Params) (addr width : Nat) : Bool :=
  decide (addr < p.blockBase + 0x80) && decide (p.blockBase < addr + width)

/-- `MemRead(addr, width)` as the block sees it (R11, R54): an access of another width than one byte raises BAD_ACCESS;
`none` where the access does not reach the window, whose surroundings are the platform's (R57, log entry 17). -/
def memRead (addr width : Nat) (s : State) : Option (Except FaultCode Byte) :=
  if reachesWindow s.params addr width = false then none
  else if width ≠ 1 then some (.error .badAccess)
  else some (blkRead (BitVec.ofNat 7 (addr - s.params.blockBase)) s)

/-- `MemWrite(addr, 1, v)` as the block sees it (R11, R54). -/
def memWrite (addr width : Nat) (v : Byte) (s : State) : Option (Except FaultCode State) :=
  if reachesWindow s.params addr width = false then none
  else if width ≠ 1 then some (.error .badAccess)
  else some (blkWrite (BitVec.ofNat 7 (addr - s.params.blockBase)) v s)

/-- The fault that the platform's access raises where it makes a wide access `a` of the access statement `w`, whose W bit
says whether it reads or writes (R54); `none` where `a` does not reach the window (R57). -/
def wideFault (a : WideAccess) (w : Word) (s : State) : Option FaultCode :=
  if writeBit w = true then
    match memWrite a.addr a.width (valField w) s with
    | some (.error c) => some c
    | some (.ok _) => none
    | none => none
  else
    match memRead a.addr a.width s with
    | some (.error c) => some c
    | some (.ok _) => none
    | none => none

/-! ## Access statements (R91) -/

/-- A format-A statement with W = 0: `r[RD] <- BlkRead(OFF)`, then `pc <- pc + 1`. `w` is the statement's word. -/
def accessRead (r : BlkReg) (rd : Reg) (w : Word) (s : State) : Host.Outcome State Fault Refusal :=
  match blkRead (offsetOf r) s with
  | .error c => .next (raiseFault c w s)
  | .ok v => .next (writeReg rd v s).nextPc

/-- A format-A statement with W = 1: `BlkWrite(OFF, VAL)`, then `pc <- pc + 1`. -/
def accessWrite (r : BlkReg) (v : Byte) (w : Word) (s : State) : Host.Outcome State Fault Refusal :=
  match blkWrite (offsetOf r) v s with
  | .error c => .next (raiseFault c w s)
  | .ok t => .next t.nextPc

/-- A write of TXQ_DATA: as `accessWrite`, but the pc stays at the statement until P5 (R163, R168). -/
def accessPush (v : Byte) (w : Word) (s : State) : Host.Outcome State Fault Refusal :=
  match blkWrite (offsetOf .txqData) v s with
  | .error c => .next (raiseFault c w s)
  | .ok t => .next t

end Sys2Proof.Machine
end

