-- ==== Sys2Proof/Machine/Twm.lean ====
section
/-! DEFINITION. The meanings of the TWM statements (spec 41_bus_transport.md §1 and §2). -/

namespace Sys2Proof.Machine

/-- `twm.nop`: write TWM_CTRL = 0x00 (R113). -/
def execTwmNop (s : State) : Host.Outcome State Fault Refusal :=
  accessWrite .twmCtrl (commandCtrl .nop) (encode .twmNop) s

/-- `twm.start`: issue START (R114). -/
def execTwmStart (s : State) : Host.Outcome State Fault Refusal :=
  accessWrite .twmCtrl (commandCtrl .start) (encode .twmStart) s

/-- `twm.stop`: issue STOP (R115). -/
def execTwmStop (s : State) : Host.Outcome State Fault Refusal :=
  accessWrite .twmCtrl (commandCtrl .stop) (encode .twmStop) s

/-- `twm.write`: issue WRITE of `data` (R116). -/
def execTwmWrite (s : State) : Host.Outcome State Fault Refusal :=
  accessWrite .twmCtrl (commandCtrl .write) (encode .twmWrite) s

/-- `twm.read.nack`: issue READ with ACK = 0 (R117). -/
def execTwmReadNack (s : State) : Host.Outcome State Fault Refusal :=
  accessWrite .twmCtrl (commandCtrl (.read false)) (encode .twmReadNack) s

/-- `twm.read.ack`: issue READ with ACK = 1 (R117). -/
def execTwmReadAck (s : State) : Host.Outcome State Fault Refusal :=
  accessWrite .twmCtrl (commandCtrl (.read true)) (encode .twmReadAck) s

/-- `twm.wrdata imm8`: write TWM_DATA (R111). -/
def execTwmWrdata (val : Byte) (s : State) : Host.Outcome State Fault Refusal :=
  accessWrite .twmData val (encode (.twmWrdata val)) s

/-- `twm.rdstatus rd`: read TWM_STATUS (R110). -/
def execTwmRdstatus (rd : Reg) (s : State) : Host.Outcome State Fault Refusal :=
  accessRead .twmStatus rd (encode (.twmRdstatus rd)) s

/-- `twm.rddata rd`: read TWM_DATA (R112). -/
def execTwmRddata (rd : Reg) (s : State) : Host.Outcome State Fault Refusal :=
  accessRead .twmData rd (encode (.twmRddata rd)) s

end Sys2Proof.Machine
end

