-- ==== Sys2Proof/Machine/Txq.lean ====
section
/-! DEFINITION. The meanings of the TXQ statements (spec 43_tx_queue.md §1 and R163). The push micro-steps are in
`Machine/Fifo.lean`. -/

namespace Sys2Proof.Machine

/-- `txq.push imm8`: write TXQ_DATA (R163). The host stalls in the write; P1 to P5 follow as steps of their own. -/
def execTxqPush (val : Byte) (s : State) : Host.Outcome State Fault Refusal :=
  accessPush val (encode (.txqPush val)) s

/-- `txq.rdstatus rd`: read TXQ_STATUS (R160). -/
def execTxqRdstatus (rd : Reg) (s : State) : Host.Outcome State Fault Refusal :=
  accessRead .txqStatus rd (encode (.txqRdstatus rd)) s

/-- `txq.rdhead rd`: read TXQ_HEAD (R161). -/
def execTxqRdhead (rd : Reg) (s : State) : Host.Outcome State Fault Refusal :=
  accessRead .txqHead rd (encode (.txqRdhead rd)) s

/-- `txq.rdtail rd`: read TXQ_TAIL (R162). -/
def execTxqRdtail (rd : Reg) (s : State) : Host.Outcome State Fault Refusal :=
  accessRead .txqTail rd (encode (.txqRdtail rd)) s

end Sys2Proof.Machine
end

