-- ==== Sys2Proof/Machine/Dispatch.lean ====
section
/-! DEFINITION. One arm per host statement. -/

namespace Sys2Proof.Machine

def exec (i : Instr) (s : State) : Host.Outcome State Fault Refusal :=
  match i with
  | .twmNop => Sys2Proof.Machine.execTwmNop s
  | .twmStart => Sys2Proof.Machine.execTwmStart s
  | .twmStop => Sys2Proof.Machine.execTwmStop s
  | .twmWrite => Sys2Proof.Machine.execTwmWrite s
  | .twmReadNack => Sys2Proof.Machine.execTwmReadNack s
  | .twmReadAck => Sys2Proof.Machine.execTwmReadAck s
  | .twmWrdata val => Sys2Proof.Machine.execTwmWrdata val s
  | .twmRdstatus rd => Sys2Proof.Machine.execTwmRdstatus rd s
  | .twmRddata rd => Sys2Proof.Machine.execTwmRddata rd s
  | .txqPush val => Sys2Proof.Machine.execTxqPush val s
  | .txqRdstatus rd => Sys2Proof.Machine.execTxqRdstatus rd s
  | .txqRdhead rd => Sys2Proof.Machine.execTxqRdhead rd s
  | .txqRdtail rd => Sys2Proof.Machine.execTxqRdtail rd s
  | .bnz rs imm target => Sys2Proof.Machine.execBnz rs imm target s
  | .bz rs imm target => Sys2Proof.Machine.execBz rs imm target s
  | .bne rs imm target => Sys2Proof.Machine.execBne rs imm target s
  | .halt => Sys2Proof.Machine.execHalt s
  | .fatal => Sys2Proof.Machine.execFatal s

end Sys2Proof.Machine
end

