-- ==== Sys2Proof/Machine/Engine.lean ====
section
/-! DEFINITION. The ENG agent: completion of the TWM command in flight (spec 41_bus_transport.md §3). -/

namespace Sys2Proof.Machine

/-- `busy <- 0; pend <- none` (R119). -/
def endCommand (s : State) : State := { s with busy := false, pend := none }

/-- Completion of START (R120). -/
def completeStart (s : State) : State :=
  let e := if s.phase = .idle then BusEvent.start else BusEvent.repStart
  endCommand { emit e s with phase := .addr }

/-- Completion of STOP (R121). -/
def completeStop (s : State) : State :=
  endCommand { emit .stop s with phase := .idle }

/-- Completion of WRITE(b) (R122). The RW bit of the address byte picks the phase: 0 is TX, 1 is RX (R53). -/
def completeWrite (b : Byte) (s : State) : State :=
  let a := slaveAckOf s b
  endCommand { emit (.wr b a) s with
    ackr := a
    slaveAcks := s.slaveAcks.tail
    phase := if s.phase = .addr then (if b.getLsbD 0 = false then .tx else .rx) else s.phase }

/-- Completion of READ(a) (R123). -/
def completeRead (a : Bool) (s : State) : State :=
  let b := slaveByteOf s
  endCommand { emit (.rd b a) s with
    data := some b
    slaveBytes := s.slaveBytes.tail
    phase := if a = true then .rx else .rxend }

/-- The ENG step (R119): complete the command in flight. With no command in flight (R24: not while busy) only the busy
bit falls: DEDUCED (log entry 9), no reachable state is such. -/
def engStep (s : State) : State :=
  match s.pend with
  | some .start => completeStart s
  | some .stop => completeStop s
  | some (.write b) => completeWrite b s
  | some (.read a) => completeRead a s
  | none => endCommand s

end Sys2Proof.Machine
end

