-- ==== Sys2Proof/Machine/Fifo.lean ====
section
/-! DEFINITION. The TXQ FIFO's agent steps: the push micro-steps P1 to P5 (R164 to R168), the DRAIN step (R169) and the
SER step (R170). -/

namespace Sys2Proof.Machine

/-- A push micro-step of the HOST agent (R164 to R168). P2's hold is in `enabled`: while `next == tail` HOST has no
enabled step (R165). -/
def pushStep (step : PushStep) (b : Byte) (next : Index) (s : State) : State :=
  match step with
  | .p1 => { s with hstate := .push .p2 b (nextIndex s.params s.head) }
  | .p2 => { s with hstate := .push .p3 b next }
  | .p3 => { s with buf := s.buf.write next.toNat b, hstate := .push .p4 b next }
  | .p4 => { s with head := next, hstate := .push .p5 b next }
  | .p5 => { s with txie := true, hstate := .run, pc := s.pc + 1 }

/-- The byte a DRAIN step reads from a slot. A slot that no P3 has written yields a free value (log entry 5): DRAIN never faults (R190)
and R174 (I4) says that no run reads such a slot. -/
def slotByte (i : Index) (s : State) : Byte :=
  match s.buf.read i.toNat with
  | some b => b
  | none => Config.unwrittenSlot s.tick

/-- The DRAIN step (R169): case A sends one byte, case B clears the enable of an empty FIFO. -/
def drainStep (s : State) : State :=
  if s.head ≠ s.tail then
    let t := nextIndex s.params s.tail
    { send (slotByte t s) s with tail := t, txReady := false }
  else { s with txie := false }

/-- The SER step (R170): the transmitter's data register is free again. -/
def serStep (s : State) : State := { s with txReady := true }

/-- P1 to P4 of a push as one step at P4, for a FIFO that is not full (R175). The host is left at P5. -/
def pushFused (b : Byte) (s : State) : State :=
  let next := nextIndex s.params s.head
  { s with buf := s.buf.write next.toNat b, head := next, hstate := .push .p5 b next }

end Sys2Proof.Machine
end

