-- ==== Sys2Proof/Machine/Agents.lean ====
section
/-! DEFINITION. Which agents have an enabled step, which one moves next, and what its step is (R12, R90, R119, R165,
R169, R170, R196). -/

namespace Sys2Proof.Machine

/-- HOST has an enabled step (R22, R90, R165), the fault register aside. -/
def hostReady (s : State) : Bool :=
  match s.hstate with
  | .run => true
  | .push .p2 _ next => next != s.tail
  | .push _ _ _ => true
  | .halted => false
  | .fatal => false

/-- The agent has an enabled step. While a fault is recorded no agent has one (R40, R191). -/
def enabled (a : Agent) (s : State) : Bool :=
  s.fault.isNone &&
    match a with
    | .host => hostReady s
    | .eng => s.busy
    | .drain => s.txie && s.txReady
    | .ser => !s.txReady

/-- The agents with an enabled step. -/
def enabledAgents (s : State) : List Agent :=
  [Agent.host, .eng, .drain, .ser].filter (fun a => enabled a s)

/-- The choice the schedule makes at this step: the next of State's list, else the free value of this tick. -/
def preferred (s : State) : Option Agent := s.schedule.headD (Config.schedule s.tick)

/-- The preferred agent if it is among those enabled, else the first of them; `none` if there is none. DESIGN CHOICE (log
entry 3): the fallback to the first, which some schedule asks for too. -/
def pick (pref : Option Agent) : List Agent → Option Agent
  | [] => none
  | [a] => some a
  | a :: b :: rest =>
    match pref with
    | some c => if c ∈ a :: b :: rest then some c else some a
    | none => some a

/-- The agent that takes the next step (R12, R196): any enabled agent may be it, and the schedule says which. -/
def nextAgent (s : State) : Option Agent := pick (preferred s) (enabledAgents s)

/-- The agents that are weakly fair (R98): HOST and DRAIN always, ENG when BUS_LIVE, SER when TX_LIVE. -/
def weaklyFair (p : Params) : Agent → Bool
  | .host => true
  | .drain => true
  | .eng => p.busLive
  | .ser => p.txLive

/-- No agent moves although some could: every one of them may stay pending for ever (R98, R119, R193's Blocking), and the
schedule asks for it (log entry 3). -/
def stalls (s : State) : Bool :=
  !(enabledAgents s).isEmpty && !(enabledAgents s).any (weaklyFair s.params) && preferred s == none

/-- The model's own part of every step: the schedule and the platform's list move on. -/
def consumeChoice (s : State) : State :=
  { s with schedule := s.schedule.tail, tick := s.tick + 1, wideAccesses := s.wideAccesses.tail }

/-- The word is an access statement: format A, with no check of its format failing (R77). -/
def isAccess (w : Word) : Bool :=
  kindOf w == 0x0#4 &&
    match decodeWord w with
    | .error .illegalStatement => false
    | _ => true

/-- The fault that an access statement raises at HOST's step because the platform makes a wide access of it that reaches
the window, with the statement's word (R54, R190). It comes after ILLEGAL_STATEMENT and before BAD_CMD (R197). -/
def platformFault : Agent → State → Option (FaultCode × Word)
  | .host, s =>
    match s.hstate, fetch s, s.wideAccesses with
    | .run, some w, some a :: _ => if isAccess w = true then (wideFault a w s).map fun c => (c, w) else none
    | _, _, _ => none
  | .eng, _ => none
  | .drain, _ => none
  | .ser, _ => none

/-- A HOST step in hstate RUN (R90): fetch, decode, execute, each of which may raise a fault. PC_RANGE records no fetched
word, since there is none: a free value. -/
def runStatement (s : State) : Host.Outcome State Fault Refusal :=
  match fetch s with
  | none => .next (raiseFault .pcRange (Config.pcRangeWord s.tick) s)
  | some w =>
    match decodeWord w with
    | .error c => .next (raiseFault c w s)
    | .ok i => exec i s

/-- A HOST step (R90): a statement in RUN, a micro-step in PUSH. HALTED and FATAL have none (R22). -/
def hostStep (s : State) : Host.Outcome State Fault Refusal :=
  match s.hstate with
  | .run => runStatement s
  | .push step b next => .next (pushStep step b next s)
  | .halted => .fault .stuck
  | .fatal => .fault .stuck

/-- One step of one agent (R12). -/
def agentStep (a : Agent) (s : State) : Host.Outcome State Fault Refusal :=
  match a with
  | .host => hostStep s
  | .eng => .next (engStep s)
  | .drain => .next (drainStep s)
  | .ser => .next (serStep s)

/-- A final state (R99). -/
def isFinal (s : State) : Bool :=
  s.fault.isNone && decide (s.hstate = .halted) && !s.busy && decide (s.phase = .idle) && (s.head == s.tail) &&
    !s.txie && s.txReady

/-- Why no agent has a step (R99, R191). DESIGN CHOICE (log entry 7): the fault record is a next state; the stop comes at the
step after it. -/
def stopReason (s : State) : Fault :=
  if s.fault.isSome = true then .faultRecorded
  else if isFinal s = true then .runEnded
  else .stuck

end Sys2Proof.Machine
end

