-- ==== Sys2Proof/Machine/Step.lean ====
section
/-! DEFINITION. One step of the block: one enabled agent takes one atomic step (spec R12). -/

namespace Sys2Proof.Machine

/-- One step (R12). An illegal TXQ_CAP is refused (R9). Where no agent has an enabled step the machine stops;
where only agents that need not be fair have one, the schedule may let none of them move. An access statement of which the
platform makes a wide access of the window raises BAD_ACCESS and has no other effect (R54). -/
def step (s : State) : Host.Outcome State Fault Refusal :=
  if s.params.capLegal = false then .refused .illegalCapacity
  else if stalls s = true then .next (consumeChoice s)
  else
    match nextAgent s with
    | none => .fault (stopReason s)
    | some a =>
      match platformFault a s with
      | some (c, w) => .next (raiseFault c w (consumeChoice s))
      | none => agentStep a (consumeChoice s)

/-- `s` with a word placed where the next HOST step fetches, and HOST's step the next one: PROG holds the word at pc, HOST
is in RUN, no fault is recorded, TXQ_CAP is legal, the schedule prefers HOST and the platform widens nothing. It stands for
the launch that loads PROG (log entry 1). -/
def State.withFetchWord (s : State) (nbits w : Nat) : State :=
  { s with
    prog := placeWord s.prog s.pc (BitVec.ofNat 32 (w % 2 ^ nbits))
    hstate := .run
    fault := none
    params := if s.params.capLegal = true then s.params else { s.params with txqCap := Params.reset.txqCap }
    schedule := some .host :: s.schedule.tail
    wideAccesses := none :: s.wideAccesses.tail }

end Sys2Proof.Machine
end

