-- ==== Sys2Proof/Machine/Pseudo.lean ====
section
/-! DEFINITION. The expansions of the pseudo-operations into host statements (spec R81, R124 to R127, R151, R152, R154,
R172, R173), and the bus events the device transactions put on the bus (R151, R152). -/

namespace Sys2Proof.Machine

/-- The poll of TWM_STATUS.BUSY at index `at_`: the busy-wait of every bus primitive. It uses `r7` (R81). -/
def pollBusy (at_ : Nat) : List Instr := [.twmRdstatus .r7, .bnz .r7 0x01#8 at_]

/-- `start` at index L (R124). -/
def expandStart (L : Nat) : List Instr := .twmStart :: pollBusy (L + 1)

/-- `stop` at index L (R125). -/
def expandStop (L : Nat) : List Instr := .twmStop :: pollBusy (L + 1)

/-- `writeByte b` at index L (R126). -/
def expandWriteByte (b : Byte) (L : Nat) : List Instr := [.twmWrdata b, .twmWrite] ++ pollBusy (L + 2)

/-- `readByte.ack rN` and `readByte.nack rN` at index L (R127). -/
def expandReadByte (ack : Bool) (rN : Reg) (L : Nat) : List Instr :=
  (if ack = true then Instr.twmReadAck else .twmReadNack) :: pollBusy (L + 1) ++ [.twmRddata rN]

/-- AW, the address byte for writing: `{DEV_ADDR, 0}` (R53, R150). -/
def addressWrite (p : Params) : Byte := p.devAddr ++ 0#1

/-- AR, the address byte for reading: `{DEV_ADDR, 1}` (R53, R150). -/
def addressRead (p : Params) : Byte := p.devAddr ++ 1#1

/-- The pointer values of the ADC slave's registers (R150). -/
def ptrConversion : Byte := 0x00#8
/-- CONFIG (R150). -/
def ptrConfig : Byte := 0x01#8
/-- LO_THRESH (R150). -/
def ptrLoThresh : Byte := 0x02#8
/-- HI_THRESH (R150). -/
def ptrHiThresh : Byte := 0x03#8
/-- The ADC slave's CONFIG register at power-on (R150). -/
def configPowerOn : BitVec 16 := 0x8583#16

/-- The byte of a 16-bit value that goes first on the wire (R51). -/
def hiByte (v : BitVec 16) : Byte := v.extractLsb' 8 8

/-- The byte of a 16-bit value that goes second on the wire (R51). -/
def loByte (v : BitVec 16) : Byte := v.extractLsb' 0 8

/-- `writeRegister reg, v` at index L (R151): 22 statements. -/
def expandWriteRegister (p : Params) (reg : Byte) (v : BitVec 16) (L : Nat) : List Instr :=
  expandStart L ++ expandWriteByte (addressWrite p) (L + 3) ++ expandWriteByte reg (L + 7) ++
    expandWriteByte (hiByte v) (L + 11) ++ expandWriteByte (loByte v) (L + 15) ++ expandStop (L + 19)

/-- `readRegister reg, rH, rL` at index L (R152): 29 statements. -/
def expandReadRegister (p : Params) (reg : Byte) (rH rL : Reg) (L : Nat) : List Instr :=
  expandStart L ++ expandWriteByte (addressWrite p) (L + 3) ++ expandWriteByte reg (L + 7) ++
    expandStart (L + 11) ++ expandWriteByte (addressRead p) (L + 14) ++ expandReadByte true rH (L + 18) ++
    expandReadByte false rL (L + 22) ++ expandStop (L + 26)

/-- `deviceInit cfg` at index L (R154): 55 statements. -/
def expandDeviceInit (p : Params) (cfg : BitVec 16) (L : Nat) : List Instr :=
  expandWriteRegister p ptrConfig cfg L ++ expandReadRegister p ptrConfig .r0 .r1 (L + 22) ++
    [.bne .r0 (hiByte cfg) (L + 54), .bne .r1 (loByte cfg) (L + 54), .bz .r0 0x00#8 (L + 55), .fatal]

/-- `putString` and `putFlashString` (R173): one push for each byte before the terminator, which is 0x00 (log entry 12).
The end of the given bytes ends the string too. -/
def expandPutString (s : List Byte) : List Instr := (s.takeWhile (fun b => b != 0x00#8)).map Instr.txqPush

/-- The host statements of a pseudo-operation at index L (R81). -/
def expand (p : Params) (op : Pseudo) (L : Nat) : List Instr :=
  match op with
  | .start => expandStart L
  | .stop => expandStop L
  | .writeByte b => expandWriteByte b L
  | .readByte ack rN => expandReadByte ack rN L
  | .writeRegister reg v => expandWriteRegister p reg v L
  | .readRegister reg rH rL => expandReadRegister p reg rH rL L
  | .deviceInit cfg => expandDeviceInit p cfg L
  | .putByte b => [.txqPush b]
  | .putString s => expandPutString s
  | .putFlashString s => expandPutString s

/-! ## The device transactions on the bus -/

/-- The events `writeRegister reg, v` appends to `bus`, with the slave's answers a1 to a4 (R151). -/
def writeRegisterEvents (p : Params) (reg : Byte) (v : BitVec 16) (a1 a2 a3 a4 : Bool) : List BusEvent :=
  [.start, .wr (addressWrite p) a1, .wr reg a2, .wr (hiByte v) a3, .wr (loByte v) a4, .stop]

/-- The events `readRegister reg, rH, rL` appends to `bus`, with the slave's answers a1 to a3 and its bytes h and l
(R152). -/
def readRegisterEvents (p : Params) (reg : Byte) (h l : Byte) (a1 a2 a3 : Bool) : List BusEvent :=
  [.start, .wr (addressWrite p) a1, .wr reg a2, .repStart, .wr (addressRead p) a3, .rd h true, .rd l false, .stop]

end Sys2Proof.Machine
end

