-- ==== Sys2Proof/Machine/Assembler.lean ====
section
/-! DEFINITION. The assembler of spec R80: one statement a line, labels, comments, C-style literals, the statements of
R76, the generic access forms `wr` and `rd`, and the pseudo-operations of R81. It answers PROG's words, or refuses. -/

namespace Sys2Proof.Machine

/-! ## Lines into tokens -/

/-- What a line is made of. -/
inductive AsmToken where
  /-- A mnemonic, a register, a label or a number. -/
  | word (cs : List Char)
  /-- A character literal. -/
  | chr (c : Char)
  /-- The characters of a string literal. -/
  | str (cs : List Char)
  | comma
  | colon
  deriving DecidableEq, Repr

/-- Where the reader of a line stands. -/
inductive LexMode where
  | plain (acc : List Char)
  /-- After an opening quote. -/
  | quoted
  /-- After the quoted character. -/
  | closing (c : Char)
  | str (acc : List Char)
  | comment
  | bad
  deriving DecidableEq, Repr

/-- The tokens so far (latest first) with the word just read. -/
def flushWord (acc : List Char) (out : List AsmToken) : List AsmToken :=
  if acc = [] then out else .word acc :: out

/-- One character of a line. DESIGN CHOICE (log entry 13): a character or string literal has no escape sequences, so a
backslash, or a quote between quotes, stands for its own code and `'\n'` is refused. -/
def lexChar : LexMode × List AsmToken → Char → LexMode × List AsmToken
  | (.plain acc, out), c =>
    if c = ';' then (.comment, flushWord acc out)
    else if c = ' ' ∨ c = '\t' then (.plain [], flushWord acc out)
    else if c = ',' then (.plain [], .comma :: flushWord acc out)
    else if c = ':' then (.plain [], .colon :: flushWord acc out)
    else if c = '\'' then (if acc = [] then .quoted else .bad, out)
    else if c = '"' then (if acc = [] then .str [] else .bad, out)
    else (.plain (acc ++ [c]), out)
  | (.quoted, out), c => (.closing c, out)
  | (.closing ch, out), c => if c = '\'' then (.plain [], .chr ch :: out) else (.bad, out)
  | (.str acc, out), c => if c = '"' then (.plain [], .str acc :: out) else (.str (acc ++ [c]), out)
  | (.comment, out), _ => (.comment, out)
  | (.bad, out), _ => (.bad, out)

/-- The tokens of a line; none if a literal is left open. -/
def tokens (line : List Char) : Option (List AsmToken) :=
  match line.foldl lexChar (.plain [], []) with
  | (.plain acc, out) => some (flushWord acc out).reverse
  | (.comment, out) => some out.reverse
  | _ => none

/-! ## Operands -/

/-- The value of a digit in a base. -/
def digitOf (base : Nat) (c : Char) : Option Nat :=
  let v :=
    if '0' ≤ c ∧ c ≤ '9' then c.toNat - '0'.toNat
    else if 'a' ≤ c ∧ c ≤ 'f' then c.toNat - 'a'.toNat + 10
    else if 'A' ≤ c ∧ c ≤ 'F' then c.toNat - 'A'.toNat + 10
    else base
  if v < base then some v else none

/-- A number of one digit or more in a base. -/
def digits (base : Nat) (cs : List Char) : Option Nat :=
  if cs = [] then none
  else cs.foldl (fun acc c => acc.bind fun n => (digitOf base c).map fun d => n * base + d) (some 0)

/-- A C-style literal (R80): hexadecimal after 0x, octal after a leading 0, decimal, or a character. DESIGN CHOICE (log entry
13): the octal form, and that no integer suffix and no binary form is read (`65u` and `0b101` are refused). -/
def literal : AsmToken → Option Nat
  | .chr c => some c.toNat
  | .word ('0' :: 'x' :: cs) => digits 16 cs
  | .word ('0' :: 'X' :: cs) => digits 16 cs
  | .word ('0' :: c :: cs) => digits 8 (c :: cs)
  | .word cs => digits 10 cs
  | _ => none

/-- A literal that fits `n` bits; the assembler refuses one that does not (R80). -/
def fits (n : Nat) (t : AsmToken) : Option (BitVec n) :=
  (literal t).bind fun v => if v < 2 ^ n then some (BitVec.ofNat n v) else none

/-- Registers are written r0 to r7 (R80). -/
def asmReg : AsmToken → Option Reg
  | .word ['r', '0'] => some .r0
  | .word ['r', '1'] => some .r1
  | .word ['r', '2'] => some .r2
  | .word ['r', '3'] => some .r3
  | .word ['r', '4'] => some .r4
  | .word ['r', '5'] => some .r5
  | .word ['r', '6'] => some .r6
  | .word ['r', '7'] => some .r7
  | _ => none

/-- An identifier: a letter or underscore, then letters, digits and underscores. -/
def isIdentifier : List Char → Bool
  | [] => false
  | c :: cs => (c.isAlpha || c == '_') && cs.all (fun d => d.isAlphanum || d == '_')

/-- The bytes of a string literal, each of which must fit 8 bits. -/
def stringBytes (cs : List Char) : Option (List Byte) :=
  cs.mapM fun c => if c.toNat < 256 then some (BitVec.ofNat 8 c.toNat) else none

/-! ## Statements -/

/-- Which branch (R93 to R95). -/
inductive BranchOp where
  | bnz | bz | bne
  deriving DecidableEq, Repr

/-- The branch statement of an operation. -/
def branchInstr : BranchOp → Reg → Byte → Nat → Instr
  | .bnz => .bnz
  | .bz => .bz
  | .bne => .bne

/-- What a line may hold. -/
inductive AsmStmt where
  | core (i : Instr)
  /-- A branch to a label. -/
  | branchTo (op : BranchOp) (rs : Reg) (imm : Byte) (label : List Char)
  /-- `wr OFF, VAL`: format A with W = 1 (R80). It may spell a faulting access. -/
  | wr (off : BitVec 7) (val : Byte)
  /-- `rd rN, OFF`: format A with W = 0 (R80). It may spell a faulting access. -/
  | rd (rN : Reg) (off : BitVec 7)
  | pseudo (op : Pseudo)
  deriving DecidableEq, Repr

/-- A line: a label, a statement, both or neither. -/
structure AsmLine where
  label : Option (List Char)
  stmt : Option AsmStmt
  deriving DecidableEq, Repr

/-- Statements without operands. -/
def parse0 (m : List Char) : Option AsmStmt :=
  if m = "twm.nop".toList then some (.core .twmNop)
  else if m = "twm.start".toList then some (.core .twmStart)
  else if m = "twm.stop".toList then some (.core .twmStop)
  else if m = "twm.write".toList then some (.core .twmWrite)
  else if m = "twm.read.nack".toList then some (.core .twmReadNack)
  else if m = "twm.read.ack".toList then some (.core .twmReadAck)
  else if m = "halt".toList then some (.core .halt)
  else if m = "fatal".toList then some (.core .fatal)
  else if m = "start".toList then some (.pseudo .start)
  else if m = "stop".toList then some (.pseudo .stop)
  else none

/-- Statements with one operand. -/
def parse1 (m : List Char) (a : AsmToken) : Option AsmStmt :=
  if m = "twm.wrdata".toList then (fits 8 a).map fun v => .core (.twmWrdata v)
  else if m = "twm.rdstatus".toList then (asmReg a).map fun r => .core (.twmRdstatus r)
  else if m = "twm.rddata".toList then (asmReg a).map fun r => .core (.twmRddata r)
  else if m = "txq.push".toList then (fits 8 a).map fun v => .core (.txqPush v)
  else if m = "txq.rdstatus".toList then (asmReg a).map fun r => .core (.txqRdstatus r)
  else if m = "txq.rdhead".toList then (asmReg a).map fun r => .core (.txqRdhead r)
  else if m = "txq.rdtail".toList then (asmReg a).map fun r => .core (.txqRdtail r)
  else if m = "writeByte".toList then (fits 8 a).map fun v => .pseudo (.writeByte v)
  else if m = "readByte.ack".toList then (asmReg a).map fun r => .pseudo (.readByte true r)
  else if m = "readByte.nack".toList then (asmReg a).map fun r => .pseudo (.readByte false r)
  else if m = "deviceInit".toList then (fits 16 a).map fun v => .pseudo (.deviceInit v)
  else if m = "putByte".toList then (fits 8 a).map fun v => .pseudo (.putByte v)
  else if m = "putString".toList then
    match a with
    | .str cs => (stringBytes cs).map fun s => .pseudo (.putString s)
    | _ => none
  else if m = "putFlashString".toList then
    match a with
    | .str cs => (stringBytes cs).map fun s => .pseudo (.putFlashString s)
    | _ => none
  else none

/-- Statements with two operands. -/
def parse2 (m : List Char) (a b : AsmToken) : Option AsmStmt :=
  if m = "wr".toList then (fits 7 a).bind fun off => (fits 8 b).map fun v => .wr off v
  else if m = "rd".toList then (asmReg a).bind fun r => (fits 7 b).map fun off => .rd r off
  else if m = "writeRegister".toList then
    (fits 8 a).bind fun reg => (fits 16 b).map fun v => .pseudo (.writeRegister reg v)
  else none

/-- A branch to a numeric target or to a label. -/
def parseBranch (op : BranchOp) (a b c : AsmToken) : Option AsmStmt :=
  (asmReg a).bind fun rs => (fits 8 b).bind fun imm =>
    match fits 16 c, c with
    | some t, _ => some (.core (branchInstr op rs imm t.toNat))
    | none, .word cs => if isIdentifier cs = true then some (.branchTo op rs imm cs) else none
    | none, _ => none

/-- Statements with three operands. -/
def parse3 (m : List Char) (a b c : AsmToken) : Option AsmStmt :=
  if m = "bnz".toList then parseBranch .bnz a b c
  else if m = "bz".toList then parseBranch .bz a b c
  else if m = "bne".toList then parseBranch .bne a b c
  else if m = "readRegister".toList then
    (fits 8 a).bind fun reg => (asmReg b).bind fun rH => (asmReg c).map fun rL => .pseudo (.readRegister reg rH rL)
  else none

/-- A statement from its tokens. -/
def parseStmt : List AsmToken → Option (Option AsmStmt)
  | [] => some none
  | [.word m] => (parse0 m).map some
  | [.word m, a] => (parse1 m a).map some
  | [.word m, a, .comma, b] => (parse2 m a b).map some
  | [.word m, a, .comma, b, .comma, c] => (parse3 m a b c).map some
  | _ => none

/-- A line (R80): an optional label, an optional statement. DESIGN CHOICE (log entry 13): at most one label stands on a line,
so `a: b: halt` is refused; a line may hold a label alone, so the two may stand on lines of their own. -/
def parseLine (line : List Char) : Option AsmLine :=
  match tokens line with
  | some (.word l :: .colon :: rest) =>
    if isIdentifier l = true then (parseStmt rest).map fun st => { label := some l, stmt := st } else none
  | some toks => (parseStmt toks).map fun st => { label := none, stmt := st }
  | none => none

/-! ## Assembly -/

/-- How many statement words a line takes. -/
def lineLength (p : Params) (l : AsmLine) : Nat :=
  match l.stmt with
  | none => 0
  | some (.pseudo op) => (expand p op 0).length
  | some _ => 1

/-- The labels with the index of the next statement (R80). A label defined twice is refused (log entry 13). -/
def labelTable (p : Params) : List AsmLine → Nat → Option (List (List Char × Nat))
  | [], _ => some []
  | l :: rest, at_ =>
    (labelTable p rest (at_ + lineLength p l)).bind fun table =>
      match l.label with
      | none => some table
      | some name => if table.any (fun e => e.1 == name) then none else some ((name, at_) :: table)

/-- Words of statements, all of which must be well-formed. -/
def encodeAll (is : List Instr) : Option (List Word) :=
  if is.all Instr.wellFormed = true then some (is.map encode) else none

/-- The words of a line at an index. -/
def assembleStmt (p : Params) (labels : List (List Char × Nat)) (at_ : Nat) : AsmStmt → Option (List Word)
  | .core i => encodeAll [i]
  | .branchTo op rs imm name => (labels.lookup name).bind fun t => encodeAll [branchInstr op rs imm t]
  | .wr off val => some [encodeWrite off val]
  | .rd rN off => some [encodeRead rN off]
  | .pseudo op => if op.wellFormed = true then encodeAll (expand p op at_) else none

/-- The words of the lines from an index on. -/
def assembleFrom (p : Params) (labels : List (List Char × Nat)) : List AsmLine → Nat → Option (List Word)
  | [], _ => some []
  | l :: rest, at_ =>
    (match l.stmt with
      | none => some []
      | some st => assembleStmt p labels at_ st).bind fun ws =>
    (assembleFrom p labels rest (at_ + lineLength p l)).map fun more => ws ++ more

/-- PROG from its source lines (R80). -/
def assemble (p : Params) (lines : List (List Char)) : Option (List Word) :=
  (lines.mapM parseLine).bind fun ls => (labelTable p ls 0).bind fun labels => assembleFrom p labels ls 0

end Sys2Proof.Machine
end

