-- ==== Sys2Proof/Machine/RefSlave.lean ====
section
/-! DEFINITION. The reference slave of spec 95_test_vectors.md §2: a fixture, a premise of the claims that name it and no
rule of the block (R130). It is one SLAVE oracle: a function of the bus trace. -/

namespace Sys2Proof.Machine

/-- Where the reference slave stands in a transaction. -/
inductive SlavePos where
  | idle | awaitAddr | awaitPtr | dataHi | dataLo | done | readHi | readLo | readDone | ignore
  deriving DecidableEq, Repr

/-- The reference slave: four 16-bit registers, a pointer, the high-byte latch and its position. -/
structure RefSlave where
  reg0 : BitVec 16
  reg1 : BitVec 16
  reg2 : BitVec 16
  reg3 : BitVec 16
  ptr : BitVec 2
  hi : Byte
  pos : SlavePos
  deriving DecidableEq, Repr

/-- The initial registers of §2. DESIGN CHOICE (log entry 15): §2 gives no first value of `ptr`, `hi` and the state. -/
def RefSlave.initial : RefSlave :=
  { reg0 := 0x0000#16, reg1 := configPowerOn, reg2 := 0x0000#16, reg3 := 0x0000#16, ptr := 0#2, hi := 0#8,
    pos := .idle }

/-- The register a pointer selects. -/
def RefSlave.reg (σ : RefSlave) (ptr : BitVec 2) : BitVec 16 :=
  if ptr = 0#2 then σ.reg0 else if ptr = 1#2 then σ.reg1 else if ptr = 2#2 then σ.reg2 else σ.reg3

/-- Store into the register a pointer selects. -/
def RefSlave.setReg (σ : RefSlave) (ptr : BitVec 2) (v : BitVec 16) : RefSlave :=
  if ptr = 0#2 then { σ with reg0 := v }
  else if ptr = 1#2 then { σ with reg1 := v }
  else if ptr = 2#2 then { σ with reg2 := v }
  else { σ with reg3 := v }

/-- What the status-bit slave returns for a register: `reg[1] | 0x8000` when ptr = 1. The plain slave returns the
register. -/
def RefSlave.shown (statusBit : Bool) (σ : RefSlave) : BitVec 16 :=
  if statusBit = true ∧ σ.ptr = 1#2 then σ.reg1 ||| 0x8000#16 else σ.reg σ.ptr

/-- The effect of a bus event on the slave. -/
def RefSlave.onEvent (dev : BitVec 7) (σ : RefSlave) : BusEvent → RefSlave
  | .start => { σ with pos := .awaitAddr }
  | .repStart => { σ with pos := .awaitAddr }
  | .stop => { σ with pos := .idle }
  | .wr b _ =>
    match σ.pos with
    | .awaitAddr =>
      if b.extractLsb' 1 7 = dev then { σ with pos := if b.getLsbD 0 = false then .awaitPtr else .readHi }
      else { σ with pos := .ignore }
    | .awaitPtr => { σ with ptr := b.extractLsb' 0 2, pos := .dataHi }
    | .dataHi => { σ with hi := b, pos := .dataLo }
    | .dataLo => { σ.setReg σ.ptr (σ.hi ++ b) with pos := .done }
    | .done | .ignore | .readHi | .readLo | .readDone | .idle => σ
  | .rd _ _ =>
    match σ.pos with
    | .readHi => { σ with pos := .readLo }
    | .readLo => { σ with pos := .readDone }
    | .ignore | .readDone | .awaitAddr | .awaitPtr | .dataHi | .dataLo | .done | .idle => σ

/-- The slave's acknowledge of a written byte. -/
def RefSlave.ackFor (dev : BitVec 7) (σ : RefSlave) (b : Byte) : Bool :=
  match σ.pos with
  | .awaitAddr => b.extractLsb' 1 7 == dev
  | .awaitPtr | .dataHi | .dataLo => true
  | .done | .ignore | .readHi | .readLo | .readDone | .idle => false

/-- The byte the slave returns on a READ; 0xFF from a released bus. -/
def RefSlave.byteFor (statusBit : Bool) (σ : RefSlave) : Byte :=
  match σ.pos with
  | .readHi => hiByte (σ.shown statusBit)
  | .readLo => loByte (σ.shown statusBit)
  | .ignore | .readDone | .awaitAddr | .awaitPtr | .dataHi | .dataLo | .done | .idle => 0xFF#8

/-- The slave after a bus trace. -/
def RefSlave.after (dev : BitVec 7) (σ : RefSlave) (trace : List BusEvent) : RefSlave :=
  trace.foldl (RefSlave.onEvent dev) σ

/-- `SlaveAck(trace, b)` of the reference slave (R130). -/
def refSlaveAck (dev : BitVec 7) (σ : RefSlave) (trace : List BusEvent) (b : Byte) : Bool :=
  (σ.after dev trace).ackFor dev b

/-- `SlaveByte(trace)` of the reference slave, or of the status-bit slave (R130). -/
def refSlaveByte (dev : BitVec 7) (statusBit : Bool) (σ : RefSlave) (trace : List BusEvent) : Byte :=
  (σ.after dev trace).byteFor statusBit

end Sys2Proof.Machine
end

