-- ==== Sys2Proof/Machine/Cdc.lean ====
section
/-! DEFINITION. Gray-coded index copies and the two-clock conditions (spec 43_tx_queue.md §6, R179 and R180). No step
uses them: the architectural indices are binary (90_conflicts.md C1), and the synchronizers are not state (R42). They
say when a two-clock TXQ keeps to the one-clock model. -/

namespace Sys2Proof.Machine

/-- `gray(i) = i ^ (i >> 1)` (R179). -/
def gray (i : Index) : Index := i ^^^ (i >>> 1)

/-- Bit `j` of `bin(g)`, with `above` bits of the index above it: `bin(g)[K-1] = g[K-1]` and
`bin(g)[j] = bin(g)[j+1] ^ g[j]` (R179). -/
def binBit (g : Index) (j : Nat) : Nat → Bool
  | 0 => g.getLsbD j
  | above + 1 => Bool.xor (binBit g (j + 1) above) (g.getLsbD j)

/-- `bin(g)` of a K-bit Gray code (R179). -/
def bin (k : Nat) (g : Index) : Index :=
  (List.range k).foldl
    (fun acc j => if binBit g j (k - 1 - j) = true then acc ||| (1#8 <<< j) else acc) 0#8

/-- A word sampled while a Gray copy changes from `gray(old)` to `gray(new)`: each of its bits is the bit before or the
bit after the change (R180). -/
def sampledDuring (old new x : Index) : Bool := (x ^^^ gray old) &&& (x ^^^ gray new) == 0#8

/-- `seen` is a tail older than the current one (R180 a). DEDUCED (log entry 16): the FIFO counted from it still fits its
usable capacity, since a push went on only where it did. -/
def olderTail (seen : Index) (s : State) : Bool :=
  seen &&& mask s.params == seen &&
    decide (((s.tail - seen) &&& mask s.params).toNat + fifoCount s ≤ (mask s.params).toNat)

/-- `seen` is a head that a P4 has published and DRAIN has not passed: it lies from `tail` on, up to `head` (R180). DEDUCED (log
entry 16). -/
def publishedHead (seen : Index) (s : State) : Bool :=
  seen &&& mask s.params == seen && decide (((seen - s.tail) &&& mask s.params).toNat ≤ fifoCount s)

/-- The slots that a head copy `seen` covers, oldest first: `(tail + j) & MASK`, up to `seen` itself. -/
def coveredSlots (seen : Index) (s : State) : List Index :=
  (List.range ((seen - s.tail) &&& mask s.params).toNat).map
    fun j => (s.tail + BitVec.ofNat 8 (j + 1)) &&& mask s.params

/-- R180 (d): every slot that the head copy `seen` covers is stable in the drain domain, which reads the storage as `slots`:
it reads there what P3 stored. A slot that no arrived copy covers may read as anything. DEDUCED (log entry 16). -/
def slotsStable (seen : Index) (slots : Memory) (s : State) : Bool :=
  (coveredSlots seen s).all fun i => slots.read i.toNat == s.buf.read i.toNat

/-- The DRAIN step of a drain domain that sees the head copy `seen` and reads the storage as `slots` (R169, R180). DEDUCED
(log entry 16). -/
def drainSeeing (seen : Index) (slots : Memory) (s : State) : State :=
  if seen ≠ s.tail then
    let t := nextIndex s.params s.tail
    { send (slotByte t { s with buf := slots }) s with tail := t, txReady := false }
  else { s with txie := false }

/-- R180 (b): once a P5 has set the enable, the head its P4 published is seen. Only while the host is still at P5 may the
copy be the head before that P4. DEDUCED (log entry 16). -/
def headCopyFresh (seen : Index) (s : State) : Bool :=
  seen == s.head ||
    match s.hstate with
    | .push .p5 _ _ => nextIndex s.params seen == s.head
    | _ => false

/-- R180 (c): a P5 set that races with a case-B clear leaves `txie = 1`. DEDUCED (log entry 16): a set wins over a clear. -/
def txieAfterRace (set clear txie : Bool) : Bool := set || (txie && !clear)

/-- P5 and the step of a drain domain that sees the head copy `seen` and the storage `slots`, at the same moment (R180 c):
what each of the two writes, and the enable as the race leaves it. `set` is whether P5's set takes part. DEDUCED (log entry
16). -/
def raced (set : Bool) (seen : Index) (slots : Memory) (b : Byte) (next : Index) (s : State) : State :=
  { drainSeeing seen slots (pushStep .p5 b next s) with txie := txieAfterRace set (seen == s.tail) s.txie }

end Sys2Proof.Machine
end

