-- ==== Sys2Proof/Safety.lean ====
section
/-! DEFINITION. What counts as a safe state and a safe run, in the terms claims use: the invariants the spec states of every
state reachable from a clean launch (R24, R27, R40, R118, R174, 90_conflicts.md C11), the bus trace grammar, what the FIFO
has delivered, and runs under the fairness of R98. -/

namespace Sys2Proof.Machine

/-! ## The bus trace -/

/-- The phase after a bus event, where R118 and R120 to R123 let it happen; `none` where they do not. -/
def phaseAfter : Phase → BusEvent → Option Phase
  | .idle, .start => some .addr
  | .tx, .repStart => some .addr
  | .rxend, .repStart => some .addr
  | .tx, .stop => some .idle
  | .rxend, .stop => some .idle
  | .addr, .wr b _ => some (if b.getLsbD 0 = false then .tx else .rx)
  | .tx, .wr _ _ => some .tx
  | .rx, .rd _ a => some (if a = true then .rx else .rxend)
  | _, _ => none

/-- The phase a trace that begins in IDLE ends in; `none` if some event of it is out of place. -/
def tracePhase (trace : List BusEvent) : Option Phase :=
  trace.foldl (fun p e => p.bind fun q => phaseAfter q e) (some .idle)

/-- How many transactions a trace opens: its `Start` events. A repeated start opens none (90_conflicts.md C2). -/
def startCount (trace : List BusEvent) : Nat := trace.countP (· == .start)

/-- How many `Stop` events a trace has. -/
def stopCount (trace : List BusEvent) : Nat := trace.countP (· == .stop)

/-! ## Invariants -/

/-- TWM: R24 (a command is in flight exactly while busy), the phase is the one the trace leads to (R27, R30), the command
in flight is legal in the phase (R118), and a WRITE in flight sends `data` (R24, R116). -/
structure TwmInv (s : State) : Prop where
  busy_iff_pend : s.busy = s.pend.isSome
  trace_phase : tracePhase s.bus = some s.phase
  pend_legal : ∀ c, s.pend = some c → commandLegal s.phase (commandOf c) = true
  write_latched : ∀ b, s.pend = some (.write b) → s.data = some b

/-- The slot of the `j`-th oldest undrained byte: `(tail + j) & MASK` (R174, I4). -/
def slotAt (s : State) (j : Nat) : Index := (s.tail + BitVec.ofNat 8 j) &&& mask s.params

/-- The stored, undrained bytes, oldest first (R174, I4). -/
def queued (s : State) : List (Option Byte) :=
  (List.range (fifoCount s)).map (fun j => s.buf.read (slotAt s (j + 1)).toNat)

/-- Everything the FIFO has accepted and not lost: the bytes sent, then the bytes stored. -/
def accepted (s : State) : List (Option Byte) := s.serial.map some ++ queued s

/-- The host is at micro-step P5 of a push. -/
def atP5 (s : State) : Bool :=
  match s.hstate with
  | .push .p5 _ _ => true
  | _ => false

/-- R174 (I6), for the micro-steps it speaks of (log entry 10): `next` is `(head + 1) & MASK` from P2 to P4 and differs
from `tail` at P3 and P4; at P4 its slot holds the byte; at P5 it is `head`. -/
def pushInv (s : State) : Prop :=
  match s.hstate with
  | .push .p2 _ next => next = nextIndex s.params s.head
  | .push .p3 _ next => next = nextIndex s.params s.head ∧ next ≠ s.tail
  | .push .p4 b next =>
    next = nextIndex s.params s.head ∧ next ≠ s.tail ∧ s.buf.read next.toNat = some b
  | .push .p5 _ next => next = s.head
  | _ => True

/-- TXQ: indices within MASK, storage in canonical form within TXQ_CAP, R174's I4 (every stored slot is written), I5 and
I6, and C11 of 90_conflicts.md (TXIE and TXRDY are never both 0). -/
structure TxqInv (s : State) : Prop where
  head_masked : s.head &&& mask s.params = s.head
  tail_masked : s.tail &&& mask s.params = s.tail
  buf_wf : s.buf.wf
  buf_inside : ∀ c ∈ s.buf, c.1 < s.params.txqCap
  stored_written : ∀ j, 1 ≤ j → j ≤ fifoCount s → (s.buf.read (slotAt s j).toNat).isSome = true
  enabled_or_p5 : s.head ≠ s.tail → s.txie = true ∨ atP5 s = true
  enable_or_ready : s.txie = true ∨ s.txReady = true
  push : pushInv s

/-- HOST: a stalled push is the `txq.push` at pc (R21, R163), HALTED is reached only with no command in flight and no
transaction open (R96), and a recorded fault names the pc it stopped at and that statement's word (R40, R191). -/
structure HostInv (s : State) : Prop where
  push_statement : ∀ st b n, s.hstate = .push st b n → fetch s = some (encode (.txqPush b))
  halted_closed : s.hstate = .halted → s.busy = false ∧ s.phase = .idle
  fault_precise : ∀ r, s.fault = some r →
    r.pc = s.pc ∧ s.hstate = .run ∧ (fetch s = some r.word ∨ (fetch s = none ∧ r.code = .pcRange))

/-- The invariant of every state reachable from a clean launch with a legal TXQ_CAP. -/
structure Inv (s : State) : Prop where
  capacity : s.params.capLegal = true
  twm : TwmInv s
  txq : TxqInv s
  host : HostInv s

/-! ## The end of a run (R99) -/

/-- No agent has an enabled step and the state is not final (R99). -/
def isStuck (s : State) : Bool := (enabledAgents s).isEmpty && !isFinal s

/-! ## Runs and fairness (R98) -/

/-- An infinite sequence of states each of which is the step of the one before, a stopped machine staying where it is. -/
def IsRun (r : Nat → State) : Prop :=
  ∀ n, step (r n) = .next (r (n + 1)) ∨ (∃ f, step (r n) = .fault f ∧ r (n + 1) = r n)

/-- The agent takes the step from `r n`. -/
def moves (a : Agent) (s : State) : Prop := stalls s = false ∧ nextAgent s = some a

/-- Weak fairness of an agent (R98): if it has an enabled step from some point on for ever, it takes one. -/
def FairFor (a : Agent) (r : Nat → State) : Prop :=
  ∀ n, (∀ m, n ≤ m → enabled a (r m) = true) → ∃ m, n ≤ m ∧ moves a (r m)

/-- A run under the fairness of R98: HOST and DRAIN are weakly fair, ENG when BUS_LIVE, SER when TX_LIVE. -/
def FairRun (r : Nat → State) : Prop :=
  IsRun r ∧ ∀ a, weaklyFair (r 0).params a = true → FairFor a r

end Sys2Proof.Machine
end

