-- ==== Sys2Proof/Certificates/Slice0/Obligations.lean ====
section
/-! DEFINITION. The statements for the provers: the numbered rules of the spec that say what a statement, an agent or the
whole machine does. A statement's fault clauses take `s.fault = none`, the spec's own condition for a HOST step (R90). -/

open Sys2Proof Sys2Proof.Machine

/-! ## The TWM statements (41_bus_transport.md §1, §2) -/

/-- R110: `twm.rdstatus` reads `{0b000, code(phase), ackr, busy}` in every phase and while busy, and changes nothing else. -/
def Obligations.TwmRdstatusReadsStatus : Prop :=
  ∀ (rd : Reg) (s : State),
    decodeWord (0x00000100#32 ||| (regCode rd).setWidth 32 <<< 16) = .ok (.twmRdstatus rd) ∧
    exec (.twmRdstatus rd) s =
      .next { s with
        regs := s.regs.set rd
          (0b000#3 ++ (match s.phase with
            | .idle => 0b000#3
            | .addr => 0b001#3
            | .tx => 0b010#3
            | .rx => 0b011#3
            | .rxend => 0b100#3) ++ BitVec.ofBool s.ackr ++ BitVec.ofBool s.busy)
        pc := s.pc + 1 }

/-- R111: `twm.wrdata` sets TWM_DATA unless a command is in flight. -/
def Obligations.TwmWrdataSetsData : Prop :=
  ∀ (v : Byte) (s : State), s.fault = none →
    decodeWord (0x00008200#32 ||| v.setWidth 32) = .ok (.twmWrdata v) ∧
    (s.busy = false → exec (.twmWrdata v) s = .next { s with data := some v, pc := s.pc + 1 }) ∧
    (s.busy = true → exec (.twmWrdata v) s =
      .next { s with fault := some ⟨.dataWhileBusy, s.pc, 0x00008200#32 ||| v.setWidth 32⟩ })

/-- R112: `twm.rddata` reads TWM_DATA; it faults while a command is in flight, and then while TWM_DATA is unwritten. -/
def Obligations.TwmRddataReadsData : Prop :=
  ∀ (rd : Reg) (s : State), s.fault = none →
    decodeWord (0x00000200#32 ||| (regCode rd).setWidth 32 <<< 16) = .ok (.twmRddata rd) ∧
    (∀ b, s.busy = false → s.data = some b →
      exec (.twmRddata rd) s = .next { s with regs := s.regs.set rd b, pc := s.pc + 1 }) ∧
    (s.busy = true → exec (.twmRddata rd) s =
      .next { s with fault := some ⟨.dataWhileBusy, s.pc, 0x00000200#32 ||| (regCode rd).setWidth 32 <<< 16⟩ }) ∧
    (s.busy = false → s.data = none → exec (.twmRddata rd) s =
      .next { s with fault := some ⟨.dataUnwritten, s.pc, 0x00000200#32 ||| (regCode rd).setWidth 32 <<< 16⟩ })

/-- R113: `twm.nop` only moves on, in every phase; it faults while a command is in flight. -/
def Obligations.TwmNopOnlyMovesOn : Prop :=
  ∀ s : State, s.fault = none →
    decodeWord 0x00008000#32 = .ok .twmNop ∧
    (s.busy = false → exec .twmNop s = .next { s with pc := s.pc + 1 }) ∧
    (s.busy = true → exec .twmNop s = .next { s with fault := some ⟨.cmdWhileBusy, s.pc, 0x00008000#32⟩ })

/-- R114: `twm.start` issues START from IDLE, TX and RXEND. -/
def Obligations.TwmStartIssuesStart : Prop :=
  ∀ s : State, s.fault = none →
    decodeWord 0x00008001#32 = .ok .twmStart ∧
    (s.busy = false → s.phase = .idle ∨ s.phase = .tx ∨ s.phase = .rxend →
      exec .twmStart s = .next { s with busy := true, pend := some .start, pc := s.pc + 1 }) ∧
    (s.busy = true → exec .twmStart s = .next { s with fault := some ⟨.cmdWhileBusy, s.pc, 0x00008001#32⟩ }) ∧
    (s.busy = false → s.phase = .addr ∨ s.phase = .rx →
      exec .twmStart s = .next { s with fault := some ⟨.protocol, s.pc, 0x00008001#32⟩ })

/-- R115: `twm.stop` issues STOP from TX and RXEND. -/
def Obligations.TwmStopIssuesStop : Prop :=
  ∀ s : State, s.fault = none →
    decodeWord 0x00008002#32 = .ok .twmStop ∧
    (s.busy = false → s.phase = .tx ∨ s.phase = .rxend →
      exec .twmStop s = .next { s with busy := true, pend := some .stop, pc := s.pc + 1 }) ∧
    (s.busy = true → exec .twmStop s = .next { s with fault := some ⟨.cmdWhileBusy, s.pc, 0x00008002#32⟩ }) ∧
    (s.busy = false → s.phase = .idle ∨ s.phase = .addr ∨ s.phase = .rx →
      exec .twmStop s = .next { s with fault := some ⟨.protocol, s.pc, 0x00008002#32⟩ })

/-- R116: `twm.write` issues WRITE of TWM_DATA from ADDR and TX. The phase is checked before the data (R197). -/
def Obligations.TwmWriteIssuesWrite : Prop :=
  ∀ s : State, s.fault = none →
    decodeWord 0x00008003#32 = .ok .twmWrite ∧
    (∀ b, s.busy = false → s.phase = .addr ∨ s.phase = .tx → s.data = some b →
      exec .twmWrite s = .next { s with busy := true, pend := some (.write b), pc := s.pc + 1 }) ∧
    (s.busy = true → exec .twmWrite s = .next { s with fault := some ⟨.cmdWhileBusy, s.pc, 0x00008003#32⟩ }) ∧
    (s.busy = false → s.phase = .idle ∨ s.phase = .rx ∨ s.phase = .rxend →
      exec .twmWrite s = .next { s with fault := some ⟨.protocol, s.pc, 0x00008003#32⟩ }) ∧
    (s.busy = false → s.phase = .addr ∨ s.phase = .tx → s.data = none →
      exec .twmWrite s = .next { s with fault := some ⟨.dataUnwritten, s.pc, 0x00008003#32⟩ })

/-- R117: `twm.read.ack` and `twm.read.nack` issue READ with their acknowledge from RX only. -/
def Obligations.TwmReadIssuesRead : Prop :=
  ∀ s : State, s.fault = none →
    decodeWord 0x0000800C#32 = .ok .twmReadAck ∧ decodeWord 0x00008004#32 = .ok .twmReadNack ∧
    (s.busy = false → s.phase = .rx →
      exec .twmReadAck s = .next { s with busy := true, pend := some (.read true), pc := s.pc + 1 } ∧
      exec .twmReadNack s = .next { s with busy := true, pend := some (.read false), pc := s.pc + 1 }) ∧
    (s.busy = true →
      exec .twmReadAck s = .next { s with fault := some ⟨.cmdWhileBusy, s.pc, 0x0000800C#32⟩ } ∧
      exec .twmReadNack s = .next { s with fault := some ⟨.cmdWhileBusy, s.pc, 0x00008004#32⟩ }) ∧
    (s.busy = false → s.phase ≠ .rx →
      exec .twmReadAck s = .next { s with fault := some ⟨.protocol, s.pc, 0x0000800C#32⟩ } ∧
      exec .twmReadNack s = .next { s with fault := some ⟨.protocol, s.pc, 0x00008004#32⟩ })

/-- R118: the command legality table. In each cell, with TWM not busy and TWM_DATA written, a legal command is issued and
its completion emits the cell's event and no other; every other cell is Fault(PROTOCOL); NOP emits nothing. -/
def Obligations.CommandLegalityTable : Prop :=
  ∀ (s : State) (c : Command) (b : Byte), s.fault = none → s.busy = false → s.data = some b →
    (c = .nop → exec (commandInstr c) s = .next { s with pc := s.pc + 1 }) ∧
    (c ≠ .nop →
      let cell : Option (State → BusEvent) :=
        match s.phase, c with
        | .idle, .start => some fun _ => .start
        | .addr, .write => some fun t => .wr b (slaveAckOf t b)
        | .tx, .start => some fun _ => .repStart
        | .tx, .stop => some fun _ => .stop
        | .tx, .write => some fun t => .wr b (slaveAckOf t b)
        | .rx, .read a => some fun t => .rd (slaveByteOf t) a
        | .rxend, .start => some fun _ => .repStart
        | .rxend, .stop => some fun _ => .stop
        | _, _ => none
      match cell with
      | some event => ∃ t, exec (commandInstr c) s = .next t ∧ t.busy = true ∧ t.bus = s.bus ∧
          (engStep t).bus = s.bus ++ [event t]
      | none => exec (commandInstr c) s =
          .next { s with fault := some ⟨.protocol, s.pc, encode (commandInstr c)⟩ })

/-! ## Completion by ENG (41_bus_transport.md §3) -/

/-- R120: completion of START. -/
def Obligations.StartCompletion : Prop :=
  ∀ s : State, s.pend = some .start →
    agentStep .eng s = .next { s with
      bus := s.bus ++ [if s.phase = .idle then .start else .repStart]
      phase := .addr
      busy := false
      pend := none }

/-- R121: completion of STOP. -/
def Obligations.StopCompletion : Prop :=
  ∀ s : State, s.pend = some .stop →
    agentStep .eng s = .next { s with bus := s.bus ++ [.stop], phase := .idle, busy := false, pend := none }

/-- From R122 and R130: completion of WRITE(b), whatever the slave answers: any Bool may be drawn, a NACK changes only ACKR,
and the RW bit is read only in ADDR. That an answer is the head of the list `slaveAcks`, which loses it, is the model's
choice (log entry 4). -/
def Obligations.WriteCompletion : Prop :=
  ∀ (s : State) (b : Byte), s.pend = some (.write b) →
    (∀ a, slaveAckOf s b = a →
      agentStep .eng s = .next { s with
        bus := s.bus ++ [.wr b a]
        ackr := a
        phase := if s.phase = .addr then (if b.getLsbD 0 = false then .tx else .rx) else s.phase
        busy := false
        pend := none
        slaveAcks := s.slaveAcks.tail }) ∧
    (∀ a, ∃ acks, slaveAckOf { s with slaveAcks := acks } b = a)

/-- From R123 and R130: completion of READ(a), whatever byte the slave returns: any byte may be drawn. That an answer is the
head of the list `slaveBytes`, which loses it, is the model's choice (log entry 4). -/
def Obligations.ReadCompletion : Prop :=
  ∀ (s : State) (a : Bool), s.pend = some (.read a) →
    (∀ b, slaveByteOf s = b →
      agentStep .eng s = .next { s with
        bus := s.bus ++ [.rd b a]
        data := some b
        phase := if a = true then .rx else .rxend
        busy := false
        pend := none
        slaveBytes := s.slaveBytes.tail }) ∧
    (∀ b, ∃ bytes, slaveByteOf { s with slaveBytes := bytes } = b)

/-! ## The TXQ statements, the push and the drain (43_tx_queue.md) -/

/-- R163: `txq.push` stalls the host at P1 and never faults; the pc does not move. -/
def Obligations.TxqPushStallsHost : Prop :=
  ∀ (v : Byte) (s : State),
    decodeWord (0x00008800#32 ||| v.setWidth 32) = .ok (.txqPush v) ∧
    exec (.txqPush v) s = .next { s with hstate := .push .p1 v 0#8 }

/-- R160: `txq.rdstatus` reads `{0b0000, tx_ready, txie, full, empty}` from one snapshot. -/
def Obligations.TxqRdstatusReadsStatus : Prop :=
  ∀ (rd : Reg) (s : State),
    decodeWord (0x00000900#32 ||| (regCode rd).setWidth 32 <<< 16) = .ok (.txqRdstatus rd) ∧
    exec (.txqRdstatus rd) s =
      .next { s with
        regs := s.regs.set rd
          (0b0000#4 ++ BitVec.ofBool s.txReady ++ BitVec.ofBool s.txie ++
            BitVec.ofBool (decide ((s.head + 1#8) &&& mask s.params = s.tail)) ++
            BitVec.ofBool (decide (s.head = s.tail)))
        pc := s.pc + 1 }

/-- R161, R162: `txq.rdhead` and `txq.rdtail` read the binary indices. -/
def Obligations.TxqIndexReads : Prop :=
  ∀ (rd : Reg) (s : State),
    decodeWord (0x00000A00#32 ||| (regCode rd).setWidth 32 <<< 16) = .ok (.txqRdhead rd) ∧
    decodeWord (0x00000B00#32 ||| (regCode rd).setWidth 32 <<< 16) = .ok (.txqRdtail rd) ∧
    exec (.txqRdhead rd) s = .next { s with regs := s.regs.set rd s.head, pc := s.pc + 1 } ∧
    exec (.txqRdtail rd) s = .next { s with regs := s.regs.set rd s.tail, pc := s.pc + 1 }

/-- R164, R166, R167, R168: the push micro-steps P1, P3, P4 and P5, each enabled and each one atomic HOST step. P1's
increment wraps from MASK to 0. -/
def Obligations.PushMicroSteps : Prop :=
  ∀ (s : State) (b : Byte) (next : Index), s.fault = none →
    (s.hstate = .push .p1 b next → enabled .host s = true ∧
      agentStep .host s = .next { s with hstate := .push .p2 b ((s.head + 1#8) &&& mask s.params) } ∧
      (s.params.capLegal = true → s.head = mask s.params → (s.head + 1#8) &&& mask s.params = 0#8)) ∧
    (s.hstate = .push .p3 b next → enabled .host s = true ∧
      agentStep .host s = .next { s with buf := s.buf.write next.toNat b, hstate := .push .p4 b next }) ∧
    (s.hstate = .push .p4 b next → enabled .host s = true ∧
      agentStep .host s = .next { s with head := next, hstate := .push .p5 b next }) ∧
    (s.hstate = .push .p5 b next → enabled .host s = true ∧
      agentStep .host s = .next { s with txie := true, hstate := .run, pc := s.pc + 1 })

/-- From R165: at P2 the host has an enabled step exactly when `next != tail`, and that step only goes to P3. -/
def Obligations.PushHoldsWhileFull : Prop :=
  ∀ (s : State) (b : Byte) (next : Index), s.fault = none → s.hstate = .push .p2 b next →
    (enabled .host s = true ↔ next ≠ s.tail) ∧
    (next ≠ s.tail → agentStep .host s = .next { s with hstate := .push .p3 b next })

/-- R169: the DRAIN step, when it is enabled and its two cases. -/
def Obligations.DrainStep : Prop :=
  ∀ s : State,
    (enabled .drain s = true ↔ s.fault = none ∧ s.txie = true ∧ s.txReady = true) ∧
    (∀ b, s.head ≠ s.tail → s.buf.read ((s.tail + 1#8) &&& mask s.params).toNat = some b →
      agentStep .drain s = .next { s with
        tail := (s.tail + 1#8) &&& mask s.params
        serial := s.serial ++ [b]
        txReady := false }) ∧
    (s.head = s.tail → agentStep .drain s = .next { s with txie := false })

/-- R170: the SER step. -/
def Obligations.SerStep : Prop :=
  ∀ s : State,
    (enabled .ser s = true ↔ s.fault = none ∧ s.txReady = false) ∧
    agentStep .ser s = .next { s with txReady := true }

/-! ## Branches, halt and fatal (40_host_program.md) -/

/-- R93: `bnz` branches if any masked bit is set. -/
def Obligations.BnzBranches : Prop :=
  ∀ (rs : Reg) (imm : Byte) (target : Nat) (s : State), s.fault = none → target < 2 ^ 16 →
    decodeWord (0x1#4 ++ 0#1 ++ regCode rs ++ imm ++ BitVec.ofNat 16 target) = .ok (.bnz rs imm target) ∧
    (∀ v, s.regs.get rs = some v →
      exec (.bnz rs imm target) s = .next { s with pc := if v &&& imm ≠ 0#8 then target else s.pc + 1 }) ∧
    (s.regs.get rs = none → exec (.bnz rs imm target) s =
      .next { s with fault := some ⟨.unwrittenReg, s.pc, 0x1#4 ++ 0#1 ++ regCode rs ++ imm ++ BitVec.ofNat 16 target⟩ })

/-- R94: `bz` branches if every masked bit is clear; with mask 0, always. -/
def Obligations.BzBranches : Prop :=
  ∀ (rs : Reg) (imm : Byte) (target : Nat) (s : State), s.fault = none → target < 2 ^ 16 →
    decodeWord (0x2#4 ++ 0#1 ++ regCode rs ++ imm ++ BitVec.ofNat 16 target) = .ok (.bz rs imm target) ∧
    (∀ v, s.regs.get rs = some v →
      exec (.bz rs imm target) s = .next { s with pc := if v &&& imm = 0#8 then target else s.pc + 1 }) ∧
    (s.regs.get rs = none → exec (.bz rs imm target) s =
      .next { s with fault := some ⟨.unwrittenReg, s.pc, 0x2#4 ++ 0#1 ++ regCode rs ++ imm ++ BitVec.ofNat 16 target⟩ })

/-- R95: `bne` branches if the register differs from the immediate. -/
def Obligations.BneBranches : Prop :=
  ∀ (rs : Reg) (imm : Byte) (target : Nat) (s : State), s.fault = none → target < 2 ^ 16 →
    decodeWord (0x3#4 ++ 0#1 ++ regCode rs ++ imm ++ BitVec.ofNat 16 target) = .ok (.bne rs imm target) ∧
    (∀ v, s.regs.get rs = some v →
      exec (.bne rs imm target) s = .next { s with pc := if v ≠ imm then target else s.pc + 1 }) ∧
    (s.regs.get rs = none → exec (.bne rs imm target) s =
      .next { s with fault := some ⟨.unwrittenReg, s.pc, 0x3#4 ++ 0#1 ++ regCode rs ++ imm ++ BitVec.ofNat 16 target⟩ })

/-- R96: `halt` ends the program, and faults with a command in flight or a transaction open. -/
def Obligations.HaltEndsProgram : Prop :=
  ∀ s : State, s.fault = none →
    decodeWord 0xE0000000#32 = .ok .halt ∧
    (s.busy = false → s.phase = .idle → exec .halt s = .next { s with hstate := .halted }) ∧
    (s.busy = true ∨ s.phase ≠ .idle →
      exec .halt s = .next { s with fault := some ⟨.openTransaction, s.pc, 0xE0000000#32⟩ })

/-- R97: `fatal` puts the host in FATAL, records no fault and does not move the pc; FATAL is never final, and the host
never steps again, while ENG, DRAIN and SER keep their steps. -/
def Obligations.FatalStopsHost : Prop :=
  ∀ s : State,
    decodeWord 0xF0000000#32 = .ok .fatal ∧
    exec .fatal s = .next { s with hstate := .fatal } ∧
    (∀ a, a ≠ .host → enabled a { s with hstate := .fatal } = enabled a s) ∧
    (s.hstate = .fatal → isFinal s = false ∧ enabled .host s = false ∧
      ∀ t, step s = .next t → t.hstate = .fatal)

/-! ## Registers, storage and the window -/

/-- From R20 and R32: a register or a slot holds what was last written to it, and a write leaves every other one alone. -/
def Obligations.WritesReachOnlyTheirPlace : Prop :=
  (∀ (rs : Regs) (r q : Reg) (v : Byte), (rs.set r v).get q = if q = r then some v else rs.get q) ∧
  (∀ (m : Memory) (a x : Nat) (b : Byte), (m.write a b).read x = if x = a then some b else m.read x) ∧
  (∀ (m : Memory) (a : Nat) (b : Byte), m.wf → (m.write a b).wf)

/-- From R11, R31, R54, R57 and R75: the register each offset reaches. A read at 0x01, 0x02, 0x09, 0x0A and 0x0B is of
TWM_STATUS, TWM_DATA, TXQ_STATUS, TXQ_HEAD and TXQ_TAIL; a write at 0x00, 0x02 and 0x08 is of TWM_CTRL, TWM_DATA and
TXQ_DATA; every other access of the window is BAD_ACCESS. BlkRead(off) and BlkWrite(off, v) are the one-byte accesses at
BLOCK_BASE + off, and an access of another width that reaches the window is BAD_ACCESS. That one which does not reach it
answers nothing is the model's reading (DEDUCED, log entry 17). -/
def Obligations.WindowAccesses : Prop :=
  ∀ (s : State) (v : Byte),
    (∀ off : BitVec 7, memRead (s.params.blockBase + off.toNat) 1 s = some (blkRead off s) ∧
      memWrite (s.params.blockBase + off.toNat) 1 v s = some (blkWrite off v s)) ∧
    (∀ addr width, width ≠ 1 → s.params.blockBase < addr + width → addr < s.params.blockBase + 128 →
      memRead addr width s = some (.error .badAccess) ∧ memWrite addr width v s = some (.error .badAccess)) ∧
    (∀ addr width, addr + width ≤ s.params.blockBase ∨ s.params.blockBase + 128 ≤ addr →
      memRead addr width s = none ∧ memWrite addr width v s = none) ∧
    blkRead 0x01#7 s = .ok (twmStatus s) ∧
    blkRead 0x02#7 s =
      (if s.busy = true then .error .dataWhileBusy
        else match s.data with
          | none => .error .dataUnwritten
          | some b => .ok b) ∧
    blkRead 0x09#7 s = .ok (txqStatus s) ∧ blkRead 0x0A#7 s = .ok s.head ∧ blkRead 0x0B#7 s = .ok s.tail ∧
    blkWrite 0x00#7 v s =
      (match ctrlCommand v with
        | none => .error .badCmd
        | some c => issueCommand c s) ∧
    blkWrite 0x02#7 v s = (if s.busy = true then .error .dataWhileBusy else .ok { s with data := some v }) ∧
    blkWrite 0x08#7 v s = .ok { s with hstate := .push .p1 v 0#8 } ∧
    (∀ off : BitVec 7, off ∉ [0x01#7, 0x02#7, 0x09#7, 0x0A#7, 0x0B#7] → blkRead off s = .error .badAccess) ∧
    (∀ off : BitVec 7, off ∉ [0x00#7, 0x02#7, 0x08#7] → blkWrite off v s = .error .badAccess)

/-! ## Encoding (30_encoding.md) -/

/-- Every well-formed statement's word decodes to the statement, with every operand. -/
def Obligations.DecodeOfEncode : Prop :=
  ∀ i : Instr, i.wellFormed = true → decodeWord (encode i) = .ok i

/-- Every word that decodes is the word of the well-formed statement it decodes to: no bit of a word is ignored. -/
def Obligations.EncodeOfDecode : Prop :=
  ∀ (w : Word) (i : Instr), decodeWord w = .ok i → encode i = w ∧ i.wellFormed = true

/-- From R76: a word decodes to a statement exactly when it matches a row of the opcode map, it matches that statement's
row, and no word matches two rows. -/
def Obligations.OpcodeRowsDecide : Prop :=
  (∀ w : Word, (∃ i, decodeWord w = .ok i) ↔ ∃ row ∈ opcodeTable, rowMatches w row = true) ∧
  (∀ (w : Word) (i : Instr), decodeWord w = .ok i → rowMatches w (opcodeRow i) = true ∧ opcodeRow i ∈ opcodeTable) ∧
  (∀ (w : Word), ∀ r ∈ opcodeTable, ∀ q ∈ opcodeTable, rowMatches w r = true → rowMatches w q = true → r = q)

/-- From R77: every word is a statement or raises exactly one of three faults, the format's checks before the access's and
the access's before the command's. -/
def Obligations.DecodeFaultOrder : Prop :=
  ∀ w : Word,
    let kind := (w.extractLsb' 28 4).toNat
    let write := w.getLsbD 15
    let off := (w.extractLsb' 8 7).toNat
    let val := (w.extractLsb' 0 8).toNat
    let rd := (w.extractLsb' 16 3).toNat
    let illegal : Prop :=
      (4 ≤ kind ∧ kind ≤ 0xD) ∨ (0xE ≤ kind ∧ w.extractLsb' 0 28 ≠ 0#28) ∨
      (1 ≤ kind ∧ kind ≤ 3 ∧ w.getLsbD 27 = true) ∨
      (kind = 0 ∧ (w.extractLsb' 19 9 ≠ 0#9 ∨ (write = true ∧ rd ≠ 0) ∨ (write = false ∧ val ≠ 0)))
    let unmapped : Prop :=
      kind = 0 ∧ (write, off) ∉ [(true, 0x00), (false, 0x01), (true, 0x02), (false, 0x02), (true, 0x08),
        (false, 0x09), (false, 0x0A), (false, 0x0B)]
    let badCommand : Prop :=
      kind = 0 ∧ write = true ∧ off = 0 ∧ val ∉ [0x00, 0x01, 0x02, 0x03, 0x04, 0x0C]
    (decodeWord w = .error .illegalStatement ↔ illegal) ∧
    (decodeWord w = .error .badAccess ↔ ¬ illegal ∧ unmapped) ∧
    (decodeWord w = .error .badCmd ↔ ¬ illegal ∧ ¬ unmapped ∧ badCommand) ∧
    ((∃ i, decodeWord w = .ok i) ↔ ¬ illegal ∧ ¬ unmapped ∧ ¬ badCommand)

/-- Words written out from R71 to R76, one of each family, decode to the statements they stand for. -/
def Obligations.SpecWordsDecode : Prop :=
  decodeWord 0b0000_000000000_111_0_0000001_00000000#32 = .ok (.twmRdstatus .r7) ∧
  decodeWord 0b0000_000000000_000_1_0000000_00001100#32 = .ok .twmReadAck ∧
  decodeWord 0b0000_000000000_000_1_0000010_10010000#32 = .ok (.twmWrdata 0x90#8) ∧
  decodeWord 0b0000_000000000_000_1_0001000_01000001#32 = .ok (.txqPush 0x41#8) ∧
  decodeWord 0b0000_000000000_101_0_0001011_00000000#32 = .ok (.txqRdtail .r5) ∧
  decodeWord 0b0001_0_111_00000001_0000000000000101#32 = .ok (.bnz .r7 0x01#8 5) ∧
  decodeWord 0b0011_0_001_10000011_0000000000110110#32 = .ok (.bne .r1 0x83#8 54) ∧
  decodeWord 0b1110_0000000000000000000000000000#32 = .ok .halt

/-! ## One step of the machine -/

/-- From R90, R54 and R197: in RUN, HOST's step fetches, decodes and executes the statement at pc; a fetch at or beyond the
end of PROG and a word that does not decode are faults at that pc. An access statement (a word of KIND 0 that is not
ILLEGAL_STATEMENT) of which the platform makes an access of two bytes or more that reaches the window records BAD_ACCESS at
that pc, with its word, and has no other effect. The word PC_RANGE records is a free value (log entry 6). The model's own
additions are that the schedule moves on (log entry 3) and the platform's list of wide accesses with it (log entry 20). -/
def Obligations.StepRunsDecodedStatement : Prop :=
  (∀ s : State, s.params.capLegal = true → s.fault = none → s.hstate = .run → nextAgent s = some .host →
    let widened : Word → Prop := fun w =>
      w.extractLsb' 28 4 = 0#4 ∧ decodeWord w ≠ .error .illegalStatement ∧
      ∃ a : WideAccess, s.wideAccesses.head? = some (some a) ∧
        s.params.blockBase < a.addr + (a.extra + 2) ∧ a.addr < s.params.blockBase + 128
    (∀ w i, s.prog[s.pc]? = some w → decodeWord w = .ok i → ¬ widened w → step s = exec i (consumeChoice s)) ∧
    (∀ w c, s.prog[s.pc]? = some w → decodeWord w = .error c → ¬ widened w →
      step s = .next { consumeChoice s with fault := some ⟨c, s.pc, w⟩ }) ∧
    (∀ w, s.prog[s.pc]? = some w → widened w →
      step s = .next { consumeChoice s with fault := some ⟨.badAccess, s.pc, w⟩ }) ∧
    (s.prog.length ≤ s.pc →
      ∃ w, step s = .next { consumeChoice s with fault := some ⟨.pcRange, s.pc, w⟩ })) ∧
  (∀ (s : State) (w : Word) (i : Instr), decodeWord w = .ok i →
    step (s.withFetchWord 32 w.toNat) = exec i (consumeChoice (s.withFetchWord 32 w.toNat)))

/-- From R12, R98 and R196: every agent with an enabled step may take the next one, whatever the rest of the state; only an
agent with an enabled step takes one, HOST's being the fault of a wide access where the platform makes one of an access
statement (R54, log entry 20); and where HOST or DRAIN has one, some agent moves. That the field `schedule` names the agent,
and that a step in which none moves is a step which only consumes the choice, are the model's choices (log entry 3). -/
def Obligations.AnyEnabledAgentMayMove : Prop :=
  ∀ s : State, s.params.capLegal = true →
    (∀ a, enabled a s = true →
      step { s with schedule := some a :: s.schedule.tail, wideAccesses := none :: s.wideAccesses.tail } =
        agentStep a (consumeChoice s)) ∧
    (∀ t, step s = .next t → (∃ a, enabled a s = true ∧ agentStep a (consumeChoice s) = .next t) ∨
      (enabled .host s = true ∧ s.hstate = .run ∧ s.wideAccesses.head?.join ≠ none ∧
        ∃ w, s.prog[s.pc]? = some w ∧ t = { consumeChoice s with fault := some ⟨.badAccess, s.pc, w⟩ }) ∨
      (t = consumeChoice s ∧ ∀ a, enabled a s = true → weaklyFair s.params a = false)) ∧
    ((∀ a, enabled a s = false) ↔ ∃ f, step s = .fault f)

/-- From R40 and R191: once a fault is recorded no agent has a step, and the machine stops. -/
def Obligations.NoStepAfterFault : Prop :=
  ∀ (s : State) (r : FaultRecord), s.params.capLegal = true → s.fault = some r →
    (∀ a, enabled a s = false) ∧ step s = .fault .faultRecorded

/-- From R190 and R191: faults are precise. A step that records a fault is a HOST step of a statement, records that
statement's pc, and changes nothing else; ENG, DRAIN, SER and push micro-steps never fault. -/
def Obligations.FaultsArePrecise : Prop :=
  ∀ s t : State, step s = .next t → t.fault ≠ s.fault →
    nextAgent s = some .host ∧ s.hstate = .run ∧ s.fault = none ∧
    ∃ r, t = { consumeChoice s with fault := some r } ∧ r.pc = s.pc ∧
      (s.prog[s.pc]? = some r.word ∨ s.prog[s.pc]? = none ∧ r.code = .pcRange)

/-- From R99: in a final state no agent has an enabled step; where no agent has one the machine stops, saying whether the
state is faulted, final or stuck. -/
def Obligations.EndOfRun : Prop :=
  ∀ s : State, s.params.capLegal = true →
    (isFinal s = true ↔ s.fault = none ∧ s.hstate = .halted ∧ s.busy = false ∧ s.phase = .idle ∧ s.head = s.tail ∧
      s.txie = false ∧ s.txReady = true) ∧
    (isFinal s = true → (∀ a, enabled a s = false) ∧ step s = .fault .runEnded) ∧
    (s.fault = none → isFinal s = false → (∀ a, enabled a s = false) → step s = .fault .stuck)

/-- From R9: a TXQ_CAP that is not 2^K with K from 1 to 8 is refused, and no other is. -/
def Obligations.IllegalCapacityRefused : Prop :=
  ∀ s : State,
    ((∃ k, 1 ≤ k ∧ k ≤ 8 ∧ s.params.txqCap = 2 ^ k) → ∀ x, step s ≠ .refused x) ∧
    ((∀ k, 1 ≤ k → k ≤ 8 → s.params.txqCap ≠ 2 ^ k) → step s = .refused .illegalCapacity)

/-- R44: the values of the spec's state after reset, for every launch. -/
def Obligations.ResetValues : Prop :=
  ∀ (p : Params) (prog : List Word),
    let s := State.launch p prog
    (∀ r, s.regs.get r = none) ∧ s.pc = 0 ∧ s.hstate = .run ∧ s.busy = false ∧ s.pend = none ∧ s.ackr = false ∧
    s.data = none ∧ s.phase = .idle ∧ s.bus = [] ∧ (∀ i, s.buf.read i = none) ∧ s.head = 0#8 ∧ s.tail = 0#8 ∧
    s.txie = false ∧ s.txReady = true ∧ s.serial = [] ∧ s.fault = none ∧
    State.reset = State.launch Params.reset []

/-! ## Frames and writers -/

/-- The frame of every host statement: what it may change, and that everything else, all of the FIFO storage among it,
is unchanged. A statement that records a fault changes nothing else (R191). -/
def Obligations.StatementFrame : Prop :=
  ∀ (i : Instr) (s t : State), exec i s = .next t →
    (∀ a, t.buf.read a = s.buf.read a) ∧ t.buf = s.buf ∧ t.head = s.head ∧ t.tail = s.tail ∧ t.txie = s.txie ∧
    t.txReady = s.txReady ∧ t.serial = s.serial ∧ t.bus = s.bus ∧ t.phase = s.phase ∧ t.ackr = s.ackr ∧
    t.prog = s.prog ∧ t.params = s.params ∧ t.schedule = s.schedule ∧ t.tick = s.tick ∧
    t.slaveAcks = s.slaveAcks ∧ t.slaveBytes = s.slaveBytes ∧ t.wideAccesses = s.wideAccesses ∧
    (∀ r, (match i with
        | .twmRdstatus rd | .twmRddata rd | .txqRdstatus rd | .txqRdhead rd | .txqRdtail rd => r ≠ rd
        | _ => True) → t.regs.get r = s.regs.get r) ∧
    ((∀ v, i ≠ .twmWrdata v) → t.data = s.data) ∧
    (i ∉ [.twmStart, .twmStop, .twmWrite, .twmReadNack, .twmReadAck] → t.busy = s.busy ∧ t.pend = s.pend) ∧
    ((∀ v, i ≠ .txqPush v) → i ≠ .halt → i ≠ .fatal → t.hstate = s.hstate) ∧
    (t.fault ≠ s.fault → t = { s with fault := t.fault })

/-- From R20 to R27, R30, R32 to R37, R40, R65 and R177: which agent, and at which of its steps, may change each piece of the
block's state, and what it may write there. -/
def Obligations.SingleWriters : Prop :=
  ∀ s t : State, step s = .next t →
    (t.head ≠ s.head → nextAgent s = some .host ∧ ∃ b, s.hstate = .push .p4 b t.head) ∧
    (t.tail ≠ s.tail → nextAgent s = some .drain ∧ t.tail = nextIndex s.params s.tail) ∧
    (t.buf ≠ s.buf → nextAgent s = some .host ∧ ∃ b next, s.hstate = .push .p3 b next) ∧
    (t.serial ≠ s.serial → nextAgent s = some .drain) ∧
    (t.phase ≠ s.phase → nextAgent s = some .eng) ∧
    (t.bus ≠ s.bus → nextAgent s = some .eng) ∧
    (t.ackr ≠ s.ackr → nextAgent s = some .eng ∧ ∃ b, s.pend = some (.write b)) ∧
    (t.regs ≠ s.regs → nextAgent s = some .host ∧ s.hstate = .run) ∧
    (t.pc ≠ s.pc → nextAgent s = some .host) ∧
    (t.busy ≠ s.busy ∨ t.pend ≠ s.pend →
      (nextAgent s = some .host ∧ s.hstate = .run ∧ s.busy = false ∧ t.busy = true ∧
        ∃ w c, s.prog[s.pc]? = some w ∧ decodeWord w = .ok (commandInstr (commandOf c)) ∧ t.pend = some c) ∨
      (nextAgent s = some .eng ∧ s.busy = true ∧ t.busy = false ∧ t.pend = none)) ∧
    (t.data ≠ s.data →
      (nextAgent s = some .host ∧ s.hstate = .run ∧ s.busy = false ∧
        ∃ w v, s.prog[s.pc]? = some w ∧ decodeWord w = .ok (.twmWrdata v) ∧ t.data = some v) ∨
      (nextAgent s = some .eng ∧ ∃ a, s.pend = some (.read a))) ∧
    (t.txie ≠ s.txie →
      (nextAgent s = some .host ∧ t.txie = true ∧ ∃ b next, s.hstate = .push .p5 b next) ∨
      (nextAgent s = some .drain ∧ t.txie = false ∧ s.head = s.tail)) ∧
    (t.txReady ≠ s.txReady →
      (nextAgent s = some .drain ∧ t.txReady = false ∧ s.head ≠ s.tail) ∨
      (nextAgent s = some .ser ∧ t.txReady = true)) ∧
    (t.hstate ≠ s.hstate → nextAgent s = some .host) ∧
    (t.fault ≠ s.fault → nextAgent s = some .host ∧ s.hstate = .run ∧ s.fault = none) ∧
    t.prog = s.prog ∧ t.params = s.params

/-- From R60: TWM puts exactly one event on the bus per command, when the command completes. -/
def Obligations.OneEventPerCommand : Prop :=
  ∀ s t : State, Inv s → step s = .next t →
    (t.bus = s.bus ∧ (s.busy = true → t.busy = true ∧ t.pend = s.pend)) ∨
    (∃ e, t.bus = s.bus ++ [e] ∧ nextAgent s = some .eng ∧ s.busy = true ∧ t.busy = false ∧ t.pend = none)

/-- From R3: the two sub-blocks have no data path to each other. ENG's step does the same whatever the TXQ state and
leaves it alone; DRAIN, SER and the push micro-steps do the same whatever the TWM state and leave it alone. -/
def Obligations.SubBlocksIndependent : Prop :=
  ∀ (s : State) (buf : Memory) (head tail : Index) (txie txReady : Bool) (serial : List Byte)
    (busy : Bool) (pend : Option InFlight) (ackr : Bool) (data : Option Byte) (phase : Phase) (bus : List BusEvent),
    let otherTxq := fun u : State =>
      { u with buf := buf, head := head, tail := tail, txie := txie, txReady := txReady, serial := serial }
    let otherTwm := fun u : State =>
      { u with busy := busy, pend := pend, ackr := ackr, data := data, phase := phase, bus := bus }
    engStep (otherTxq s) = otherTxq (engStep s) ∧
    drainStep (otherTwm s) = otherTwm (drainStep s) ∧
    serStep (otherTwm s) = otherTwm (serStep s) ∧
    (∀ st b next, pushStep st b next (otherTwm s) = otherTwm (pushStep st b next s))

/-! ## Invariants -/

/-- Every clean launch under a legal TXQ_CAP, reset's among them, meets the invariant. -/
def Obligations.InvAtLaunch : Prop :=
  Inv State.reset ∧ ∀ (p : Params) (prog : List Word), p.capLegal = true → Inv (State.launch p prog)

/-- Every step keeps the invariant: R24, R174's I1 to I6 as log entry 10 reads them, the bus trace grammar of R118, 90_conflicts.md
C11, the storage's canonical form, and faults that are precise. -/
def Obligations.InvStep : Prop :=
  ∀ s t : State, Inv s → step s = .next t → Inv t

/-- From R61 and R176: FIFO order and exactly-once delivery. The bytes sent, followed by the bytes stored, stay the same
at every step, but for P4's, which appends the byte pushed at its end. -/
def Obligations.FifoOrder : Prop :=
  ∀ s t : State, Inv s → step s = .next t →
    accepted t = accepted s ++
      (match nextAgent s, s.hstate with
        | some .host, .push .p4 b _ => [some b]
        | _, _ => [])

/-- From R174 (I1 to I3): the count of stored bytes lies between 0 and TXQ_CAP - 1, the FIFO is empty iff head = tail, and
full iff the count is TXQ_CAP - 1 iff advancing head gives tail. -/
def Obligations.FifoCounts : Prop :=
  ∀ s : State, Inv s →
    fifoCount s ≤ s.params.txqCap - 1 ∧ (queued s).length = fifoCount s ∧
    (fifoEmpty s = true ↔ fifoCount s = 0) ∧ (fifoEmpty s = true ↔ s.head = s.tail) ∧
    (fifoFull s = true ↔ fifoCount s = s.params.txqCap - 1) ∧
    ¬ (fifoEmpty s = true ∧ fifoFull s = true)

/-- From R118 and 90_conflicts.md C2: every transaction opened from IDLE is closed by exactly one STOP, and a READ follows
an address byte that asked for one. -/
def Obligations.StartsPairWithStops : Prop :=
  ∀ s : State, TwmInv s →
    startCount s.bus = stopCount s.bus + (if s.phase = .idle then 0 else 1) ∧
    (∀ b a before after, s.bus = before ++ .rd b a :: after → tracePhase before = some .rx)

/-- From R175: a DRAIN step commutes with P1, P2 and P3, so P1 to P4 may be taken as one step at P4; the four steps in a
row are that step. -/
def Obligations.PushLinearizes : Prop :=
  (∀ (s : State) (st : PushStep) (b : Byte) (next : Index), Inv s → s.fault = none → s.hstate = .push st b next →
    st = .p1 ∨ st = .p2 ∨ st = .p3 → enabled .host s = true → enabled .drain s = true →
    enabled .host (drainStep s) = true ∧
    drainStep (pushStep st b next s) = pushStep st b next (drainStep s)) ∧
  (∀ (s : State) (b : Byte),
    let next := nextIndex s.params s.head
    pushStep .p4 b next (pushStep .p3 b next (pushStep .p2 b next (pushStep .p1 b 0#8 s))) = pushFused b s)

/-- From R165: a push never gets stuck. While it is held on a full FIFO the enable is set, so DRAIN or SER has a step, and
one DRAIN step lifts the hold. -/
def Obligations.PushNeverStuck : Prop :=
  ∀ (s : State) (st : PushStep) (b : Byte) (next : Index), Inv s → s.fault = none → s.hstate = .push st b next →
    (∃ a, a ≠ .eng ∧ enabled a s = true) ∧
    (st = .p2 → next = s.tail → s.txie = true ∧ enabled .host (drainStep s) = true)

/-- From R178: under TX_LIVE every push eventually completes, in every run that is fair as R98 says. -/
def Obligations.PushEventuallyCompletes : Prop :=
  ∀ (r : Nat → State) (n : Nat) (st : PushStep) (b : Byte) (next : Index),
    FairRun r → Inv (r 0) → (r 0).params.txLive = true → (r n).hstate = .push st b next →
    ∃ m, n ≤ m ∧ (r m).hstate = .run ∧ (r m).pc = (r n).pc + 1

/-- From R178: under TX_LIVE every byte whose push reached P4 is eventually sent, in every fair run in which no fault stops
the machine (R191: a fault stops the drain too; log entry 18). -/
def Obligations.StoredBytesEventuallySent : Prop :=
  ∀ (r : Nat → State) (n : Nat),
    FairRun r → Inv (r 0) → (r 0).params.txLive = true → (∀ m, (r m).fault = none) →
    ∃ m, n ≤ m ∧ accepted (r n) <+: (r m).serial.map some

/-- From R119 and R98: under BUS_LIVE every command in flight eventually completes, unless a fault stops the machine. -/
def Obligations.CommandEventuallyCompletes : Prop :=
  ∀ (r : Nat → State) (n : Nat),
    FairRun r → (r 0).params.busLive = true → (r n).busy = true →
    ∃ m, n ≤ m ∧ ((r m).busy = false ∨ (r m).fault ≠ none)

/-! ## Gray code and the clock-domain crossing (43_tx_queue.md §6) -/

/-- R179: the Gray code, its inverse, and the one-bit change from every index to the next, the wraparound among them. -/
def Obligations.GrayCode : Prop :=
  ∀ k, 1 ≤ k → k ≤ 8 →
    let m : Index := BitVec.ofNat 8 (2 ^ k - 1)
    gray m = BitVec.ofNat 8 (2 ^ (k - 1)) ∧ gray 0#8 = 0#8 ∧
    ∀ i : Index, i.toNat < 2 ^ k →
      gray i = i ^^^ (i >>> 1) ∧ bin k (gray i) = i ∧
      (bin k i).getLsbD (k - 1) = i.getLsbD (k - 1) ∧
      (∀ j, j < k - 1 → (bin k i).getLsbD j = Bool.xor ((bin k i).getLsbD (j + 1)) (i.getLsbD j)) ∧
      ∃ j, j < k ∧ gray i ^^^ gray ((i + 1#8) &&& m) = 1#8 <<< j

/-- From R179 and R180: a Gray copy sampled during a change yields the old index or the new one, never a third value. That
such a sample takes each bit from before or from after the change is the model's reading (DEDUCED, log entry 16). -/
def Obligations.SampledCopyIsOldOrNew : Prop :=
  ∀ (p : Params) (i x : Index), p.capLegal = true → i &&& mask p = i →
    sampledDuring i (nextIndex p i) x = true → x = gray i ∨ x = gray (nextIndex p i)

/-- From R180 (a): testing P2 against an older tail only lengthens the hold: where it lets the push on, so does the
current tail. What makes a tail an older one, `olderTail`, is the model's reading (DEDUCED, log entry 16). -/
def Obligations.OlderTailOnlyHoldsLonger : Prop :=
  ∀ (s : State) (b : Byte) (next seen : Index), Inv s → s.hstate = .push .p2 b next → olderTail seen s = true →
    next ≠ seen → next ≠ s.tail

/-- From R62, R169 and R180 (b), (c) and (d). (b): with a fresh head copy the drain domain's step keeps the enable of a FIFO
that holds bytes; with a stale one the wakeup can be lost: a byte stays stored with the enable clear and the host not at P5.
(c): where a P5 set and the drain domain's step race and the set wins, the state is the one the drain step leaves followed
by P5, which is P5's alone where the step was a clear, and no byte is stored with the enable clear; were the clear to win,
one could be, with the host not at P5. (d): where the slots that a published head copy covers are stable, a drain step that
finds a byte is the block's own DRAIN step and sends the oldest byte stored; P3, whose slot no published head covers, does
not end that; and where the slot is not stable, the step can send another byte. The readings `publishedHead`,
`headCopyFresh`, `drainSeeing`, `txieAfterRace`, `raced` and `slotsStable` are the model's (DEDUCED, log entry 16). -/
def Obligations.FreshCopyLosesNoWakeup : Prop :=
  (∀ (s : State) (seen : Index) (slots : Memory), Inv s → enabled .drain s = true → headCopyFresh seen s = true →
    (drainSeeing seen slots s).head ≠ (drainSeeing seen slots s).tail →
    (drainSeeing seen slots s).txie = true ∨ atP5 (drainSeeing seen slots s) = true) ∧
  (∃ s : State, Inv s ∧ enabled .drain s = true ∧
    (drainSeeing s.tail s.buf s).head ≠ (drainSeeing s.tail s.buf s).tail ∧
    (drainSeeing s.tail s.buf s).txie = false ∧ atP5 (drainSeeing s.tail s.buf s) = false) ∧
  (∀ (s : State) (seen : Index) (slots : Memory) (b : Byte) (next : Index), Inv s → enabled .drain s = true →
    s.hstate = .push .p5 b next →
    raced true seen slots b next s = pushStep .p5 b next (drainSeeing seen slots s) ∧
    (seen = s.tail → raced true seen slots b next s = pushStep .p5 b next s) ∧
    atP5 (raced true seen slots b next s) = false ∧
    ((raced true seen slots b next s).head ≠ (raced true seen slots b next s).tail →
      (raced true seen slots b next s).txie = true)) ∧
  (∃ (s : State) (b : Byte) (next : Index), Inv s ∧ enabled .drain s = true ∧ s.hstate = .push .p5 b next ∧
    (raced false s.tail s.buf b next s).head ≠ (raced false s.tail s.buf b next s).tail ∧
    (raced false s.tail s.buf b next s).txie = false ∧ atP5 (raced false s.tail s.buf b next s) = false) ∧
  (∀ (s : State) (seen : Index) (slots : Memory), Inv s → enabled .drain s = true → publishedHead seen s = true →
    seen ≠ s.tail → slotsStable seen slots s = true →
    drainSeeing seen slots s = drainStep s ∧
    ∃ b, s.buf.read ((s.tail + 1#8) &&& mask s.params).toNat = some b ∧
      (drainSeeing seen slots s).serial = s.serial ++ [b]) ∧
  (∀ (s : State) (seen : Index) (slots : Memory) (b : Byte) (next : Index), Inv s → s.hstate = .push .p3 b next →
    publishedHead seen s = true → slotsStable seen slots s = true →
    slotsStable seen slots (pushStep .p3 b next s) = true) ∧
  (∃ (s : State) (seen : Index) (slots : Memory) (b : Byte), Inv s ∧ enabled .drain s = true ∧
    publishedHead seen s = true ∧ seen ≠ s.tail ∧ slotsStable seen slots s = false ∧
    s.buf.read ((s.tail + 1#8) &&& mask s.params).toNat = some b ∧
    (drainSeeing seen slots s).serial ≠ s.serial ++ [b])

/-! ## Pseudo-operations and the device transactions -/

/-- R124 to R127: the words the bus primitives expand to at index L. -/
def Obligations.PrimitiveExpansions : Prop :=
  ∀ (p : Params) (L : Nat) (b : Byte) (rN : Reg), L + 2 < 2 ^ 16 →
    let at_ := fun k : Nat => 0x17010000#32 ||| BitVec.ofNat 32 (L + k)
    (expand p .start L).map encode = [0x00008001#32, 0x00070100#32, at_ 1] ∧
    (expand p .stop L).map encode = [0x00008002#32, 0x00070100#32, at_ 1] ∧
    (expand p (.writeByte b) L).map encode =
      [0x00008200#32 ||| b.setWidth 32, 0x00008003#32, 0x00070100#32, at_ 2] ∧
    (expand p (.readByte true rN) L).map encode =
      [0x0000800C#32, 0x00070100#32, at_ 1, 0x00000200#32 ||| (regCode rN).setWidth 32 <<< 16] ∧
    (expand p (.readByte false rN) L).map encode =
      [0x00008004#32, 0x00070100#32, at_ 1, 0x00000200#32 ||| (regCode rN).setWidth 32 <<< 16]

/-- From R51, R53, R150 to R152 and R154: the device transactions. Their expansions are those of the primitives, at the
indices the rules' tables list, with the address bytes and the value's most significant byte first; `deviceInit` ends in
two compares, a jump and `fatal`. Their events lead from IDLE back to IDLE. -/
def Obligations.DeviceTransactions : Prop :=
  ∀ (p : Params) (reg h l : Byte) (v : BitVec 16) (rH rL : Reg) (L : Nat) (a1 a2 a3 a4 : Bool),
    let aw : Byte := p.devAddr.setWidth 8 <<< 1
    let ar : Byte := p.devAddr.setWidth 8 <<< 1 ||| 1#8
    let msb : Byte := v.extractLsb' 8 8
    let lsb : Byte := v.extractLsb' 0 8
    msb.toNat * 256 + lsb.toNat = v.toNat ∧
    expand p (.writeRegister reg v) L =
      expand p .start L ++ expand p (.writeByte aw) (L + 3) ++ expand p (.writeByte reg) (L + 7) ++
      expand p (.writeByte msb) (L + 11) ++ expand p (.writeByte lsb) (L + 15) ++ expand p .stop (L + 19) ∧
    (expand p (.writeRegister reg v) L).length = 22 ∧
    expand p (.readRegister reg rH rL) L =
      expand p .start L ++ expand p (.writeByte aw) (L + 3) ++ expand p (.writeByte reg) (L + 7) ++
      expand p .start (L + 11) ++ expand p (.writeByte ar) (L + 14) ++ expand p (.readByte true rH) (L + 18) ++
      expand p (.readByte false rL) (L + 22) ++ expand p .stop (L + 26) ∧
    (expand p (.readRegister reg rH rL) L).length = 29 ∧
    expand p (.deviceInit v) L =
      expand p (.writeRegister 0x01#8 v) L ++ expand p (.readRegister 0x01#8 .r0 .r1) (L + 22) ++
      [.bne .r0 msb (L + 54), .bne .r1 lsb (L + 54), .bz .r0 0x00#8 (L + 55), .fatal] ∧
    (expand p (.deviceInit v) L).length = 55 ∧
    writeRegisterEvents p reg v a1 a2 a3 a4 =
      [.start, .wr aw a1, .wr reg a2, .wr msb a3, .wr lsb a4, .stop] ∧
    readRegisterEvents p reg h l a1 a2 a3 =
      [.start, .wr aw a1, .wr reg a2, .repStart, .wr ar a3, .rd h true, .rd l false, .stop] ∧
    (readRegisterEvents p reg h l a1 a2 a3).inits.map tracePhase =
      [some .idle, some .addr, some .tx, some .tx, some .addr, some .rx, some .rx, some .rxend, some .idle] ∧
    (writeRegisterEvents p reg v a1 a2 a3 a4).inits.map tracePhase =
      [some .idle, some .addr, some .tx, some .tx, some .tx, some .tx, some .idle]

/-- From R153: the reference slave has the round-trip property. After a `writeRegister` to a pointer, the two READs of a
`readRegister` of it return the value's bytes, most significant first; after a start the slave acknowledges the address
byte that names it, and no other address. -/
def Obligations.ReferenceSlaveRoundTrip : Prop :=
  ∀ (p : Params) (σ : RefSlave) (reg : Byte) (v : BitVec 16), reg.toNat ≤ 3 →
    let written := writeRegisterEvents p reg v true true true true
    let opened : List BusEvent :=
      [.start, .wr (addressWrite p) true, .wr reg true, .repStart, .wr (addressRead p) true]
    refSlaveByte p.devAddr false σ (written ++ opened) = hiByte v ∧
    refSlaveByte p.devAddr false σ (written ++ opened ++ [.rd (hiByte v) true]) = loByte v ∧
    refSlaveAck p.devAddr σ [.start] (addressWrite p) = true ∧
    (∀ b : Byte, b.extractLsb' 1 7 ≠ p.devAddr → refSlaveAck p.devAddr σ [.start] b = false)
end

