-- ==== Sys2Proof/Laws/Index.lean ====
section
/-! SUPPORT. Index arithmetic under a legal TXQ_CAP: the masked operations as arithmetic modulo TXQ_CAP. -/

namespace Sys2Proof.Machine

/-- The capacities of R9. -/
theorem capLegal_cases {p : Params} (h : p.capLegal = true) :
    p.txqCap = 2 ∨ p.txqCap = 4 ∨ p.txqCap = 8 ∨ p.txqCap = 16 ∨ p.txqCap = 32 ∨ p.txqCap = 64 ∨
      p.txqCap = 128 ∨ p.txqCap = 256 := by
  simp only [Params.capLegal, Bool.and_eq_true, beq_iff_eq, decide_eq_true_eq] at h
  obtain ⟨⟨h1, h2⟩, h3⟩ := h
  generalize Nat.log2 p.txqCap = k at h1
  have hk : k ≤ 8 := by
    by_contra hk
    have : 2 ^ 9 ≤ 2 ^ k := Nat.pow_le_pow_right (by decide) (by omega)
    omega
  interval_cases k <;> omega

/-- A power-of-two capacity: what R9's legality gives arithmetic. -/
theorem capLegal_pow {p : Params} (h : p.capLegal = true) : ∃ k, 1 ≤ k ∧ k ≤ 8 ∧ p.txqCap = 2 ^ k := by
  rcases capLegal_cases h with h | h | h | h | h | h | h | h
  exacts [⟨1, by decide, by decide, h⟩, ⟨2, by decide, by decide, h⟩, ⟨3, by decide, by decide, h⟩,
    ⟨4, by decide, by decide, h⟩, ⟨5, by decide, by decide, h⟩, ⟨6, by decide, by decide, h⟩,
    ⟨7, by decide, by decide, h⟩, ⟨8, by decide, by decide, h⟩]

theorem mask_toNat {p : Params} (h : p.capLegal = true) : (mask p).toNat = p.txqCap - 1 := by
  have := capLegal_cases h
  simp only [mask, BitVec.toNat_ofNat]
  omega

/-- Masking is the remainder modulo TXQ_CAP. -/
theorem and_mask_toNat {p : Params} (h : p.capLegal = true) (i : Index) :
    (i &&& mask p).toNat = i.toNat % p.txqCap := by
  obtain ⟨k, _, _, hk⟩ := capLegal_pow h
  rw [BitVec.toNat_and, mask_toNat h, hk, Nat.and_two_pow_sub_one_eq_mod]

/-- An index within MASK is below TXQ_CAP. -/
theorem masked_iff_lt {p : Params} (h : p.capLegal = true) (i : Index) :
    i &&& mask p = i ↔ i.toNat < p.txqCap := by
  have hc := capLegal_cases h
  have e := and_mask_toNat h i
  constructor
  · intro hi
    rw [hi] at e
    have := Nat.mod_lt i.toNat (show 0 < p.txqCap by omega)
    omega
  · intro hi
    apply BitVec.eq_of_toNat_eq
    rw [e, Nat.mod_eq_of_lt hi]

theorem masked_and_mask (p : Params) (i : Index) : (i &&& mask p) &&& mask p = i &&& mask p := by
  rw [BitVec.and_assoc, BitVec.and_self]

theorem nextIndex_masked (p : Params) (i : Index) : nextIndex p i &&& mask p = nextIndex p i :=
  masked_and_mask p _

/-- The wrapping increment is addition modulo TXQ_CAP (R164). -/
theorem nextIndex_toNat {p : Params} (h : p.capLegal = true) (i : Index) :
    (nextIndex p i).toNat = (i.toNat + 1) % p.txqCap := by
  have hc := capLegal_cases h
  rw [nextIndex, and_mask_toNat h, BitVec.toNat_add, BitVec.toNat_ofNat]
  rcases hc with h | h | h | h | h | h | h | h <;> rw [h] <;> omega

/-- The number of stored bytes as a difference modulo TXQ_CAP (R174, I1). -/
theorem fifoCount_eq {s : State} (h : s.params.capLegal = true) :
    fifoCount s = (s.head.toNat + 256 - s.tail.toNat) % s.params.txqCap := by
  have hc := capLegal_cases h
  have := s.head.isLt; have := s.tail.isLt
  rw [fifoCount, and_mask_toNat h, BitVec.toNat_sub]
  rcases hc with h | h | h | h | h | h | h | h <;> rw [h] <;> omega

theorem slotAt_toNat {s : State} (h : s.params.capLegal = true) (j : Nat) :
    (slotAt s j).toNat = (s.tail.toNat + j) % s.params.txqCap := by
  have hc := capLegal_cases h
  rw [slotAt, and_mask_toNat h, BitVec.toNat_add, BitVec.toNat_ofNat]
  rcases hc with h | h | h | h | h | h | h | h <;> rw [h] <;> omega

theorem index_ne_iff {i j : Index} : i ≠ j ↔ i.toNat ≠ j.toNat := not_congr BitVec.toNat_inj.symm

theorem lt_of_masked {p : Params} (h : p.capLegal = true) {i : Index} (hi : i &&& mask p = i) :
    i.toNat < p.txqCap := (masked_iff_lt h i).1 hi

/-- R9's legal values are exactly the powers of two from 2 to 256. -/
theorem capLegal_iff (p : Params) : p.capLegal = true ↔ ∃ k, 1 ≤ k ∧ k ≤ 8 ∧ p.txqCap = 2 ^ k := by
  refine ⟨capLegal_pow, ?_⟩
  rintro ⟨k, h1, h2, h⟩
  unfold Params.capLegal
  rw [h]
  interval_cases k <;> decide

/-! ## Head `h`, tail `t` and a new index `n` as numbers below a legal capacity `c`

A slot is stored when its distance `j` from the tail is from 1 to `(h + 256 - t) % c`. -/

section Ring
variable {c h t n j : Nat}
  (hc : c = 2 ∨ c = 4 ∨ c = 8 ∨ c = 16 ∨ c = 32 ∨ c = 64 ∨ c = 128 ∨ c = 256) (hh : h < c) (ht : t < c)
include hc hh ht

/-- A stored slot is not the one a push writes next. -/
theorem stored_ne_next (hj : j ≤ (h + 256 - t) % c) (hn : (h + 1) % c ≠ t) : (t + j) % c ≠ (h + 1) % c := by
  rcases hc with rfl | rfl | rfl | rfl | rfl | rfl | rfl | rfl <;> omega

/-- The slot that head's advance adds is the new head. -/
theorem added_eq_next (hn : n = (h + 1) % c) (hj : j ≤ (n + 256 - t) % c) (hj' : ¬ j ≤ (h + 256 - t) % c) :
    (t + j) % c = n := by
  subst hn
  rcases hc with rfl | rfl | rfl | rfl | rfl | rfl | rfl | rfl <;> omega

/-- Head's advance adds one stored slot, unless it meets the tail. -/
theorem count_head_next (hn : n = (h + 1) % c) (hnt : n ≠ t) : (n + 256 - t) % c = (h + 256 - t) % c + 1 := by
  subst hn
  rcases hc with rfl | rfl | rfl | rfl | rfl | rfl | rfl | rfl <;> omega

/-- Tail's advance takes one stored slot, unless there is none. -/
theorem count_tail_next (hn : n = (t + 1) % c) (hht : h ≠ t) : (h + 256 - t) % c = (h + 256 - n) % c + 1 := by
  subst hn
  rcases hc with rfl | rfl | rfl | rfl | rfl | rfl | rfl | rfl <;> omega

/-- Different indices have different successors. -/
theorem next_ne_next (hht : h ≠ t) : (h + 1) % c ≠ (t + 1) % c := by
  rcases hc with rfl | rfl | rfl | rfl | rfl | rfl | rfl | rfl <;> omega

end Ring

theorem slot_after_drain (c t j : Nat) : ((t + 1) % c + j) % c = (t + (j + 1)) % c := by
  rw [Nat.mod_add_mod]
  congr 1
  omega

/-- The slots a head copy covers (R180). -/
theorem mem_coveredSlots {seen i : Index} {s : State} :
    i ∈ coveredSlots seen s ↔
      ∃ j, j < ((seen - s.tail) &&& mask s.params).toNat ∧
        (s.tail + BitVec.ofNat 8 (j + 1)) &&& mask s.params = i := by
  simp [coveredSlots]

/-- Condition (d) of R180, slot by slot. -/
theorem slotsStable_iff {seen : Index} {slots : Memory} {s : State} :
    slotsStable seen slots s = true ↔
      ∀ i ∈ coveredSlots seen s, slots.read i.toNat = s.buf.read i.toNat := by
  simp [slotsStable]

end Sys2Proof.Machine
end

