-- ==== Sys2Proof/Laws/Operands.lean ====
section
/-! SUPPORT. Host result registers and the register window: one lemma per accessor. -/

namespace Sys2Proof.Machine

@[simp] theorem get_set_same (rs : Regs) (r : Reg) (v : Byte) : (rs.set r v).get r = some v := by
  cases r <;> rfl

theorem get_set_other (rs : Regs) {r q : Reg} (v : Byte) (h : q ≠ r) : (rs.set r v).get q = rs.get q := by
  cases r <;> cases q <;> first | rfl | exact absurd rfl h

theorem readReg_of_get {s : State} {r : Reg} {v : Byte} (h : s.regs.get r = some v) : readReg r s = .ok v := by
  unfold readReg; rw [h]

theorem readReg_of_unwritten {s : State} {r : Reg} (h : s.regs.get r = none) :
    readReg r s = .error .unwrittenReg := by
  unfold readReg; rw [h]

/-- Each register of the map is found at its own offset (R31). -/
@[simp] theorem regAt_offsetOf (r : BlkReg) : regAt (offsetOf r) = some r := by cases r <;> rfl

@[simp] theorem blkRead_twmStatus (s : State) : blkRead (offsetOf .twmStatus) s = .ok (twmStatus s) := rfl
@[simp] theorem blkRead_twmData (s : State) : blkRead (offsetOf .twmData) s = readData s := rfl
@[simp] theorem blkRead_txqStatus (s : State) : blkRead (offsetOf .txqStatus) s = .ok (txqStatus s) := rfl
@[simp] theorem blkRead_txqHead (s : State) : blkRead (offsetOf .txqHead) s = .ok s.head := rfl
@[simp] theorem blkRead_txqTail (s : State) : blkRead (offsetOf .txqTail) s = .ok s.tail := rfl
@[simp] theorem blkWrite_twmData (v : Byte) (s : State) : blkWrite (offsetOf .twmData) v s = writeData v s := rfl
@[simp] theorem blkWrite_txqData (v : Byte) (s : State) :
    blkWrite (offsetOf .txqData) v s = .ok { s with hstate := .push .p1 v 0#8 } := rfl

/-- A write of a command's value to TWM_CTRL issues the command (R28). -/
@[simp] theorem blkWrite_commandCtrl (c : Command) (s : State) :
    blkWrite (offsetOf .twmCtrl) (commandCtrl c) s = issueCommand c s := by
  rcases c with _ | _ | _ | _ | (_ | _) <;> rfl

/-- What a command's issue can do: it needs a TWM that is not busy and a phase that allows it, and it changes only
`busy` and `pend` (R113 to R118). -/
theorem issueCommand_ok {c : Command} {s t : State} (h : issueCommand c s = .ok t) :
    s.busy = false ∧ commandLegal s.phase c = true ∧
      ((c = .nop ∧ t = s) ∨
        (c = .start ∧ t = { s with busy := true, pend := some .start }) ∨
        (c = .stop ∧ t = { s with busy := true, pend := some .stop }) ∨
        (∃ b, c = .write ∧ s.data = some b ∧ t = { s with busy := true, pend := some (.write b) }) ∨
        (∃ a, c = .read a ∧ t = { s with busy := true, pend := some (.read a) })) := by
  unfold issueCommand at h
  split at h
  · cases h
  rename_i hb
  split at h
  · cases h
  rename_i hl
  refine ⟨by simpa using hb, by simpa using hl, ?_⟩
  split at h
  · cases h; exact .inl ⟨rfl, rfl⟩
  · cases h; exact .inr (.inl ⟨rfl, rfl⟩)
  · cases h; exact .inr (.inr (.inl ⟨rfl, rfl⟩))
  · split at h
    · cases h
    · rename_i b hd
      cases h; exact .inr (.inr (.inr (.inl ⟨b, rfl, hd, rfl⟩)))
  · cases h; exact .inr (.inr (.inr (.inr ⟨_, rfl, rfl⟩)))

/-- An 8-bit access at BLOCK_BASE + OFF reaches the block (R57). -/
theorem reachesWindow_block (p : Params) (off : BitVec 7) : reachesWindow p (p.blockBase + off.toNat) 1 = true := by
  have := off.isLt
  simp [reachesWindow]; omega

end Sys2Proof.Machine
end

