-- ==== Sys2Proof/Laws/State.lean ====
section
/-! SUPPORT. One lemma per field per update of State, each true by rfl, so that no later proof unfolds a record update. -/

namespace Sys2Proof.Machine

variable (s : State)

/-! ### nextPc -/

@[simp] theorem nextPc_regs : (State.nextPc s).regs = s.regs := rfl
@[simp] theorem nextPc_pc : (State.nextPc s).pc = s.pc + 1 := rfl
@[simp] theorem nextPc_hstate : (State.nextPc s).hstate = s.hstate := rfl
@[simp] theorem nextPc_busy : (State.nextPc s).busy = s.busy := rfl
@[simp] theorem nextPc_pend : (State.nextPc s).pend = s.pend := rfl
@[simp] theorem nextPc_ackr : (State.nextPc s).ackr = s.ackr := rfl
@[simp] theorem nextPc_data : (State.nextPc s).data = s.data := rfl
@[simp] theorem nextPc_phase : (State.nextPc s).phase = s.phase := rfl
@[simp] theorem nextPc_bus : (State.nextPc s).bus = s.bus := rfl
@[simp] theorem nextPc_buf : (State.nextPc s).buf = s.buf := rfl
@[simp] theorem nextPc_head : (State.nextPc s).head = s.head := rfl
@[simp] theorem nextPc_tail : (State.nextPc s).tail = s.tail := rfl
@[simp] theorem nextPc_txie : (State.nextPc s).txie = s.txie := rfl
@[simp] theorem nextPc_txReady : (State.nextPc s).txReady = s.txReady := rfl
@[simp] theorem nextPc_serial : (State.nextPc s).serial = s.serial := rfl
@[simp] theorem nextPc_fault : (State.nextPc s).fault = s.fault := rfl
@[simp] theorem nextPc_prog : (State.nextPc s).prog = s.prog := rfl
@[simp] theorem nextPc_params : (State.nextPc s).params = s.params := rfl
@[simp] theorem nextPc_schedule : (State.nextPc s).schedule = s.schedule := rfl
@[simp] theorem nextPc_tick : (State.nextPc s).tick = s.tick := rfl
@[simp] theorem nextPc_slaveAcks : (State.nextPc s).slaveAcks = s.slaveAcks := rfl
@[simp] theorem nextPc_slaveBytes : (State.nextPc s).slaveBytes = s.slaveBytes := rfl
@[simp] theorem nextPc_wideAccesses : (State.nextPc s).wideAccesses = s.wideAccesses := rfl

/-! ### writeReg -/

@[simp] theorem writeReg_regs (r : Reg) (v : Byte) : (writeReg r v s).regs = s.regs.set r v := rfl
@[simp] theorem writeReg_pc (r : Reg) (v : Byte) : (writeReg r v s).pc = s.pc := rfl
@[simp] theorem writeReg_hstate (r : Reg) (v : Byte) : (writeReg r v s).hstate = s.hstate := rfl
@[simp] theorem writeReg_busy (r : Reg) (v : Byte) : (writeReg r v s).busy = s.busy := rfl
@[simp] theorem writeReg_pend (r : Reg) (v : Byte) : (writeReg r v s).pend = s.pend := rfl
@[simp] theorem writeReg_ackr (r : Reg) (v : Byte) : (writeReg r v s).ackr = s.ackr := rfl
@[simp] theorem writeReg_data (r : Reg) (v : Byte) : (writeReg r v s).data = s.data := rfl
@[simp] theorem writeReg_phase (r : Reg) (v : Byte) : (writeReg r v s).phase = s.phase := rfl
@[simp] theorem writeReg_bus (r : Reg) (v : Byte) : (writeReg r v s).bus = s.bus := rfl
@[simp] theorem writeReg_buf (r : Reg) (v : Byte) : (writeReg r v s).buf = s.buf := rfl
@[simp] theorem writeReg_head (r : Reg) (v : Byte) : (writeReg r v s).head = s.head := rfl
@[simp] theorem writeReg_tail (r : Reg) (v : Byte) : (writeReg r v s).tail = s.tail := rfl
@[simp] theorem writeReg_txie (r : Reg) (v : Byte) : (writeReg r v s).txie = s.txie := rfl
@[simp] theorem writeReg_txReady (r : Reg) (v : Byte) : (writeReg r v s).txReady = s.txReady := rfl
@[simp] theorem writeReg_serial (r : Reg) (v : Byte) : (writeReg r v s).serial = s.serial := rfl
@[simp] theorem writeReg_fault (r : Reg) (v : Byte) : (writeReg r v s).fault = s.fault := rfl
@[simp] theorem writeReg_prog (r : Reg) (v : Byte) : (writeReg r v s).prog = s.prog := rfl
@[simp] theorem writeReg_params (r : Reg) (v : Byte) : (writeReg r v s).params = s.params := rfl
@[simp] theorem writeReg_schedule (r : Reg) (v : Byte) : (writeReg r v s).schedule = s.schedule := rfl
@[simp] theorem writeReg_tick (r : Reg) (v : Byte) : (writeReg r v s).tick = s.tick := rfl
@[simp] theorem writeReg_slaveAcks (r : Reg) (v : Byte) : (writeReg r v s).slaveAcks = s.slaveAcks := rfl
@[simp] theorem writeReg_slaveBytes (r : Reg) (v : Byte) : (writeReg r v s).slaveBytes = s.slaveBytes := rfl
@[simp] theorem writeReg_wideAccesses (r : Reg) (v : Byte) : (writeReg r v s).wideAccesses = s.wideAccesses := rfl

/-! ### emit -/

@[simp] theorem emit_regs (e : BusEvent) : (emit e s).regs = s.regs := rfl
@[simp] theorem emit_pc (e : BusEvent) : (emit e s).pc = s.pc := rfl
@[simp] theorem emit_hstate (e : BusEvent) : (emit e s).hstate = s.hstate := rfl
@[simp] theorem emit_busy (e : BusEvent) : (emit e s).busy = s.busy := rfl
@[simp] theorem emit_pend (e : BusEvent) : (emit e s).pend = s.pend := rfl
@[simp] theorem emit_ackr (e : BusEvent) : (emit e s).ackr = s.ackr := rfl
@[simp] theorem emit_data (e : BusEvent) : (emit e s).data = s.data := rfl
@[simp] theorem emit_phase (e : BusEvent) : (emit e s).phase = s.phase := rfl
@[simp] theorem emit_bus (e : BusEvent) : (emit e s).bus = s.bus ++ [e] := rfl
@[simp] theorem emit_buf (e : BusEvent) : (emit e s).buf = s.buf := rfl
@[simp] theorem emit_head (e : BusEvent) : (emit e s).head = s.head := rfl
@[simp] theorem emit_tail (e : BusEvent) : (emit e s).tail = s.tail := rfl
@[simp] theorem emit_txie (e : BusEvent) : (emit e s).txie = s.txie := rfl
@[simp] theorem emit_txReady (e : BusEvent) : (emit e s).txReady = s.txReady := rfl
@[simp] theorem emit_serial (e : BusEvent) : (emit e s).serial = s.serial := rfl
@[simp] theorem emit_fault (e : BusEvent) : (emit e s).fault = s.fault := rfl
@[simp] theorem emit_prog (e : BusEvent) : (emit e s).prog = s.prog := rfl
@[simp] theorem emit_params (e : BusEvent) : (emit e s).params = s.params := rfl
@[simp] theorem emit_schedule (e : BusEvent) : (emit e s).schedule = s.schedule := rfl
@[simp] theorem emit_tick (e : BusEvent) : (emit e s).tick = s.tick := rfl
@[simp] theorem emit_slaveAcks (e : BusEvent) : (emit e s).slaveAcks = s.slaveAcks := rfl
@[simp] theorem emit_slaveBytes (e : BusEvent) : (emit e s).slaveBytes = s.slaveBytes := rfl
@[simp] theorem emit_wideAccesses (e : BusEvent) : (emit e s).wideAccesses = s.wideAccesses := rfl

/-! ### send -/

@[simp] theorem send_regs (b : Byte) : (send b s).regs = s.regs := rfl
@[simp] theorem send_pc (b : Byte) : (send b s).pc = s.pc := rfl
@[simp] theorem send_hstate (b : Byte) : (send b s).hstate = s.hstate := rfl
@[simp] theorem send_busy (b : Byte) : (send b s).busy = s.busy := rfl
@[simp] theorem send_pend (b : Byte) : (send b s).pend = s.pend := rfl
@[simp] theorem send_ackr (b : Byte) : (send b s).ackr = s.ackr := rfl
@[simp] theorem send_data (b : Byte) : (send b s).data = s.data := rfl
@[simp] theorem send_phase (b : Byte) : (send b s).phase = s.phase := rfl
@[simp] theorem send_bus (b : Byte) : (send b s).bus = s.bus := rfl
@[simp] theorem send_buf (b : Byte) : (send b s).buf = s.buf := rfl
@[simp] theorem send_head (b : Byte) : (send b s).head = s.head := rfl
@[simp] theorem send_tail (b : Byte) : (send b s).tail = s.tail := rfl
@[simp] theorem send_txie (b : Byte) : (send b s).txie = s.txie := rfl
@[simp] theorem send_txReady (b : Byte) : (send b s).txReady = s.txReady := rfl
@[simp] theorem send_serial (b : Byte) : (send b s).serial = s.serial ++ [b] := rfl
@[simp] theorem send_fault (b : Byte) : (send b s).fault = s.fault := rfl
@[simp] theorem send_prog (b : Byte) : (send b s).prog = s.prog := rfl
@[simp] theorem send_params (b : Byte) : (send b s).params = s.params := rfl
@[simp] theorem send_schedule (b : Byte) : (send b s).schedule = s.schedule := rfl
@[simp] theorem send_tick (b : Byte) : (send b s).tick = s.tick := rfl
@[simp] theorem send_slaveAcks (b : Byte) : (send b s).slaveAcks = s.slaveAcks := rfl
@[simp] theorem send_slaveBytes (b : Byte) : (send b s).slaveBytes = s.slaveBytes := rfl
@[simp] theorem send_wideAccesses (b : Byte) : (send b s).wideAccesses = s.wideAccesses := rfl

/-! ### endCommand -/

@[simp] theorem endCommand_regs : (endCommand s).regs = s.regs := rfl
@[simp] theorem endCommand_pc : (endCommand s).pc = s.pc := rfl
@[simp] theorem endCommand_hstate : (endCommand s).hstate = s.hstate := rfl
@[simp] theorem endCommand_busy : (endCommand s).busy = false := rfl
@[simp] theorem endCommand_pend : (endCommand s).pend = none := rfl
@[simp] theorem endCommand_ackr : (endCommand s).ackr = s.ackr := rfl
@[simp] theorem endCommand_data : (endCommand s).data = s.data := rfl
@[simp] theorem endCommand_phase : (endCommand s).phase = s.phase := rfl
@[simp] theorem endCommand_bus : (endCommand s).bus = s.bus := rfl
@[simp] theorem endCommand_buf : (endCommand s).buf = s.buf := rfl
@[simp] theorem endCommand_head : (endCommand s).head = s.head := rfl
@[simp] theorem endCommand_tail : (endCommand s).tail = s.tail := rfl
@[simp] theorem endCommand_txie : (endCommand s).txie = s.txie := rfl
@[simp] theorem endCommand_txReady : (endCommand s).txReady = s.txReady := rfl
@[simp] theorem endCommand_serial : (endCommand s).serial = s.serial := rfl
@[simp] theorem endCommand_fault : (endCommand s).fault = s.fault := rfl
@[simp] theorem endCommand_prog : (endCommand s).prog = s.prog := rfl
@[simp] theorem endCommand_params : (endCommand s).params = s.params := rfl
@[simp] theorem endCommand_schedule : (endCommand s).schedule = s.schedule := rfl
@[simp] theorem endCommand_tick : (endCommand s).tick = s.tick := rfl
@[simp] theorem endCommand_slaveAcks : (endCommand s).slaveAcks = s.slaveAcks := rfl
@[simp] theorem endCommand_slaveBytes : (endCommand s).slaveBytes = s.slaveBytes := rfl
@[simp] theorem endCommand_wideAccesses : (endCommand s).wideAccesses = s.wideAccesses := rfl

/-! ### consumeChoice -/

@[simp] theorem consumeChoice_regs : (consumeChoice s).regs = s.regs := rfl
@[simp] theorem consumeChoice_pc : (consumeChoice s).pc = s.pc := rfl
@[simp] theorem consumeChoice_hstate : (consumeChoice s).hstate = s.hstate := rfl
@[simp] theorem consumeChoice_busy : (consumeChoice s).busy = s.busy := rfl
@[simp] theorem consumeChoice_pend : (consumeChoice s).pend = s.pend := rfl
@[simp] theorem consumeChoice_ackr : (consumeChoice s).ackr = s.ackr := rfl
@[simp] theorem consumeChoice_data : (consumeChoice s).data = s.data := rfl
@[simp] theorem consumeChoice_phase : (consumeChoice s).phase = s.phase := rfl
@[simp] theorem consumeChoice_bus : (consumeChoice s).bus = s.bus := rfl
@[simp] theorem consumeChoice_buf : (consumeChoice s).buf = s.buf := rfl
@[simp] theorem consumeChoice_head : (consumeChoice s).head = s.head := rfl
@[simp] theorem consumeChoice_tail : (consumeChoice s).tail = s.tail := rfl
@[simp] theorem consumeChoice_txie : (consumeChoice s).txie = s.txie := rfl
@[simp] theorem consumeChoice_txReady : (consumeChoice s).txReady = s.txReady := rfl
@[simp] theorem consumeChoice_serial : (consumeChoice s).serial = s.serial := rfl
@[simp] theorem consumeChoice_fault : (consumeChoice s).fault = s.fault := rfl
@[simp] theorem consumeChoice_prog : (consumeChoice s).prog = s.prog := rfl
@[simp] theorem consumeChoice_params : (consumeChoice s).params = s.params := rfl
@[simp] theorem consumeChoice_schedule : (consumeChoice s).schedule = s.schedule.tail := rfl
@[simp] theorem consumeChoice_tick : (consumeChoice s).tick = s.tick + 1 := rfl
@[simp] theorem consumeChoice_slaveAcks : (consumeChoice s).slaveAcks = s.slaveAcks := rfl
@[simp] theorem consumeChoice_slaveBytes : (consumeChoice s).slaveBytes = s.slaveBytes := rfl
@[simp] theorem consumeChoice_wideAccesses : (consumeChoice s).wideAccesses = s.wideAccesses.tail := rfl

/-! ### serStep -/

@[simp] theorem serStep_regs : (serStep s).regs = s.regs := rfl
@[simp] theorem serStep_pc : (serStep s).pc = s.pc := rfl
@[simp] theorem serStep_hstate : (serStep s).hstate = s.hstate := rfl
@[simp] theorem serStep_busy : (serStep s).busy = s.busy := rfl
@[simp] theorem serStep_pend : (serStep s).pend = s.pend := rfl
@[simp] theorem serStep_ackr : (serStep s).ackr = s.ackr := rfl
@[simp] theorem serStep_data : (serStep s).data = s.data := rfl
@[simp] theorem serStep_phase : (serStep s).phase = s.phase := rfl
@[simp] theorem serStep_bus : (serStep s).bus = s.bus := rfl
@[simp] theorem serStep_buf : (serStep s).buf = s.buf := rfl
@[simp] theorem serStep_head : (serStep s).head = s.head := rfl
@[simp] theorem serStep_tail : (serStep s).tail = s.tail := rfl
@[simp] theorem serStep_txie : (serStep s).txie = s.txie := rfl
@[simp] theorem serStep_txReady : (serStep s).txReady = true := rfl
@[simp] theorem serStep_serial : (serStep s).serial = s.serial := rfl
@[simp] theorem serStep_fault : (serStep s).fault = s.fault := rfl
@[simp] theorem serStep_prog : (serStep s).prog = s.prog := rfl
@[simp] theorem serStep_params : (serStep s).params = s.params := rfl
@[simp] theorem serStep_schedule : (serStep s).schedule = s.schedule := rfl
@[simp] theorem serStep_tick : (serStep s).tick = s.tick := rfl
@[simp] theorem serStep_slaveAcks : (serStep s).slaveAcks = s.slaveAcks := rfl
@[simp] theorem serStep_slaveBytes : (serStep s).slaveBytes = s.slaveBytes := rfl
@[simp] theorem serStep_wideAccesses : (serStep s).wideAccesses = s.wideAccesses := rfl

/-! ### raiseFault: only the fault register, and only while it is empty (R191) -/

@[simp] theorem raiseFault_regs (c : FaultCode) (w : Word) : (raiseFault c w s).regs = s.regs := by
  unfold raiseFault; split <;> rfl
@[simp] theorem raiseFault_pc (c : FaultCode) (w : Word) : (raiseFault c w s).pc = s.pc := by
  unfold raiseFault; split <;> rfl
@[simp] theorem raiseFault_hstate (c : FaultCode) (w : Word) : (raiseFault c w s).hstate = s.hstate := by
  unfold raiseFault; split <;> rfl
@[simp] theorem raiseFault_busy (c : FaultCode) (w : Word) : (raiseFault c w s).busy = s.busy := by
  unfold raiseFault; split <;> rfl
@[simp] theorem raiseFault_pend (c : FaultCode) (w : Word) : (raiseFault c w s).pend = s.pend := by
  unfold raiseFault; split <;> rfl
@[simp] theorem raiseFault_ackr (c : FaultCode) (w : Word) : (raiseFault c w s).ackr = s.ackr := by
  unfold raiseFault; split <;> rfl
@[simp] theorem raiseFault_data (c : FaultCode) (w : Word) : (raiseFault c w s).data = s.data := by
  unfold raiseFault; split <;> rfl
@[simp] theorem raiseFault_phase (c : FaultCode) (w : Word) : (raiseFault c w s).phase = s.phase := by
  unfold raiseFault; split <;> rfl
@[simp] theorem raiseFault_bus (c : FaultCode) (w : Word) : (raiseFault c w s).bus = s.bus := by
  unfold raiseFault; split <;> rfl
@[simp] theorem raiseFault_buf (c : FaultCode) (w : Word) : (raiseFault c w s).buf = s.buf := by
  unfold raiseFault; split <;> rfl
@[simp] theorem raiseFault_head (c : FaultCode) (w : Word) : (raiseFault c w s).head = s.head := by
  unfold raiseFault; split <;> rfl
@[simp] theorem raiseFault_tail (c : FaultCode) (w : Word) : (raiseFault c w s).tail = s.tail := by
  unfold raiseFault; split <;> rfl
@[simp] theorem raiseFault_txie (c : FaultCode) (w : Word) : (raiseFault c w s).txie = s.txie := by
  unfold raiseFault; split <;> rfl
@[simp] theorem raiseFault_txReady (c : FaultCode) (w : Word) : (raiseFault c w s).txReady = s.txReady := by
  unfold raiseFault; split <;> rfl
@[simp] theorem raiseFault_serial (c : FaultCode) (w : Word) : (raiseFault c w s).serial = s.serial := by
  unfold raiseFault; split <;> rfl
@[simp] theorem raiseFault_prog (c : FaultCode) (w : Word) : (raiseFault c w s).prog = s.prog := by
  unfold raiseFault; split <;> rfl
@[simp] theorem raiseFault_params (c : FaultCode) (w : Word) : (raiseFault c w s).params = s.params := by
  unfold raiseFault; split <;> rfl
@[simp] theorem raiseFault_schedule (c : FaultCode) (w : Word) : (raiseFault c w s).schedule = s.schedule := by
  unfold raiseFault; split <;> rfl
@[simp] theorem raiseFault_tick (c : FaultCode) (w : Word) : (raiseFault c w s).tick = s.tick := by
  unfold raiseFault; split <;> rfl
@[simp] theorem raiseFault_slaveAcks (c : FaultCode) (w : Word) : (raiseFault c w s).slaveAcks = s.slaveAcks := by
  unfold raiseFault; split <;> rfl
@[simp] theorem raiseFault_slaveBytes (c : FaultCode) (w : Word) : (raiseFault c w s).slaveBytes = s.slaveBytes := by
  unfold raiseFault; split <;> rfl
@[simp] theorem raiseFault_wideAccesses (c : FaultCode) (w : Word) :
    (raiseFault c w s).wideAccesses = s.wideAccesses := by
  unfold raiseFault; split <;> rfl

theorem raiseFault_of_none (c : FaultCode) (w : Word) (h : s.fault = none) :
    raiseFault c w s = { s with fault := some { code := c, pc := s.pc, word := w } } := by
  unfold raiseFault; rw [h]

theorem raiseFault_of_some (c : FaultCode) (w : Word) (r : FaultRecord) (h : s.fault = some r) :
    raiseFault c w s = s := by
  unfold raiseFault; rw [h]

/-! ### The clean launch (R44) -/

@[simp] theorem launch_regs (p : Params) (prog : List Word) : (State.launch p prog).regs = Regs.unwritten := rfl
@[simp] theorem launch_pc (p : Params) (prog : List Word) : (State.launch p prog).pc = 0 := rfl
@[simp] theorem launch_hstate (p : Params) (prog : List Word) : (State.launch p prog).hstate = .run := rfl
@[simp] theorem launch_busy (p : Params) (prog : List Word) : (State.launch p prog).busy = false := rfl
@[simp] theorem launch_pend (p : Params) (prog : List Word) : (State.launch p prog).pend = none := rfl
@[simp] theorem launch_ackr (p : Params) (prog : List Word) : (State.launch p prog).ackr = false := rfl
@[simp] theorem launch_data (p : Params) (prog : List Word) : (State.launch p prog).data = none := rfl
@[simp] theorem launch_phase (p : Params) (prog : List Word) : (State.launch p prog).phase = .idle := rfl
@[simp] theorem launch_bus (p : Params) (prog : List Word) : (State.launch p prog).bus = [] := rfl
@[simp] theorem launch_buf (p : Params) (prog : List Word) : (State.launch p prog).buf = [] := rfl
@[simp] theorem launch_head (p : Params) (prog : List Word) : (State.launch p prog).head = 0#8 := rfl
@[simp] theorem launch_tail (p : Params) (prog : List Word) : (State.launch p prog).tail = 0#8 := rfl
@[simp] theorem launch_txie (p : Params) (prog : List Word) : (State.launch p prog).txie = false := rfl
@[simp] theorem launch_txReady (p : Params) (prog : List Word) : (State.launch p prog).txReady = true := rfl
@[simp] theorem launch_serial (p : Params) (prog : List Word) : (State.launch p prog).serial = [] := rfl
@[simp] theorem launch_fault (p : Params) (prog : List Word) : (State.launch p prog).fault = none := rfl
@[simp] theorem launch_prog (p : Params) (prog : List Word) : (State.launch p prog).prog = prog := rfl
@[simp] theorem launch_params (p : Params) (prog : List Word) : (State.launch p prog).params = p := rfl
@[simp] theorem launch_schedule (p : Params) (prog : List Word) : (State.launch p prog).schedule = [] := rfl
@[simp] theorem launch_tick (p : Params) (prog : List Word) : (State.launch p prog).tick = 0 := rfl
@[simp] theorem launch_slaveAcks (p : Params) (prog : List Word) : (State.launch p prog).slaveAcks = [] := rfl
@[simp] theorem launch_slaveBytes (p : Params) (prog : List Word) : (State.launch p prog).slaveBytes = [] := rfl
@[simp] theorem launch_wideAccesses (p : Params) (prog : List Word) : (State.launch p prog).wideAccesses = [] := rfl

end Sys2Proof.Machine
end

