-- ==== Sys2Proof/Laws/Exec.lean ====
section
/-! SUPPORT. What executing a statement can do, once for each shared operation and once for `exec`. -/

namespace Sys2Proof.Machine

/-- A read statement either raises the access's fault or writes one host register and moves on (R91). -/
theorem accessRead_eq (r : BlkReg) (rd : Reg) (w : Word) (s : State) :
    (∃ c, blkRead (offsetOf r) s = .error c ∧ accessRead r rd w s = .next (raiseFault c w s)) ∨
      (∃ v, blkRead (offsetOf r) s = .ok v ∧ accessRead r rd w s = .next (writeReg rd v s).nextPc) := by
  unfold accessRead
  split
  · rename_i c h; exact .inl ⟨c, h, rfl⟩
  · rename_i v h; exact .inr ⟨v, h, rfl⟩

/-- A write statement either raises the access's fault or has the register's effect and moves on (R91). -/
theorem accessWrite_eq (r : BlkReg) (v : Byte) (w : Word) (s : State) :
    (∃ c, blkWrite (offsetOf r) v s = .error c ∧ accessWrite r v w s = .next (raiseFault c w s)) ∨
      (∃ t, blkWrite (offsetOf r) v s = .ok t ∧ accessWrite r v w s = .next t.nextPc) := by
  unfold accessWrite
  split
  · rename_i c h; exact .inl ⟨c, h, rfl⟩
  · rename_i t h; exact .inr ⟨t, h, rfl⟩

/-- A push statement stalls the host and never faults (R163). -/
theorem accessPush_eq (v : Byte) (w : Word) (s : State) :
    accessPush v w s = .next { s with hstate := .push .p1 v 0#8 } := rfl

/-- A branch either raises UNWRITTEN_REG or sets the pc (R92). -/
theorem branchIf_eq (taken : Byte → Bool) (rs : Reg) (target : Nat) (w : Word) (s : State) :
    (s.regs.get rs = none ∧ branchIf taken rs target w s = .next (raiseFault .unwrittenReg w s)) ∨
      (∃ v, s.regs.get rs = some v ∧
        branchIf taken rs target w s = .next { s with pc := if taken v = true then target else s.pc + 1 }) := by
  unfold branchIf
  cases h : s.regs.get rs with
  | none => rw [readReg_of_unwritten h]; exact .inl ⟨rfl, rfl⟩
  | some v =>
    rw [readReg_of_get h]
    refine .inr ⟨v, rfl, ?_⟩
    by_cases ht : taken v = true <;> simp [ht, State.nextPc]

/-- The effects of a host statement: what `exec` answers is one of these (R91 to R97, R110 to R117, R160 to R163). -/
inductive Effect (i : Instr) (s : State) : State → Prop where
  /-- A fault is recorded and nothing else changes (R191). -/
  | raised (c : FaultCode) : Effect i s (raiseFault c (encode i) s)
  /-- A read statement wrote its destination register. -/
  | read (rd : Reg) (v : Byte) (isRead : i ∈ [.twmRdstatus rd, .twmRddata rd, .txqRdstatus rd, .txqRdhead rd, .txqRdtail rd]) :
      Effect i s (writeReg rd v s).nextPc
  /-- `twm.wrdata` set TWM_DATA. -/
  | wroteData (v : Byte) (isWrite : i = .twmWrdata v) (idle : s.busy = false) :
      Effect i s (State.nextPc { s with data := some v })
  /-- `twm.nop` moved on. -/
  | nop (isNop : i = .twmNop) : Effect i s s.nextPc
  /-- A command was issued. -/
  | issued (c : InFlight) (isCommand : i = commandInstr (commandOf c)) (idle : s.busy = false)
      (legal : commandLegal s.phase (commandOf c) = true)
      (latched : ∀ b, c = .write b → s.data = some b) :
      Effect i s (State.nextPc { s with busy := true, pend := some c })
  /-- `txq.push` stalled the host. -/
  | pushing (b : Byte) (isPush : i = .txqPush b) : Effect i s { s with hstate := .push .p1 b 0#8 }
  /-- A branch set the pc. -/
  | branched (pc : Nat) (isBranch : ∃ rs imm target, i ∈ [.bnz rs imm target, .bz rs imm target, .bne rs imm target]) :
      Effect i s { s with pc := pc }
  /-- `halt` ended the program. -/
  | halted (isHalt : i = .halt) (idle : s.busy = false) (closed : s.phase = .idle) :
      Effect i s { s with hstate := .halted }
  /-- `fatal` stopped the host. -/
  | stopped (isFatal : i = .fatal) : Effect i s { s with hstate := .fatal }

theorem effect_of_read {i : Instr} (r : BlkReg) (rd : Reg) (s : State)
    (hi : i ∈ [.twmRdstatus rd, .twmRddata rd, .txqRdstatus rd, .txqRdhead rd, .txqRdtail rd]) :
    ∃ t, accessRead r rd (encode i) s = .next t ∧ Effect i s t := by
  rcases accessRead_eq r rd (encode i) s with ⟨c, _, h⟩ | ⟨v, _, h⟩
  · exact ⟨_, h, .raised c⟩
  · exact ⟨_, h, .read rd v hi⟩

theorem effect_of_command {i : Instr} (k : Command) (s : State) (hi : i = commandInstr k) :
    ∃ t, accessWrite .twmCtrl (commandCtrl k) (encode i) s = .next t ∧ Effect i s t := by
  rcases accessWrite_eq .twmCtrl (commandCtrl k) (encode i) s with ⟨c, _, h⟩ | ⟨t, ht, h⟩
  · exact ⟨_, h, .raised c⟩
  · rw [blkWrite_commandCtrl] at ht
    obtain ⟨hb, hl, hc⟩ := issueCommand_ok ht
    refine ⟨_, h, ?_⟩
    rcases hc with ⟨rfl, rfl⟩ | ⟨rfl, rfl⟩ | ⟨rfl, rfl⟩ | ⟨b, rfl, hd, rfl⟩ | ⟨a, rfl, rfl⟩
    · exact .nop hi
    · exact .issued .start hi hb hl (fun _ hb => by cases hb)
    · exact .issued .stop hi hb hl (fun _ hb => by cases hb)
    · exact .issued (.write b) hi hb hl (fun _ hb => by cases hb; exact hd)
    · exact .issued (.read a) hi hb hl (fun _ hb => by cases hb)

theorem effect_of_branch {i : Instr} (taken : Byte → Bool) (rs : Reg) (target : Nat) (s : State)
    (hi : ∃ rs imm target, i ∈ [.bnz rs imm target, .bz rs imm target, .bne rs imm target]) :
    ∃ t, branchIf taken rs target (encode i) s = .next t ∧ Effect i s t := by
  rcases branchIf_eq taken rs target (encode i) s with ⟨_, h⟩ | ⟨v, _, h⟩
  · exact ⟨_, h, .raised _⟩
  · exact ⟨_, h, .branched _ hi⟩

/-- Executing a statement answers a next state that is one of its effects: no statement stops the machine. -/
theorem exec_effect (i : Instr) (s : State) : ∃ t, exec i s = .next t ∧ Effect i s t := by
  cases i with
  | twmNop => exact effect_of_command .nop s rfl
  | twmStart => exact effect_of_command .start s rfl
  | twmStop => exact effect_of_command .stop s rfl
  | twmWrite => exact effect_of_command .write s rfl
  | twmReadNack => exact effect_of_command (.read false) s rfl
  | twmReadAck => exact effect_of_command (.read true) s rfl
  | twmWrdata val =>
    show ∃ t, accessWrite .twmData val _ s = .next t ∧ _
    rcases accessWrite_eq .twmData val (encode (.twmWrdata val)) s with ⟨c, _, h⟩ | ⟨t, ht, h⟩
    · exact ⟨_, h, .raised c⟩
    · rw [blkWrite_twmData, writeData] at ht
      split at ht
      · cases ht
      · rename_i hb; cases ht; exact ⟨_, h, .wroteData val rfl (by simpa using hb)⟩
  | twmRdstatus rd => exact effect_of_read .twmStatus rd s (by simp)
  | twmRddata rd => exact effect_of_read .twmData rd s (by simp)
  | txqPush val => exact ⟨_, rfl, .pushing val rfl⟩
  | txqRdstatus rd => exact effect_of_read .txqStatus rd s (by simp)
  | txqRdhead rd => exact effect_of_read .txqHead rd s (by simp)
  | txqRdtail rd => exact effect_of_read .txqTail rd s (by simp)
  | bnz rs imm target => exact effect_of_branch _ rs target s ⟨rs, imm, target, by simp⟩
  | bz rs imm target => exact effect_of_branch _ rs target s ⟨rs, imm, target, by simp⟩
  | bne rs imm target => exact effect_of_branch _ rs target s ⟨rs, imm, target, by simp⟩
  | halt =>
    show ∃ t, execHalt s = .next t ∧ _
    unfold execHalt
    split
    · exact ⟨_, rfl, .raised _⟩
    · rename_i h
      obtain ⟨hb, hp⟩ := not_or.1 h
      exact ⟨_, rfl, .halted rfl (by simpa using hb) (by simpa using hp)⟩
  | fatal => exact ⟨_, rfl, .stopped rfl⟩

/-- The inversion form of `exec_effect`. -/
theorem exec_cases {i : Instr} {s t : State} (h : exec i s = .next t) : Effect i s t := by
  obtain ⟨t', h', he⟩ := exec_effect i s
  rw [h] at h'
  cases h'
  exact he

end Sys2Proof.Machine
end

