-- ==== Sys2Proof/Laws/Step.lean ====
section
/-! SUPPORT. Which agent moves, and everything one step can do. -/

namespace Sys2Proof.Machine

theorem mem_enabledAgents {a : Agent} {s : State} : a ∈ enabledAgents s ↔ enabled a s = true := by
  cases a <;> simp [enabledAgents]

/-- The agent picked is one of those offered. -/
theorem pick_mem {pref : Option Agent} {l : List Agent} {a : Agent} (h : pick pref l = some a) : a ∈ l := by
  match l with
  | [] => cases h
  | [b] => cases h; exact List.mem_singleton.2 rfl
  | b :: c :: rest =>
    cases pref with
    | none => simp only [pick] at h; cases h; exact List.mem_cons_self
    | some d =>
      simp only [pick] at h
      split at h
      · rename_i hd; cases h; exact hd
      · cases h; exact List.mem_cons_self

/-- An offered agent that is preferred is picked. -/
theorem pick_preferred {l : List Agent} {a : Agent} (h : a ∈ l) : pick (some a) l = some a := by
  match l with
  | [] => cases h
  | [b] => rw [List.mem_singleton.1 h]; rfl
  | b :: c :: rest => unfold pick; simp only; rw [if_pos h]

theorem pick_eq_none {pref : Option Agent} {l : List Agent} : pick pref l = none ↔ l = [] := by
  match l with
  | [] => simp [pick]
  | [b] => simp [pick]
  | b :: c :: rest =>
    cases pref with
    | none => simp [pick]
    | some d => simp only [pick, reduceCtorEq, iff_false]; split <;> simp

/-- The agent that moves has an enabled step. -/
theorem nextAgent_enabled {s : State} {a : Agent} (h : nextAgent s = some a) : enabled a s = true :=
  mem_enabledAgents.1 (pick_mem h)

/-- No agent moves exactly when none has an enabled step. -/
theorem nextAgent_eq_none {s : State} : nextAgent s = none ↔ ∀ a, enabled a s = false := by
  rw [nextAgent, pick_eq_none]
  constructor
  · intro h a
    by_contra ha
    have := mem_enabledAgents.2 (Bool.eq_true_of_not_eq_false ha)
    rw [h] at this
    cases this
  · intro h
    refine List.eq_nil_iff_forall_not_mem.2 fun a ha => ?_
    have := mem_enabledAgents.1 ha
    rw [h a] at this
    cases this

theorem fault_none_of_enabled {s : State} {a : Agent} (h : enabled a s = true) : s.fault = none := by
  simp only [enabled, Bool.and_eq_true, Option.isNone_iff_eq_none] at h
  exact h.1

/-- Every fault of a wide access is BAD_ACCESS (R54). -/
theorem wideFault_eq (a : WideAccess) (w : Word) (s : State) :
    wideFault a w s = if reachesWindow s.params a.addr a.width = true then some .badAccess else none := by
  have hw : a.width ≠ 1 := by simp [WideAccess.width]
  unfold wideFault memWrite memRead
  rw [if_pos hw, if_pos hw]
  cases reachesWindow s.params a.addr a.width <;> simp

/-- What a platform's fault says: HOST is in RUN at an access statement, of which the platform makes a wide access that
reaches the window, and the fault is BAD_ACCESS. -/
theorem platformFault_cases {a : Agent} {s : State} {c : FaultCode} {w : Word} (h : platformFault a s = some (c, w)) :
    a = .host ∧ s.hstate = .run ∧ fetch s = some w ∧ isAccess w = true ∧ c = .badAccess ∧
      ∃ acc, s.wideAccesses.head? = some (some acc) ∧ reachesWindow s.params acc.addr acc.width = true := by
  cases a with
  | host =>
    simp only [platformFault] at h
    split at h
    · rename_i w' acc rest hr hf hl
      split at h
      · rename_i ha
        rw [wideFault_eq] at h
        split at h
        · rename_i hreach
          cases h
          exact ⟨rfl, hr, hf, ha, rfl, acc, by rw [hl]; rfl, hreach⟩
        · cases h
      · cases h
    · cases h
  | _ => cases h

/-- What a HOST step in RUN can do: record a fault, or have the effect of the statement at pc. -/
inductive StatementStep (s : State) : State → Prop where
  | pastEnd (h : fetch s = none) : StatementStep s (raiseFault .pcRange (Config.pcRangeWord s.tick) s)
  | badWord (w : Word) (c : FaultCode) (hf : fetch s = some w) (hd : decodeWord w = .error c) :
      StatementStep s (raiseFault c w s)
  | statement (w : Word) (i : Instr) (t : State) (hf : fetch s = some w) (hd : decodeWord w = .ok i)
      (he : Effect i s t) : StatementStep s t

theorem runStatement_cases {s t : State} (h : runStatement s = .next t) : StatementStep s t := by
  unfold runStatement at h
  split at h
  · rename_i hf; cases h; exact .pastEnd hf
  · rename_i w hf
    split at h
    · rename_i c hd; cases h; exact .badWord w c hf hd
    · rename_i i hd; exact .statement w i t hf hd (exec_cases h)

/-- Everything one step can do. -/
inductive StepEffect (s : State) : State → Prop where
  /-- No agent moved (R98). -/
  | stalled (h : stalls s = true) : StepEffect s (consumeChoice s)
  /-- HOST ran the statement at pc (R90). -/
  | hostRun (a : nextAgent s = some .host) (hr : s.hstate = .run) (t : State)
      (e : StatementStep (consumeChoice s) t) : StepEffect s t
  /-- The platform made a wide access of the access statement at pc (R54): BAD_ACCESS, with no other effect. -/
  | widened (a : nextAgent s = some .host) (hr : s.hstate = .run) (w : Word) (hf : fetch s = some w)
      (hp : platformFault .host s = some (.badAccess, w)) : StepEffect s (raiseFault .badAccess w (consumeChoice s))
  /-- HOST took a push micro-step (R164 to R168). -/
  | hostPush (a : nextAgent s = some .host) (st : PushStep) (b : Byte) (n : Index)
      (hp : s.hstate = .push st b n) (hold : st = .p2 → n ≠ s.tail) :
      StepEffect s (pushStep st b n (consumeChoice s))
  /-- ENG completed a command (R119). -/
  | eng (a : nextAgent s = some .eng) (busy : s.busy = true) : StepEffect s (engStep (consumeChoice s))
  /-- DRAIN took its step (R169). -/
  | drain (a : nextAgent s = some .drain) (ie : s.txie = true) (ready : s.txReady = true) :
      StepEffect s (drainStep (consumeChoice s))
  /-- SER took its step (R170). -/
  | ser (a : nextAgent s = some .ser) (taken : s.txReady = false) : StepEffect s (serStep (consumeChoice s))

/-- The inversion lemma of `step`. -/
theorem step_cases {s t : State} (h : step s = .next t) : StepEffect s t := by
  unfold step at h
  split at h
  · cases h
  split at h
  · rename_i hs; cases h; exact .stalled hs
  split at h
  · cases h
  rename_i a ha
  split at h
  · rename_i c w hp
    obtain ⟨rfl, hr, hf, -, rfl, -⟩ := platformFault_cases hp
    cases h
    exact .widened ha hr w hf hp
  have hen := nextAgent_enabled ha
  unfold enabled at hen
  cases a with
  | host =>
    simp only [agentStep, hostStep, consumeChoice_hstate] at h
    split at h
    · rename_i hr; exact .hostRun ha hr t (runStatement_cases h)
    · rename_i st b n hp
      cases h
      refine .hostPush ha st b n hp ?_
      rintro rfl
      simp only [hostReady, hp, Bool.and_eq_true, bne_iff_ne] at hen
      exact hen.2
    · cases h
    · cases h
  | eng =>
    simp only [agentStep] at h; cases h
    exact .eng ha (by simp at hen; exact hen.2)
  | drain =>
    simp only [agentStep] at h; cases h
    exact .drain ha (by simp at hen; exact hen.2.1) (by simp at hen; exact hen.2.2)
  | ser =>
    simp only [agentStep] at h; cases h
    exact .ser ha (by simp at hen; exact hen.2)

/-- A step that answers a next state is taken under no recorded fault (R40). -/
theorem fault_none_of_step {s t : State} (h : step s = .next t) : s.fault = none := by
  unfold step at h
  split at h
  · cases h
  split at h
  · rename_i hs
    simp only [stalls, Bool.and_eq_true, Bool.not_eq_true', List.isEmpty_eq_false_iff] at hs
    obtain ⟨a, ha⟩ := List.exists_mem_of_ne_nil _ hs.1.1
    exact fault_none_of_enabled (mem_enabledAgents.1 ha)
  split at h
  · cases h
  rename_i a ha
  exact fault_none_of_enabled (nextAgent_enabled ha)

/-- A step that answers a next state has a legal capacity (R9). -/
theorem capLegal_of_step {s t : State} (h : step s = .next t) : s.params.capLegal = true := by
  unfold step at h
  split at h
  · cases h
  · rename_i hc; simpa using hc

end Sys2Proof.Machine
end

