-- ==== Sys2Proof/Laws/Agents.lean ====
section
/-! SUPPORT. One lemma for each agent's step that says what it leaves unchanged, when the machine moves or stops, and how the
invariants' parts depend on the state. -/

namespace Sys2Proof.Machine

/-! ## What the agents' steps leave unchanged -/

/-- ENG's step changes `busy`, `pend`, `ackr`, `data`, `phase`, `bus` and the slave's lists, and nothing else (R119). -/
theorem engStep_frame (s : State) :
    engStep s = { s with
      busy := false
      pend := none
      ackr := (engStep s).ackr
      data := (engStep s).data
      phase := (engStep s).phase
      bus := (engStep s).bus
      slaveAcks := (engStep s).slaveAcks
      slaveBytes := (engStep s).slaveBytes } := by
  unfold engStep
  split <;> rfl

/-- DRAIN's step changes `tail`, `txie`, `txReady` and `serial`, and nothing else (R169). -/
theorem drainStep_frame (s : State) :
    drainStep s = { s with
      tail := (drainStep s).tail
      txie := (drainStep s).txie
      txReady := (drainStep s).txReady
      serial := (drainStep s).serial } := by
  unfold drainStep
  split <;> rfl

/-- A push micro-step changes `hstate`, `pc`, `buf`, `head` and `txie`, and nothing else (R164 to R168). -/
theorem pushStep_frame (st : PushStep) (b : Byte) (next : Index) (s : State) :
    pushStep st b next s = { s with
      hstate := (pushStep st b next s).hstate
      pc := (pushStep st b next s).pc
      buf := (pushStep st b next s).buf
      head := (pushStep st b next s).head
      txie := (pushStep st b next s).txie } := by
  cases st <;> rfl

@[simp] theorem engStep_fault (s : State) : (engStep s).fault = s.fault := by rw [engStep_frame]
@[simp] theorem drainStep_fault (s : State) : (drainStep s).fault = s.fault := by rw [drainStep_frame]
@[simp] theorem pushStep_fault (st : PushStep) (b : Byte) (next : Index) (s : State) :
    (pushStep st b next s).fault = s.fault := by rw [pushStep_frame]

/-! ## When the machine moves and when it stops -/

/-- A machine on which HOST moves does not stall: HOST is weakly fair (R98). -/
theorem not_stalls_of_host {s : State} (h : nextAgent s = some .host) : stalls s = false := by
  have : (enabledAgents s).any (weaklyFair s.params) = true :=
    List.any_eq_true.2 ⟨.host, mem_enabledAgents.2 (nextAgent_enabled h), rfl⟩
  simp [stalls, this]

theorem step_of_moves {a : Agent} {s : State} (hc : s.params.capLegal = true) (h : moves a s)
    (hp : platformFault a s = none) : step s = agentStep a (consumeChoice s) := by
  unfold step
  rw [if_neg (by simp [hc]), h.1, h.2]
  simp [hp]

theorem step_of_host {s : State} (hc : s.params.capLegal = true) (h : nextAgent s = some .host)
    (hp : platformFault .host s = none) : step s = hostStep (consumeChoice s) :=
  step_of_moves hc ⟨not_stalls_of_host h, h⟩ hp

/-- An access statement of which the platform makes a wide access of the window (R54). -/
theorem step_of_platformFault {s : State} {c : FaultCode} {w : Word} (hc : s.params.capLegal = true)
    (h : nextAgent s = some .host) (hp : platformFault .host s = some (c, w)) :
    step s = .next (raiseFault c w (consumeChoice s)) := by
  unfold step
  rw [if_neg (by simp [hc]), if_neg (by simp [not_stalls_of_host h]), h]
  simp [hp]

/-- The platform widens access statements only. -/
theorem platformFault_of_not_run {s : State} (h : s.hstate ≠ .run) : platformFault .host s = none := by
  cases hp : platformFault .host s with
  | none => rfl
  | some r => exact absurd (platformFault_cases hp).2.1 h

theorem step_of_none_enabled {s : State} (hc : s.params.capLegal = true) (h : ∀ a, enabled a s = false) :
    step s = .fault (stopReason s) := by
  have hn := nextAgent_eq_none.2 h
  have he : enabledAgents s = [] := by rwa [nextAgent, pick_eq_none] at hn
  unfold step
  rw [if_neg (by simp [hc]), if_neg (by simp [stalls, he]), hn]

/-- An enabled agent's step always gives a next state. -/
theorem agentStep_next {a : Agent} {s : State} (h : enabled a s = true) :
    ∃ t, agentStep a (consumeChoice s) = .next t := by
  cases a with
  | host =>
    have hr : hostReady s = true := by
      simp only [enabled, Bool.and_eq_true] at h
      exact h.2
    show ∃ t, hostStep (consumeChoice s) = .next t
    unfold hostStep
    unfold hostReady at hr
    cases hs : s.hstate <;> simp [hs] at hr ⊢
    unfold runStatement
    split
    · exact ⟨_, rfl⟩
    · split
      · exact ⟨_, rfl⟩
      · obtain ⟨t, h, _⟩ := exec_effect ‹_› (consumeChoice s)
        exact ⟨t, h⟩
  | _ => exact ⟨_, rfl⟩

/-! ## The invariants' parts -/

theorem tracePhase_append (trace : List BusEvent) (e : BusEvent) :
    tracePhase (trace ++ [e]) = (tracePhase trace).bind fun q => phaseAfter q e := by
  simp [tracePhase, List.foldl_append]

/-- TWM's invariant reads five fields only. -/
theorem TwmInv.of_eq {s t : State} (h : TwmInv s) (busy : t.busy = s.busy) (pend : t.pend = s.pend)
    (bus : t.bus = s.bus) (phase : t.phase = s.phase) (data : t.data = s.data) : TwmInv t where
  busy_iff_pend := by rw [busy, pend]; exact h.busy_iff_pend
  trace_phase := by rw [bus, phase]; exact h.trace_phase
  pend_legal := by rw [pend, phase]; exact h.pend_legal
  write_latched := by rw [pend, data]; exact h.write_latched

/-- What the FIFO has accepted depends on five fields only. -/
theorem accepted_of_eq {s t : State} (head : t.head = s.head) (tail : t.tail = s.tail) (buf : t.buf = s.buf)
    (serial : t.serial = s.serial) (params : t.params = s.params) : accepted t = accepted s := by
  unfold accepted queued fifoCount slotAt
  rw [head, tail, buf, serial, params]

end Sys2Proof.Machine
end

