-- ==== Sys2Proof/Laws/Encoding.lean ====
section
/-! SUPPORT. The fields of encoded words, and what the decoder reads from them. -/

namespace Sys2Proof

@[simp] theorem regOf_regCode (r : Reg) : regOf (regCode r) = r := by cases r <;> rfl

theorem regCode_regOf (c : BitVec 3) : regCode (regOf c) = c := by
  revert c; decide

/-- An appended value as a number. -/
theorem append_toNat {m n : Nat} (x : BitVec m) (y : BitVec n) :
    (x ++ y).toNat = x.toNat * 2 ^ n + y.toNat := by
  rw [BitVec.toNat_append, ← Nat.shiftLeft_add_eq_or_of_lt y.isLt, Nat.shiftLeft_eq]

/-- A field as a number. -/
theorem field_toNat {w : Nat} (x : BitVec w) (lo len : Nat) :
    (x.extractLsb' lo len).toNat = x.toNat / 2 ^ lo % 2 ^ len := by
  simp [BitVec.extractLsb'_toNat, Nat.shiftRight_eq_div_pow]

/-- A bit as a number. -/
theorem bit_eq {w : Nat} (x : BitVec w) (i : Nat) : x.getLsbD i = decide (x.toNat / 2 ^ i % 2 = 1) := by
  rw [BitVec.getLsbD, Nat.testBit_eq_decide_div_mod_eq]

/-- A format-A word as a number (R71, R72). -/
theorem encodeAccess_toNat (rd : BitVec 3) (write : Bool) (off : BitVec 7) (val : Byte) :
    (encodeAccess rd (accessWord write off val)).toNat =
      rd.toNat * 2 ^ 16 + (BitVec.ofBool write).toNat * 2 ^ 15 + off.toNat * 2 ^ 8 + val.toNat := by
  simp only [encodeAccess, accessWord, append_toNat, BitVec.toNat_ofNat]
  omega

/-- A format-B word as a number (R73). -/
theorem encodeBranch_toNat (kind : BitVec 4) (rs : Reg) (imm : Byte) (target : Nat) :
    (encodeBranch kind rs imm target).toNat =
      kind.toNat * 2 ^ 28 + (regCode rs).toNat * 2 ^ 24 + imm.toNat * 2 ^ 16 + target % 2 ^ 16 := by
  simp only [encodeBranch, append_toNat, BitVec.toNat_ofNat]
  omega

section Fields
variable (rd : BitVec 3) (write : Bool) (off : BitVec 7) (val : Byte)

@[simp] theorem kindOf_encodeAccess : kindOf (encodeAccess rd (accessWord write off val)) = 0x0#4 := by
  apply BitVec.eq_of_toNat_eq
  have := rd.isLt; have := off.isLt; have := val.isLt; have := (BitVec.ofBool write).isLt
  simp only [kindOf, field_toNat, encodeAccess_toNat, BitVec.toNat_ofNat]
  omega

@[simp] theorem reserved_encodeAccess :
    (encodeAccess rd (accessWord write off val)).extractLsb' 19 9 = 0#9 := by
  apply BitVec.eq_of_toNat_eq
  have := rd.isLt; have := off.isLt; have := val.isLt; have := (BitVec.ofBool write).isLt
  simp only [field_toNat, encodeAccess_toNat, BitVec.toNat_ofNat]
  omega

@[simp] theorem writeBit_encodeAccess : writeBit (encodeAccess rd (accessWord write off val)) = write := by
  have := rd.isLt; have := off.isLt; have := val.isLt
  rw [writeBit, bit_eq, encodeAccess_toNat]
  cases write
  · rw [decide_eq_false_iff_not]
    have h : (BitVec.ofBool false).toNat = 0 := rfl
    omega
  · rw [decide_eq_true_iff]
    have h : (BitVec.ofBool true).toNat = 1 := rfl
    omega

@[simp] theorem offField_encodeAccess : offField (encodeAccess rd (accessWord write off val)) = off := by
  apply BitVec.eq_of_toNat_eq
  have := rd.isLt; have := off.isLt; have := val.isLt; have := (BitVec.ofBool write).isLt
  simp only [offField, field_toNat, encodeAccess_toNat]
  omega

@[simp] theorem valField_encodeAccess : valField (encodeAccess rd (accessWord write off val)) = val := by
  apply BitVec.eq_of_toNat_eq
  have := rd.isLt; have := off.isLt; have := val.isLt; have := (BitVec.ofBool write).isLt
  simp only [valField, field_toNat, encodeAccess_toNat]
  omega

@[simp] theorem rdField_encodeAccess : rdField (encodeAccess rd (accessWord write off val)) = rd := by
  apply BitVec.eq_of_toNat_eq
  have := rd.isLt; have := off.isLt; have := val.isLt; have := (BitVec.ofBool write).isLt
  simp only [rdField, field_toNat, encodeAccess_toNat]
  omega

end Fields

section BranchFields
variable (kind : BitVec 4) (rs : Reg) (imm : Byte) (target : Nat)

@[simp] theorem kindOf_encodeBranch : kindOf (encodeBranch kind rs imm target) = kind := by
  apply BitVec.eq_of_toNat_eq
  have := kind.isLt; have := (regCode rs).isLt; have := imm.isLt
  simp only [kindOf, field_toNat, encodeBranch_toNat]
  omega

@[simp] theorem reserved_encodeBranch : (encodeBranch kind rs imm target).getLsbD 27 = false := by
  have := kind.isLt; have := (regCode rs).isLt; have := imm.isLt
  rw [bit_eq, encodeBranch_toNat, decide_eq_false_iff_not]
  omega

@[simp] theorem rsField_encodeBranch : rsField (encodeBranch kind rs imm target) = regCode rs := by
  apply BitVec.eq_of_toNat_eq
  have := kind.isLt; have := (regCode rs).isLt; have := imm.isLt
  simp only [rsField, field_toNat, encodeBranch_toNat]
  omega

@[simp] theorem immField_encodeBranch : immField (encodeBranch kind rs imm target) = imm := by
  apply BitVec.eq_of_toNat_eq
  have := kind.isLt; have := (regCode rs).isLt; have := imm.isLt
  simp only [immField, field_toNat, encodeBranch_toNat]
  omega

theorem targetField_encodeBranch (h : target < 2 ^ 16) :
    targetField (encodeBranch kind rs imm target) = target := by
  have := kind.isLt; have := (regCode rs).isLt; have := imm.isLt
  simp only [targetField, field_toNat, encodeBranch_toNat]
  omega

end BranchFields

/-! ## What the decoder reads -/

/-- A format-A write of the window (R77). -/
theorem decodeWord_encodeWrite (off : BitVec 7) (val : Byte) :
    decodeWord (encodeWrite off val) =
      if off = 0x00#7 then
        match ctrlCommand val with
        | some c => .ok (commandInstr c)
        | none => .error .badCmd
      else if off = 0x02#7 then .ok (.twmWrdata val)
      else if off = 0x08#7 then .ok (.txqPush val)
      else .error .badAccess := by
  simp [decodeWord, decodeAccess, encodeWrite] <;> rfl

/-- A format-A read of the window (R77). -/
theorem decodeWord_encodeRead (rd : Reg) (off : BitVec 7) :
    decodeWord (encodeRead rd off) =
      if off = 0x01#7 then .ok (.twmRdstatus rd)
      else if off = 0x02#7 then .ok (.twmRddata rd)
      else if off = 0x09#7 then .ok (.txqRdstatus rd)
      else if off = 0x0A#7 then .ok (.txqRdhead rd)
      else if off = 0x0B#7 then .ok (.txqRdtail rd)
      else .error .badAccess := by
  simp [decodeWord, decodeAccess, encodeRead]

/-- A format-B word (R77). -/
theorem decodeBranch_encodeBranch (make : Reg → Byte → Nat → Instr) (kind : BitVec 4) (rs : Reg) (imm : Byte)
    (target : Nat) (h : target < 2 ^ 16) :
    decodeBranch make (encodeBranch kind rs imm target) = .ok (make rs imm target) := by
  unfold decodeBranch
  rw [reserved_encodeBranch, rsField_encodeBranch, immField_encodeBranch, targetField_encodeBranch _ _ _ _ h,
    regOf_regCode]
  rfl

theorem ctrlCommand_commandCtrl (c : Command) : ctrlCommand (commandCtrl c) = some c := by
  rcases c with _ | _ | _ | _ | (_ | _) <;> rfl

/-! ## What a word's fields say of the word -/

theorem commandCtrl_of_ctrlCommand : ∀ (v : Byte) (c : Command), ctrlCommand v = some c → v = commandCtrl c := by
  decide +revert

theorem encode_commandInstr (c : Command) : encode (commandInstr c) = encodeWrite 0x00#7 (commandCtrl c) := by
  rcases c with _ | _ | _ | _ | (_ | _) <;> rfl

/-- A word of KIND 0 with no reserved bit set is the format-A word of its fields (R71, R72). -/
theorem eq_encodeAccess (w : Word) (hk : kindOf w = 0#4) (hr : w.extractLsb' 19 9 = 0#9) :
    w = encodeAccess (rdField w) (accessWord (writeBit w) (offField w) (valField w)) := by
  apply BitVec.eq_of_toNat_eq
  have hk := congrArg BitVec.toNat hk
  have hr := congrArg BitVec.toNat hr
  have hw : (BitVec.ofBool (writeBit w)).toNat = w.toNat / 2 ^ 15 % 2 := by
    rw [writeBit, bit_eq]
    by_cases h : w.toNat / 2 ^ 15 % 2 = 1
    · rw [h]; rfl
    · rw [show w.toNat / 2 ^ 15 % 2 = 0 by omega]; rfl
  rw [encodeAccess_toNat, hw]
  simp only [kindOf, rdField, offField, valField, field_toNat, BitVec.toNat_ofNat] at *
  have := w.isLt
  omega

/-- A word with bit 27 clear is the format-B word of its fields (R73). -/
theorem eq_encodeBranch (w : Word) (hr : w.getLsbD 27 = false) :
    w = encodeBranch (kindOf w) (regOf (rsField w)) (immField w) (targetField w) := by
  apply BitVec.eq_of_toNat_eq
  rw [encodeBranch_toNat, regCode_regOf]
  rw [bit_eq, decide_eq_false_iff_not] at hr
  simp only [kindOf, rsField, immField, targetField, field_toNat] at *
  have := w.isLt
  omega

/-- A word with its low 28 bits clear is the format-Z word of its KIND (R74). -/
theorem eq_encodeBare (w : Word) (hz : w.extractLsb' 0 28 = 0#28) : w = encodeBare (kindOf w) := by
  apply BitVec.eq_of_toNat_eq
  have hz := congrArg BitVec.toNat hz
  simp only [encodeBare, append_toNat, kindOf, field_toNat, BitVec.toNat_ofNat] at *
  have := w.isLt
  omega

/-- A read's word written as R76 writes it: the match with RD put in. -/
theorem encodeRead_eq (rd : Reg) (off : BitVec 7) :
    encodeRead rd off = (off.setWidth 32 <<< 8) ||| (regCode rd).setWidth 32 <<< 16 := by
  cases rd <;> revert off <;> decide

/-- The words of `twm.wrdata` and `txq.push` written as R76 writes them: the match with VAL put in. -/
theorem encodeWrite_data_eq : ∀ v : Byte, encodeWrite 0x02#7 v = 0x00008200#32 ||| v.setWidth 32 ∧
    encodeWrite 0x08#7 v = 0x00008800#32 ||| v.setWidth 32 := by decide

/-- A field of a masked word is the masked field. -/
theorem extractLsb'_and (x y : Word) (lo len : Nat) :
    (x &&& y).extractLsb' lo len = x.extractLsb' lo len &&& y.extractLsb' lo len := by
  ext i hi
  simp

end Sys2Proof
end

