-- ==== Sys2Proof/Laws/Invariant.lean ====
section
/-! SUPPORT. The invariant of a concrete state as a Bool that evaluates, and fairness of a run that comes to a stop. -/

namespace Sys2Proof.Machine

/-- `TwmInv` as a Bool. -/
def twmInvCheck (s : State) : Bool :=
  s.busy == s.pend.isSome && tracePhase s.bus == some s.phase &&
    match s.pend with
    | none => true
    | some c => commandLegal s.phase (commandOf c) &&
        match c with
        | .write b => s.data == some b
        | _ => true

/-- `TxqInv`'s micro-step clause as a Bool. -/
def pushInvCheck (s : State) : Bool :=
  match s.hstate with
  | .push .p2 _ next => next == nextIndex s.params s.head
  | .push .p3 _ next => next == nextIndex s.params s.head && next != s.tail
  | .push .p4 b next => next == nextIndex s.params s.head && next != s.tail && s.buf.read next.toNat == some b
  | .push .p5 _ next => next == s.head
  | _ => true

/-- `TxqInv` as a Bool. -/
def txqInvCheck (s : State) : Bool :=
  s.head &&& mask s.params == s.head && s.tail &&& mask s.params == s.tail && decide s.buf.wf &&
    s.buf.all (fun c => decide (c.1 < s.params.txqCap)) &&
    (List.range (fifoCount s)).all (fun j => (s.buf.read (slotAt s (j + 1)).toNat).isSome) &&
    (s.head == s.tail || s.txie || atP5 s) && (s.txie || s.txReady) && pushInvCheck s

/-- `HostInv` as a Bool. -/
def hostInvCheck (s : State) : Bool :=
  (match s.hstate with
    | .push _ b _ => fetch s == some (encode (.txqPush b))
    | .halted => !s.busy && decide (s.phase = .idle)
    | _ => true) &&
  match s.fault with
  | none => true
  | some r => r.pc == s.pc && decide (s.hstate = .run) &&
      (fetch s == some r.word || (fetch s == none && decide (r.code = .pcRange)))

theorem twmInv_of_check {s : State} (h : twmInvCheck s = true) : TwmInv s := by
  simp only [twmInvCheck, Bool.and_eq_true, beq_iff_eq] at h
  obtain ⟨⟨h1, h2⟩, h3⟩ := h
  refine ⟨h1, h2, fun c hc => ?_, fun b hb => ?_⟩
  · rw [hc] at h3
    simp only [Bool.and_eq_true] at h3
    exact h3.1
  · rw [hb] at h3
    simp only [Bool.and_eq_true, beq_iff_eq] at h3
    exact h3.2

theorem pushInv_of_check {s : State} (h : pushInvCheck s = true) : pushInv s := by
  unfold pushInvCheck at h
  unfold pushInv
  cases hs : s.hstate with
  | push st b next =>
    rw [hs] at h
    cases st <;> first | trivial | simpa [and_assoc] using h
  | _ => trivial

theorem txqInv_of_check {s : State} (h : txqInvCheck s = true) : TxqInv s := by
  simp only [txqInvCheck, Bool.and_eq_true, beq_iff_eq, decide_eq_true_eq, List.all_eq_true, List.mem_range,
    Bool.or_eq_true] at h
  obtain ⟨⟨⟨⟨⟨⟨⟨h1, h2⟩, h3⟩, h4⟩, h5⟩, h6⟩, h7⟩, h8⟩ := h
  refine ⟨h1, h2, h3, h4, fun j hj1 hj2 => ?_, fun hne => ?_, h7, pushInv_of_check h8⟩
  · obtain ⟨k, rfl⟩ : ∃ k, j = k + 1 := ⟨j - 1, by omega⟩
    exact h5 k (by omega)
  · rcases h6 with (h6 | h6) | h6
    · exact absurd h6 hne
    · exact .inl h6
    · exact .inr h6

theorem hostInv_of_check {s : State} (h : hostInvCheck s = true) : HostInv s := by
  simp only [hostInvCheck, Bool.and_eq_true] at h
  obtain ⟨h1, h2⟩ := h
  refine ⟨fun st b n hs => ?_, fun hs => ?_, fun r hr => ?_⟩
  · rw [hs] at h1
    simpa using h1
  · rw [hs] at h1
    simpa using h1
  · rw [hr] at h2
    simp only [Bool.and_eq_true, beq_iff_eq, decide_eq_true_eq, Bool.or_eq_true] at h2
    exact ⟨h2.1.1, h2.1.2, h2.2⟩

/-- The invariant of a concrete state, by evaluation. -/
theorem inv_of_check {s : State} (hc : s.params.capLegal = true) (h1 : twmInvCheck s = true)
    (h2 : txqInvCheck s = true) (h3 : hostInvCheck s = true) : Inv s :=
  ⟨hc, twmInv_of_check h1, txqInv_of_check h2, hostInv_of_check h3⟩

/-- A run that comes to a stop is fair (R98): from there on no agent has an enabled step. -/
theorem fairRun_of_stop {r : Nat → State} (h : IsRun r) (n : Nat)
    (stop : ∀ m, n ≤ m → ∀ a, enabled a (r m) = false) : FairRun r := by
  refine ⟨h, fun a _ k hk => ?_⟩
  have h1 := hk (max n k) (by omega)
  rw [stop (max n k) (by omega) a] at h1
  cases h1

end Sys2Proof.Machine
end

