-- ==== Sys2Proof/Laws/PerInstr.lean ====
section
/-! SUPPORT. Facts about every host statement as syntax, one lemma per constructor. -/

namespace Sys2Proof.Laws.RoundTrip

/-- Decoding a well-formed statement's word gives the statement back. -/
def Statement (i : Instr) : Prop := i.wellFormed = true → decodeWord (encode i) = .ok i

theorem twmNop : Statement .twmNop := fun _ => by decide
theorem twmStart : Statement .twmStart := fun _ => by decide
theorem twmStop : Statement .twmStop := fun _ => by decide
theorem twmWrite : Statement .twmWrite := fun _ => by decide
theorem twmReadNack : Statement .twmReadNack := fun _ => by decide
theorem twmReadAck : Statement .twmReadAck := fun _ => by decide
theorem twmWrdata (val : Byte) : Statement (.twmWrdata val) := fun _ => by
  simp [encode, decodeWord_encodeWrite]
theorem twmRdstatus (rd : Reg) : Statement (.twmRdstatus rd) := fun _ => by
  simp [encode, decodeWord_encodeRead]
theorem twmRddata (rd : Reg) : Statement (.twmRddata rd) := fun _ => by
  simp [encode, decodeWord_encodeRead]
theorem txqPush (val : Byte) : Statement (.txqPush val) := fun _ => by
  simp [encode, decodeWord_encodeWrite]
theorem txqRdstatus (rd : Reg) : Statement (.txqRdstatus rd) := fun _ => by
  simp [encode, decodeWord_encodeRead]
theorem txqRdhead (rd : Reg) : Statement (.txqRdhead rd) := fun _ => by
  simp [encode, decodeWord_encodeRead]
theorem txqRdtail (rd : Reg) : Statement (.txqRdtail rd) := fun _ => by
  simp [encode, decodeWord_encodeRead]
theorem bnz (rs : Reg) (imm : Byte) (target : Nat) : Statement (.bnz rs imm target) := fun h => by
  simp only [Instr.wellFormed, decide_eq_true_eq] at h
  simpa [encode, decodeWord] using decodeBranch_encodeBranch _ _ rs imm target h
theorem bz (rs : Reg) (imm : Byte) (target : Nat) : Statement (.bz rs imm target) := fun h => by
  simp only [Instr.wellFormed, decide_eq_true_eq] at h
  simpa [encode, decodeWord] using decodeBranch_encodeBranch _ _ rs imm target h
theorem bne (rs : Reg) (imm : Byte) (target : Nat) : Statement (.bne rs imm target) := fun h => by
  simp only [Instr.wellFormed, decide_eq_true_eq] at h
  simpa [encode, decodeWord] using decodeBranch_encodeBranch _ _ rs imm target h
theorem halt : Statement .halt := fun _ => by decide
theorem fatal : Statement .fatal := fun _ => by decide

end Sys2Proof.Laws.RoundTrip
end

