-- ==== Sys2Proof/Tests/Slice0.lean ====
section
/-! SUPPORT. Tests on small fixed values. Expected results come from the spec: its encodings (R71 to R76), its derived vectors
(95_test_vectors.md V1 to V8, P1 to P6) and the rules' worked examples. Then one witness for each statement that has
hypotheses. -/

namespace Sys2Proof.Tests

open Sys2Proof.Machine

/-! ## Helpers -/

/-- The next state, if the outcome is one. -/
def nextOf (o : Host.Outcome State Fault Refusal) : Option State :=
  match o with
  | .next t => some t
  | _ => none

/-- The fault outcome, if it is one. -/
def stopOf (o : Host.Outcome State Fault Refusal) : Option Fault :=
  match o with
  | .fault f => some f
  | _ => none

/-- The refusal, if it is one. -/
def refusalOf (o : Host.Outcome State Fault Refusal) : Option Refusal :=
  match o with
  | .refused r => some r
  | _ => none

/-- What a fault record says, as numbers: (code, pc, word) (R190). -/
def recorded (s : State) : Option (Nat × Nat × Nat) :=
  s.fault.map fun r => (faultNumber r.code, r.pc, r.word.toNat)

/-- A clean launch with TXQ_CAP = 4 and DEV_ADDR = 0x48 (95_test_vectors.md). -/
def launch (prog : List Word) : State := State.launch Params.reset prog

/-- A state at pc 4, as V2's statements stand. -/
def at4 (rs : Regs) : State := { State.reset with pc := 4, regs := rs }

/-- A TWM state: phase, busy, and `data`. -/
def twmAt (phase : Phase) (busy : Bool) (data : Option Byte) : State :=
  { State.reset with phase := phase, busy := busy, data := data }

/-- A TXQ state: head, tail, txie, tx_ready. -/
def txqAt (head tail : Index) (txie ready : Bool) : State :=
  { State.reset with head := head, tail := tail, txie := txie, txReady := ready }

/-- The event a command's completion emits, with its answer given; `none` where the issue faults (V4). -/
def cellEvent (phase : Phase) (c : Command) : Option BusEvent :=
  (nextOf (exec (commandInstr c) { twmAt phase false (some 0x90#8) with slaveAcks := [true], slaveBytes := [0x55#8] })).bind
    fun t => (engStep t).bus.head?

/-! ## Well-formedness: an ill-formed term for each check -/

theorem test_wf_bnz_target_too_wide : (Instr.bnz .r0 0#8 65536).wellFormed = false := by decide
theorem test_wf_bz_target_too_wide : (Instr.bz .r0 0#8 65536).wellFormed = false := by decide
theorem test_wf_bne_target_too_wide : (Instr.bne .r0 0#8 65536).wellFormed = false := by decide
theorem test_wf_target_widest : (Instr.bne .r0 0#8 65535).wellFormed = true := by decide
theorem test_wf_pseudo_pointers :
    (Pseudo.writeRegister 0x04#8 0#16).wellFormed = false ∧ (Pseudo.writeRegister 0x03#8 0#16).wellFormed = true ∧
    (Pseudo.readRegister 0x04#8 .r0 .r1).wellFormed = false := by decide
theorem test_wf_pseudo_scratch :
    (Pseudo.readRegister 0x00#8 .r7 .r1).wellFormed = false ∧ (Pseudo.readRegister 0x00#8 .r0 .r7).wellFormed = false ∧
    (Pseudo.readRegister 0x00#8 .r0 .r1).wellFormed = true := by decide
theorem test_wf_params_capacity :
    ({ Params.reset with txqCap := 0 }).wellFormed = false ∧ ({ Params.reset with txqCap := 1 }).wellFormed = false ∧
    ({ Params.reset with txqCap := 3 }).wellFormed = false ∧ ({ Params.reset with txqCap := 512 }).wellFormed = false ∧
    ({ Params.reset with txqCap := 2 }).wellFormed = true ∧ ({ Params.reset with txqCap := 256 }).wellFormed = true := by
  decide
theorem test_wf_params_rate : ({ Params.reset with fScl := 0 }).wellFormed = false ∧ Params.reset.wellFormed = true := by
  decide
theorem test_asm_refuses_ill_formed :
    assembleStmt Params.reset [] 0 (.core (.bnz .r0 0#8 65536)) = none ∧
    assembleStmt Params.reset [] 0 (.pseudo (.writeRegister 0x04#8 0#16)) = none ∧
    assembleStmt Params.reset [] 0 (.pseudo (.readRegister 0x00#8 .r7 .r1)) = none := by decide

/-! ## Decoding: each constructor's word, written out field by field from R71 to R74 -/

theorem test_decode_twmNop : decodeWord 0b0000_000000000_000_1_0000000_00000000#32 = .ok .twmNop := by decide
theorem test_decode_twmStart : decodeWord 0b0000_000000000_000_1_0000000_00000001#32 = .ok .twmStart := by decide
theorem test_decode_twmStop : decodeWord 0b0000_000000000_000_1_0000000_00000010#32 = .ok .twmStop := by decide
theorem test_decode_twmWrite : decodeWord 0b0000_000000000_000_1_0000000_00000011#32 = .ok .twmWrite := by decide
theorem test_decode_twmReadNack : decodeWord 0b0000_000000000_000_1_0000000_00000100#32 = .ok .twmReadNack := by decide
theorem test_decode_twmReadAck : decodeWord 0b0000_000000000_000_1_0000000_00001100#32 = .ok .twmReadAck := by decide
theorem test_decode_twmWrdata :
    decodeWord 0b0000_000000000_000_1_0000010_10010000#32 = .ok (.twmWrdata 0x90#8) := by decide
theorem test_decode_twmRdstatus :
    decodeWord 0b0000_000000000_111_0_0000001_00000000#32 = .ok (.twmRdstatus .r7) := by decide
theorem test_decode_twmRddata :
    decodeWord 0b0000_000000000_001_0_0000010_00000000#32 = .ok (.twmRddata .r1) := by decide
theorem test_decode_txqPush :
    decodeWord 0b0000_000000000_000_1_0001000_01000001#32 = .ok (.txqPush 0x41#8) := by decide
theorem test_decode_txqRdstatus :
    decodeWord 0b0000_000000000_011_0_0001001_00000000#32 = .ok (.txqRdstatus .r3) := by decide
theorem test_decode_txqRdhead :
    decodeWord 0b0000_000000000_000_0_0001010_00000000#32 = .ok (.txqRdhead .r0) := by decide
theorem test_decode_txqRdtail :
    decodeWord 0b0000_000000000_101_0_0001011_00000000#32 = .ok (.txqRdtail .r5) := by decide
theorem test_decode_bnz :
    decodeWord 0b0001_0_111_00000001_0000000000000101#32 = .ok (.bnz .r7 0x01#8 5) := by decide
theorem test_decode_bz :
    decodeWord 0b0010_0_000_00000000_0000000000110111#32 = .ok (.bz .r0 0x00#8 55) := by decide
theorem test_decode_bne :
    decodeWord 0b0011_0_001_10000011_0000000000110110#32 = .ok (.bne .r1 0x83#8 54) := by decide
theorem test_decode_halt : decodeWord 0b1110_0000000000000000000000000000#32 = .ok .halt := by decide
theorem test_decode_fatal : decodeWord 0b1111_0000000000000000000000000000#32 = .ok .fatal := by decide

/-- V1's words that name no legal command. -/
theorem test_decode_bad_cmd :
    ([0x00008005, 0x00008007, 0x00008008, 0x0000800B, 0x00008013].map fun w => decodeWord (BitVec.ofNat 32 w)) =
      List.replicate 5 (.error .badCmd) := by decide
/-- V1's illegal words. -/
theorem test_decode_illegal :
    ([0x00018001, 0x00080100, 0x00000101, 0x50000000, 0xD0000000, 0x18000000, 0xE0000001, 0x00018005].map
      fun w => decodeWord (BitVec.ofNat 32 w)) = List.replicate 8 (.error .illegalStatement) := by decide
/-- V1's words that reach a register they may not. -/
theorem test_decode_bad_access :
    ([0x00000000, 0x00008100, 0x00000300, 0x00000800, 0x00008A00, 0x00008C00, 0x0000FF00].map
      fun w => decodeWord (BitVec.ofNat 32 w)) = List.replicate 7 (.error .badAccess) := by decide
/-- The table's numbering: bit 0 is HSW[0]; bits above the row's 32 are not read. -/
theorem test_decodeTableWord :
    decodeTableWord 32 0x31830036 = some (.bne .r1 0x83#8 54) ∧ decodeTableWord 32 0x00008005 = none := by decide

/-! ## Host branches, halt and fatal (V2) -/

theorem test_bnz_taken :
    (nextOf (exec (.bnz .r7 0x01#8 3) (at4 (Regs.unwritten.set .r7 0x05#8)))).map State.pc = some 3 := by decide
theorem test_bnz_mask_zero_falls_through :
    (nextOf (exec (.bnz .r7 0x00#8 3) (at4 (Regs.unwritten.set .r7 0xFF#8)))).map State.pc = some 5 := by decide
theorem test_bz_taken :
    (nextOf (exec (.bz .r0 0x01#8 9) (at4 (Regs.unwritten.set .r0 0x04#8)))).map State.pc = some 9 := by decide
theorem test_bz_falls_through :
    (nextOf (exec (.bz .r0 0x01#8 9) (at4 (Regs.unwritten.set .r0 0x05#8)))).map State.pc = some 5 := by decide
theorem test_bne_equal_falls_through :
    (nextOf (exec (.bne .r1 0x83#8 50) (at4 (Regs.unwritten.set .r1 0x83#8)))).map State.pc = some 5 := by decide
theorem test_bne_taken :
    (nextOf (exec (.bne .r1 0x83#8 50) (at4 (Regs.unwritten.set .r1 0x84#8)))).map State.pc = some 50 := by decide
theorem test_branch_unwritten :
    (nextOf (exec (.bnz .r2 0x01#8 3) (at4 Regs.unwritten))).bind recorded = some (3, 4, 0x12010003) := by decide
theorem test_halt_idle :
    (nextOf (exec .halt (at4 Regs.unwritten))).map (fun t => (t.hstate, t.pc)) = some (.halted, 4) := by decide
theorem test_halt_open_transaction :
    (nextOf (exec .halt (twmAt .tx false none))).bind recorded = some (10, 0, 0xE0000000) ∧
    (nextOf (exec .halt { twmAt .idle true none with pend := some .start })).bind recorded =
      some (10, 0, 0xE0000000) := by decide
theorem test_fatal :
    (nextOf (exec .fatal (at4 Regs.unwritten))).map (fun t => (t.hstate, t.pc, t.fault)) =
      some (.fatal, 4, none) := by decide

/-! ## TWM register accesses and commands (V3, V4) -/

/-- V3's rows. -/
theorem test_twmRdstatus :
    [twmStatus (twmAt .idle false none), twmStatus (twmAt .idle true none), twmStatus (twmAt .addr false none),
      twmStatus { twmAt .tx false none with ackr := true }, twmStatus (twmAt .tx false none)] ++
    [twmStatus { twmAt .tx true none with ackr := true }, twmStatus { twmAt .rx false none with ackr := true },
      twmStatus { twmAt .rxend false none with ackr := true }, twmStatus { twmAt .idle false none with ackr := true }] =
    [0x00#8, 0x01#8, 0x04#8, 0x0A#8, 0x08#8, 0x0B#8, 0x0E#8, 0x12#8, 0x02#8] := by decide
theorem test_twmRdstatus_while_busy :
    (nextOf (exec (.twmRdstatus .r0) (twmAt .idle true none))).map (fun t => (t.regs.get .r0, t.pc, t.fault)) =
      some (some 0x01#8, 1, none) := by decide
theorem test_twmWrdata :
    (nextOf (exec (.twmWrdata 0x90#8) (twmAt .idle false none))).map (fun t => (t.data, t.bus)) =
      some (some 0x90#8, []) := by decide
theorem test_twmWrdata_while_busy :
    (nextOf (exec (.twmWrdata 0x12#8) (twmAt .tx true (some 0x90#8)))).map (fun t => (t.data, recorded t)) =
      some (some 0x90#8, some (7, 0, 0x00008212)) := by decide
theorem test_twmRddata :
    (nextOf (exec (.twmRddata .r0) (twmAt .rx false (some 0x85#8)))).bind (fun t => t.regs.get .r0) =
      some 0x85#8 := by decide
/-- V8: busy is checked before unwritten data. -/
theorem test_twmRddata_fault_order :
    (nextOf (exec (.twmRddata .r0) (twmAt .rx true none))).bind recorded = some (7, 0, 0x00000200) ∧
    (nextOf (exec (.twmRddata .r0) (twmAt .rx false none))).bind recorded = some (9, 0, 0x00000200) := by decide
theorem test_twmNop :
    nextOf (exec .twmNop (at4 Regs.unwritten)) = some { at4 Regs.unwritten with pc := 5 } := by decide
/-- V4, the columns of `twm.start` and `twm.stop`. -/
theorem test_twmStart_cells :
    [Phase.idle, .addr, .tx, .rx, .rxend].map (fun p => cellEvent p .start) =
      [some .start, none, some .repStart, none, some .repStart] := by decide
theorem test_twmStop_cells :
    [Phase.idle, .addr, .tx, .rx, .rxend].map (fun p => cellEvent p .stop) =
      [none, none, some .stop, none, some .stop] := by decide
/-- V4, the column of `twm.write`. -/
theorem test_twmWrite_cells :
    [Phase.idle, .addr, .tx, .rx, .rxend].map (fun p => cellEvent p .write) =
      [none, some (.wr 0x90#8 true), some (.wr 0x90#8 true), none, none] := by decide
/-- V4, the columns of `twm.read.ack` and `twm.read.nack`. -/
theorem test_twmReadAck_cells :
    [Phase.idle, .addr, .tx, .rx, .rxend].map (fun p => cellEvent p (.read true)) =
      [none, none, none, some (.rd 0x55#8 true), none] := by decide
theorem test_twmReadNack_cells :
    [Phase.idle, .addr, .tx, .rx, .rxend].map (fun p => cellEvent p (.read false)) =
      [none, none, none, some (.rd 0x55#8 false), none] := by decide
/-- V8: CMD_WHILE_BUSY before PROTOCOL before DATA_UNWRITTEN. -/
theorem test_twmWrite_fault_order :
    (nextOf (exec .twmWrite (twmAt .idle true none))).bind recorded = some (6, 0, 0x00008003) ∧
    (nextOf (exec .twmWrite (twmAt .idle false none))).bind recorded = some (8, 0, 0x00008003) ∧
    (nextOf (exec .twmWrite (twmAt .addr false none))).bind recorded = some (9, 0, 0x00008003) := by decide
theorem test_twmNop_while_busy :
    (nextOf (exec .twmNop (twmAt .idle true none))).bind recorded = some (6, 0, 0x00008000) := by decide

/-! ## Completions (V5) -/

/-- A state with a command in flight. -/
def inFlight (phase : Phase) (c : InFlight) (data : Byte) (ackr : Bool) : State :=
  { twmAt phase true (some data) with pend := some c, ackr := ackr }

/-- What V5 shows of a completion: phase, data, ackr, events, busy, pend. -/
def completed (s : State) : Phase × Option Byte × Bool × List BusEvent × Bool × Option InFlight :=
  let t := engStep s
  (t.phase, t.data, t.ackr, t.bus, t.busy, t.pend)

theorem test_complete_start :
    completed (inFlight .idle .start 0x5A#8 false) = (.addr, some 0x5A#8, false, [.start], false, none) := by decide
theorem test_complete_repeated_start :
    completed (inFlight .rxend .start 0x5A#8 true) = (.addr, some 0x5A#8, true, [.repStart], false, none) := by decide
theorem test_complete_stop :
    completed (inFlight .tx .stop 0x83#8 true) = (.idle, some 0x83#8, true, [.stop], false, none) := by decide
theorem test_complete_write_addr :
    completed { inFlight .addr (.write 0x91#8) 0x91#8 true with slaveAcks := [false] } =
      (.rx, some 0x91#8, false, [.wr 0x91#8 false], false, none) := by decide
theorem test_complete_write_tx :
    completed { inFlight .tx (.write 0x01#8) 0x01#8 true with slaveAcks := [true] } =
      (.tx, some 0x01#8, true, [.wr 0x01#8 true], false, none) := by decide
theorem test_complete_read_nack :
    completed { inFlight .rx (.read false) 0x05#8 true with slaveBytes := [0x83#8] } =
      (.rxend, some 0x83#8, true, [.rd 0x83#8 false], false, none) := by decide
theorem test_complete_read_ack :
    completed { inFlight .rx (.read true) 0x91#8 true with slaveBytes := [0x05#8] } =
      (.rx, some 0x05#8, true, [.rd 0x05#8 true], false, none) := by decide

/-! ## TXQ (V6, R160 to R170) -/

/-- TXQ_STATUS in V6.0, V6.1, V6.3, V6.5, V6.6 and V6.10. -/
theorem test_txqRdstatus :
    [txqStatus (txqAt 0#8 0#8 false true), txqStatus (txqAt 1#8 0#8 true true), txqStatus (txqAt 3#8 0#8 true true),
      txqStatus (txqAt 3#8 1#8 true false), txqStatus (txqAt 0#8 1#8 true false), txqStatus (txqAt 0#8 0#8 true false)] =
    [0x09#8, 0x0C#8, 0x0E#8, 0x04#8, 0x06#8, 0x05#8] := by decide
theorem test_txqRdstatus_reads :
    (nextOf (exec (.txqRdstatus .r3) (txqAt 3#8 0#8 true false))).bind (fun t => t.regs.get .r3) = some 0x06#8 := by decide
theorem test_txqRdhead :
    (nextOf (exec (.txqRdhead .r2) (txqAt 3#8 1#8 true true))).bind (fun t => t.regs.get .r2) = some 0x03#8 := by decide
theorem test_txqRdtail :
    (nextOf (exec (.txqRdtail .r2) (txqAt 3#8 1#8 true true))).bind (fun t => t.regs.get .r2) = some 0x01#8 := by decide
theorem test_txqPush :
    (nextOf (exec (.txqPush 0x41#8) { State.reset with pc := 5 })).map (fun t => (t.hstate, t.pc)) =
      some (.push .p1 0x41#8 0#8, 5) := by decide
/-- V6.4: next = 0 = tail, so the push holds at P2. -/
theorem test_push_p1_wraps_and_holds :
    let s := { txqAt 3#8 0#8 true false with hstate := .push .p1 0x44#8 0#8 }
    (pushStep .p1 0x44#8 0#8 s).hstate = .push .p2 0x44#8 0#8 ∧
    enabled .host (pushStep .p1 0x44#8 0#8 s) = false := by decide
/-- V6.1: P3, P4 and P5 of the first push. -/
theorem test_push_p3_p4_p5 :
    let s := pushStep .p5 0x41#8 1#8 (pushStep .p4 0x41#8 1#8 (pushStep .p3 0x41#8 1#8 (txqAt 0#8 0#8 false true)))
    (s.buf, s.head, s.tail, s.txie, s.hstate, s.pc) = ([(1, 0x41#8)], 1#8, 0#8, true, .run, 1) := by decide
/-- V6.10: DRAIN case A wraps the tail. -/
theorem test_drain_case_a_wraps :
    let t := drainStep { txqAt 0#8 3#8 true true with buf := [(0, 0x44#8)], serial := [0x43#8] }
    (t.tail, t.serial, t.txReady, t.txie) = (0#8, [0x43#8, 0x44#8], false, true) := by decide
/-- V6.12: DRAIN case B. -/
theorem test_drain_case_b :
    let t := drainStep (txqAt 0#8 0#8 true true)
    (t.tail, t.serial, t.txReady, t.txie) = (0#8, [], true, false) := by decide
theorem test_ser : (serStep (txqAt 0#8 1#8 true false)).txReady = true := by decide

/-! ## Gray code (V7) and the capacity of 256 -/

theorem test_gray_k3 :
    ([0, 1, 2, 3, 4, 5, 6, 7].map fun i => (gray (BitVec.ofNat 8 i)).toNat) = [0, 1, 3, 2, 6, 7, 5, 4] := by decide
theorem test_bin_k3 : bin 3 0b110#8 = 4#8 := by decide
theorem test_index_at_cap_256 :
    nextIndex { Params.reset with txqCap := 256 } 255#8 = 0#8 ∧ nextIndex { Params.reset with txqCap := 2 } 1#8 = 0#8 ∧
    indexBits { Params.reset with txqCap := 256 } = 8 := by decide

/-! ## Pseudo-operations and the assembler (R80, R81, P4, P6) -/

/-- P4: the last words of `deviceInit 0x0583` at index 0. -/
theorem test_deviceInit_tail :
    ((expand Params.reset (.deviceInit 0x0583#16) 0).drop 51).map encode =
      [0x30050036#32, 0x31830036#32, 0x20000037#32, 0xF0000000#32] := by decide
/-- P2: words 18 to 25 of `readRegister 0x00, r0, r1`. -/
theorem test_readRegister_reads :
    (((expand Params.reset (.readRegister 0x00#8 .r0 .r1) 0).drop 18).take 8).map encode =
      [0x0000800C#32, 0x00070100#32, 0x17010013#32, 0x00000200#32] ++
      [0x00008004#32, 0x00070100#32, 0x17010017#32, 0x00010200#32] := by decide
/-- P6: the terminator is not pushed. -/
theorem test_putString :
    (expand Params.reset (.putString [0x48#8, 0x69#8, 0x00#8, 0x21#8]) 0).map encode =
      [0x00008848#32, 0x00008869#32] := by decide
/-- P6 as source text, with a label. -/
theorem test_assemble_p6 :
    assemble Params.reset
      (["putString \"Hi\"", "wait: txq.rdstatus r1 ; poll", "bz r1, 0x01, wait", "halt"].map String.toList) =
      some [0x00008848#32, 0x00008869#32, 0x00010900#32, 0x21010002#32, 0xE0000000#32] := by decide

/-! ## Steps of the machine -/

/-- V8: no step once a fault is set, and PC_RANGE at the end of PROG. -/
theorem test_step_after_fault :
    stopOf (step { launch [0xE0000000#32] with fault := some ⟨.protocol, 0, 0x00008003#32⟩ }) =
      some .faultRecorded := by decide
theorem test_step_past_end :
    (nextOf (step { launch [0xE0000000#32] with pc := 1 })).bind (fun t => t.fault.map fun r => (faultNumber r.code, r.pc)) =
      some (1, 1) := by decide
/-- P5: the step at pc 0. -/
theorem test_step_p5 :
    (nextOf (step (launch [0x00008003#32, 0xE0000000#32]))).bind recorded = some (8, 0, 0x00008003) := by decide
/-- V8: a bad command while busy reports BAD_CMD. -/
theorem test_step_bad_cmd_before_busy :
    (nextOf (step { launch [0x00008005#32] with
        busy := true, pend := some .start, schedule := [some .host] })).bind recorded = some (5, 0, 0x00008005) := by decide
theorem test_step_refuses_capacity :
    refusalOf (step (State.launch { Params.reset with txqCap := 6 } [])) = some .illegalCapacity := by decide
theorem test_step_final :
    stopOf (step { launch [0xE0000000#32] with hstate := .halted }) = some .runEnded := by decide
theorem test_withFetchWord :
    (nextOf (step (State.reset.withFetchWord 32 0x00008841))).map (fun t => (t.hstate, t.pc)) =
      some (.push .p1 0x41#8 0#8, 0) := by decide
theorem test_placeWord_pads : placeWord [] 1 0xE0000000#32 = [0#32, 0xE0000000#32] := by decide
/-- R196: the schedule may give the step to ENG although HOST is first in the list. -/
theorem test_step_eng_moves :
    (nextOf (step { launch [0x00070100#32] with
        busy := true, pend := some .start, schedule := [some .eng] })).map (fun t => (t.bus, t.pc)) =
      some ([.start], 0) := by decide
/-- §2 of 95_test_vectors.md: the status-bit slave returns CONFIG with bit 15 set. -/
theorem test_reference_slave :
    let opened : List BusEvent := [.start, .wr 0x90#8 true, .wr 0x01#8 true, .repStart, .wr 0x91#8 true]
    refSlaveByte 0x48#7 false RefSlave.initial opened = 0x85#8 ∧
    refSlaveByte 0x48#7 true { RefSlave.initial with reg1 := 0x0583#16 } opened = 0x85#8 ∧
    refSlaveAck 0x48#7 RefSlave.initial [.start] 0x92#8 = false := by decide
/-- R57 and R54: the window's first and last bytes, and an access that spans two offsets. -/
theorem test_window_edges :
    memRead 0x7F 1 State.reset = some (.error .badAccess) ∧ memRead 0x01 1 State.reset = some (.ok 0x00#8) ∧
    memRead 0x80 1 State.reset = none ∧ memRead 0x7F 2 State.reset = some (.error .badAccess) := by
  refine ⟨rfl, rfl, rfl, rfl⟩

/-- R54 and R190: an access statement that the platform makes a two-byte access at the window's last byte records BAD_ACCESS
with its pc and word, and a bad command is not looked at (R197). -/
theorem test_step_wide_access :
    (nextOf (step { launch [0x00008005#32] with wideAccesses := [some ⟨0x7F, 0⟩] })).bind recorded =
      some (4, 0, 0x00008005) := by decide
/-- R57: a wide access beside the window is not the block's, and only access statements are accesses (R54). -/
theorem test_step_wide_access_elsewhere :
    (nextOf (step { launch [0x00008000#32] with wideAccesses := [some ⟨0x80, 2⟩] })).map (fun t => (t.pc, t.fault)) =
      some (1, none) ∧
    (nextOf (step { launch [0xE0000000#32] with wideAccesses := [some ⟨0x00, 0⟩] })).map (fun t => (t.hstate, t.fault)) =
      some (.halted, none) ∧
    (nextOf (step { launch [0x00018001#32] with wideAccesses := [some ⟨0x00, 0⟩] })).bind recorded =
      some (2, 0, 0x00018001) := by and_intros <;> decide

/-! ## Witnesses: states and operands that meet the hypotheses of each statement, clause by clause -/

/-- Push of 0x44 at a micro-step on TXQ_CAP = 4, the statement at pc. -/
def pushing (st : PushStep) (next head tail : Index) (buf : Memory) (txie ready : Bool) : State :=
  { launch [0x00008844#32] with
    hstate := .push st 0x44#8 next, head := head, tail := tail, buf := buf, txie := txie, txReady := ready
    params := { Params.reset with txLive := true, busLive := true } }

/-- V6.4: the FIFO is full and the push holds at P2. -/
def heldPush : State :=
  pushing .p2 0#8 3#8 0#8 [(1, 0x41#8), (2, 0x42#8), (3, 0x43#8)] true true

theorem heldPush_inv : Inv heldPush := inv_of_check (by decide) (by decide) (by decide) (by decide)

/-- V6.6: one DRAIN step later the push may go on. -/
def freedPush (st : PushStep) : State :=
  { pushing st 0#8 3#8 1#8 [(0, 0x44#8), (1, 0x41#8), (2, 0x42#8), (3, 0x43#8)] true true with serial := [0x41#8] }

theorem freedPush_inv : Inv (freedPush .p1) ∧ Inv (freedPush .p2) ∧ Inv (freedPush .p3) ∧ Inv (freedPush .p4) := by
  and_intros <;> exact inv_of_check (by decide) (by decide) (by decide) (by decide)

/-- The middle of a read: phase RX, READ in flight, after an address byte with RW = 1. -/
def reading : State :=
  { launch [0x00070100#32] with
    busy := true, pend := some (.read false), phase := .rx, data := some 0x91#8
    bus := [.start, .wr 0x91#8 true], schedule := [some .eng] }

theorem reading_inv : Inv reading := inv_of_check (by decide) (by decide) (by decide) (by decide)

theorem witness_TwmWrdataSetsData :
    (twmAt .idle false none).fault = none ∧ (twmAt .idle false none).busy = false ∧
    (twmAt .tx true none).fault = none ∧ (twmAt .tx true none).busy = true := by and_intros <;> decide

theorem witness_TwmRddataReadsData :
    (twmAt .rx false (some 0xFF#8)).fault = none ∧ (twmAt .rx false (some 0xFF#8)).busy = false ∧
    (twmAt .rx false (some 0xFF#8)).data = some 0xFF#8 ∧ (twmAt .rx true none).busy = true ∧
    (twmAt .idle false none).data = none := by and_intros <;> decide

theorem witness_TwmNopOnlyMovesOn :
    (twmAt .rx false none).fault = none ∧ (twmAt .rx false none).busy = false ∧ (twmAt .rx true none).busy = true := by
  and_intros <;> decide

theorem witness_TwmStartIssuesStart :
    (twmAt .idle false none).fault = none ∧ (twmAt .idle false none).phase = .idle ∧
    (twmAt .tx false none).phase = .tx ∧ (twmAt .rxend false none).phase = .rxend ∧
    (twmAt .addr false none).phase = .addr ∧ (twmAt .rx false none).phase = .rx ∧
    (twmAt .rx false none).busy = false ∧ (twmAt .idle true none).busy = true := by and_intros <;> decide

theorem witness_TwmStopIssuesStop :
    (twmAt .tx false none).fault = none ∧ (twmAt .tx false none).phase = .tx ∧
    (twmAt .rxend false none).phase = .rxend ∧ (twmAt .idle false none).phase = .idle ∧
    (twmAt .addr false none).busy = false ∧ (twmAt .idle true none).busy = true := by and_intros <;> decide

theorem witness_TwmWriteIssuesWrite :
    (twmAt .addr false (some 0x90#8)).fault = none ∧ (twmAt .addr false (some 0x90#8)).data = some 0x90#8 ∧
    (twmAt .addr false (some 0x90#8)).phase = .addr ∧ (twmAt .rxend false none).phase = .rxend ∧
    (twmAt .tx false none).phase = .tx ∧ (twmAt .tx false none).data = none ∧
    (twmAt .tx true none).busy = true := by and_intros <;> decide

theorem witness_TwmReadIssuesRead :
    (twmAt .rx false none).fault = none ∧ (twmAt .rx false none).busy = false ∧ (twmAt .rx false none).phase = .rx ∧
    (twmAt .rxend false none).phase ≠ .rx ∧ (twmAt .rx true none).busy = true := by and_intros <;> decide

theorem witness_CommandLegalityTable :
    (twmAt .tx false (some 0x90#8)).fault = none ∧ (twmAt .tx false (some 0x90#8)).busy = false ∧
    (twmAt .tx false (some 0x90#8)).data = some 0x90#8 ∧ Command.write ≠ .nop := by and_intros <;> decide

theorem witness_Completions :
    (inFlight .idle .start 0#8 false).pend = some .start ∧ (inFlight .tx .stop 0#8 false).pend = some .stop ∧
    (inFlight .addr (.write 0x91#8) 0x91#8 false).pend = some (.write 0x91#8) ∧
    slaveAckOf { inFlight .addr (.write 0x91#8) 0x91#8 false with slaveAcks := [false] } 0x91#8 = false ∧
    (inFlight .rx (.read true) 0#8 false).pend = some (.read true) ∧
    slaveByteOf { inFlight .rx (.read true) 0#8 false with slaveBytes := [0xFF#8] } = 0xFF#8 := by
  and_intros <;> decide

theorem witness_PushMicroSteps :
    (pushing .p1 0#8 3#8 1#8 [] true true).fault = none ∧
    (pushing .p1 0#8 3#8 1#8 [] true true).hstate = .push .p1 0x44#8 0#8 ∧
    (pushing .p1 0#8 3#8 1#8 [] true true).params.capLegal = true ∧
    (pushing .p1 0#8 3#8 1#8 [] true true).head = mask (pushing .p1 0#8 3#8 1#8 [] true true).params ∧
    (freedPush .p3).hstate = .push .p3 0x44#8 0#8 ∧ (freedPush .p4).hstate = .push .p4 0x44#8 0#8 ∧
    (freedPush .p5).hstate = .push .p5 0x44#8 0#8 := by and_intros <;> decide

theorem witness_PushHoldsWhileFull :
    heldPush.fault = none ∧ heldPush.hstate = .push .p2 0x44#8 0#8 ∧ 0#8 = heldPush.tail ∧
    (freedPush .p2).fault = none ∧ (freedPush .p2).hstate = .push .p2 0x44#8 0#8 ∧ 0#8 ≠ (freedPush .p2).tail := by
  and_intros <;> decide

theorem witness_DrainStep :
    let s := { txqAt 0#8 3#8 true true with buf := [(0, 0x44#8)] }
    s.head ≠ s.tail ∧ s.buf.read ((s.tail + 1#8) &&& mask s.params).toNat = some 0x44#8 ∧
    (txqAt 3#8 3#8 true true).head = (txqAt 3#8 3#8 true true).tail := by and_intros <;> decide

theorem witness_Branches :
    (at4 (Regs.unwritten.set .r7 0xFF#8)).fault = none ∧ 65535 < 2 ^ 16 ∧
    (at4 (Regs.unwritten.set .r7 0xFF#8)).regs.get .r7 = some 0xFF#8 ∧
    (at4 (Regs.unwritten.set .r7 0xFF#8)).regs.get .r0 = none := by and_intros <;> decide

theorem witness_HaltEndsProgram :
    State.reset.fault = none ∧ State.reset.busy = false ∧ State.reset.phase = .idle ∧
    (twmAt .idle true none).busy = true ∧ (twmAt .rxend false none).phase ≠ .idle := by and_intros <;> decide

theorem witness_FatalStopsHost :
    let s := { txqAt 0#8 0#8 false false with hstate := .fatal, schedule := [some .ser] }
    s.hstate = .fatal ∧ (nextOf (step s)).isSome = true := by and_intros <;> decide

theorem witness_WritesReachOnlyTheirPlace : Memory.wf [(0, 0x44#8), (255, 0x41#8)] := by decide

theorem witness_WindowAccesses :
    2 ≠ 1 ∧ State.reset.params.blockBase < 127 + 2 ∧ 127 < State.reset.params.blockBase + 128 ∧
    State.reset.params.blockBase + 128 ≤ 128 ∧
    0x00#7 ∉ [0x01#7, 0x02#7, 0x09#7, 0x0A#7, 0x0B#7] ∧ 0x7F#7 ∉ [0x01#7, 0x02#7, 0x09#7, 0x0A#7, 0x0B#7] ∧
    0x01#7 ∉ [0x00#7, 0x02#7, 0x08#7] ∧ 0x7F#7 ∉ [0x00#7, 0x02#7, 0x08#7] := by and_intros <;> decide

/-- An access of two bytes that begins one byte before a window at 0x40. -/
theorem witness_WindowAccesses_below :
    let s := State.launch { Params.reset with blockBase := 0x40 } []
    s.params.blockBase < 0x3F + 2 ∧ 0x3F + 1 ≤ s.params.blockBase := by and_intros <;> decide

/-- TWM_DATA read while busy, unwritten and written, and TWM_CTRL written with a command and with none. -/
theorem witness_WindowAccesses_legal_pairs :
    blkRead 0x02#7 (twmAt .rx true none) = .error .dataWhileBusy ∧
    blkRead 0x02#7 (twmAt .rx false none) = .error .dataUnwritten ∧
    blkRead 0x02#7 (twmAt .rx false (some 0xFF#8)) = .ok 0xFF#8 ∧
    blkWrite 0x00#7 0x0C#8 (twmAt .rx false none) = issueCommand (.read true) (twmAt .rx false none) ∧
    blkWrite 0x00#7 0x05#8 (twmAt .rx false none) = .error .badCmd ∧
    blkWrite 0x02#7 0xFF#8 (twmAt .rx true none) = .error .dataWhileBusy ∧
    blkRead 0x01#7 (txqAt 3#8 1#8 true false) = .ok 0x00#8 ∧ blkRead 0x09#7 (txqAt 3#8 1#8 true false) = .ok 0x04#8 := by
  and_intros <;> rfl

theorem witness_DecodeOfEncode : (Instr.bne .r7 0xFF#8 65535).wellFormed = true := by decide

theorem witness_EncodeOfDecode : decodeWord 0x37FFFFFF#32 = .ok (.bne .r7 0xFF#8 65535) := by decide

theorem witness_OpcodeRowsDecide :
    opcodeRow .halt ∈ opcodeTable ∧ rowMatches 0xE0000000#32 (opcodeRow .halt) = true := by and_intros <;> decide

theorem witness_StepRunsDecodedStatement :
    let s := launch [0x00008000#32]
    s.params.capLegal = true ∧ s.fault = none ∧ s.hstate = .run ∧ nextAgent s = some .host ∧
    s.prog[s.pc]? = some 0x00008000#32 ∧ decodeWord 0x00008000#32 = .ok .twmNop := by and_intros <;> decide

theorem witness_StepRunsDecodedStatement_faults :
    let s := launch [0x50000000#32]
    nextAgent s = some .host ∧ s.prog[s.pc]? = some 0x50000000#32 ∧
    decodeWord 0x50000000#32 = .error .illegalStatement ∧ nextAgent { s with pc := 1 } = some .host ∧
    s.prog.length ≤ 1 := by and_intros <;> decide

/-- A two-byte access that begins one byte before a window at 0x40, and one at its last byte. -/
theorem witness_StepRunsDecodedStatement_wide :
    let s := fun addr => { State.launch { Params.reset with blockBase := 0x40 } [0x00000900#32] with
      wideAccesses := [some ⟨addr, 0⟩] }
    (∀ addr, nextAgent (s addr) = some .host ∧ (s addr).wideAccesses.head? = some (some ⟨addr, 0⟩)) ∧
    (0x00000900#32).extractLsb' 28 4 = 0#4 ∧ decodeWord 0x00000900#32 ≠ .error .illegalStatement ∧
    (s 0x3F).params.blockBase < 0x3F + (0 + 2) ∧ 0xBF < (s 0xBF).params.blockBase + 128 := by
  refine ⟨fun _ => ⟨rfl, rfl⟩, ?_⟩
  and_intros <;> decide

theorem witness_AnyEnabledAgentMayMove :
    reading.params.capLegal = true ∧ enabled .eng reading = true ∧ enabled .host reading = true ∧
    (nextOf (step reading)).isSome = true := by and_intros <;> decide

theorem witness_NoStepAfterFault :
    let s := { State.reset with fault := some ⟨.protocol, 0, 0#32⟩ }
    s.params.capLegal = true ∧ s.fault = some ⟨.protocol, 0, 0#32⟩ := by and_intros <;> decide

theorem witness_FaultsArePrecise :
    (nextOf (step (launch [0x00008003#32]))).map (fun t => decide (t.fault ≠ (launch [0x00008003#32]).fault)) =
      some true := by decide

theorem witness_EndOfRun :
    let s := { launch [0xE0000000#32] with hstate := .halted }
    let u := { launch [0xF0000000#32] with hstate := .fatal }
    s.params.capLegal = true ∧ isFinal s = true ∧ u.fault = none ∧ isFinal u = false ∧
    enabledAgents u = [] := by and_intros <;> decide

theorem witness_IllegalCapacityRefused :
    (∃ k, 1 ≤ k ∧ k ≤ 8 ∧ 2 = 2 ^ k) ∧ (∃ k, 1 ≤ k ∧ k ≤ 8 ∧ 256 = 2 ^ k) ∧
    (∀ k, 1 ≤ k → k ≤ 8 → 1 ≠ 2 ^ k) ∧ (∀ k, 1 ≤ k → k ≤ 8 → 512 ≠ 2 ^ k) ∧ (∀ k, 1 ≤ k → k ≤ 8 → 6 ≠ 2 ^ k) := by
  refine ⟨⟨1, by decide⟩, ⟨8, by decide⟩, ?_, ?_, ?_⟩ <;> intro k h1 h2 <;> interval_cases k <;> decide

theorem witness_StatementFrame :
    (nextOf (exec (.twmRdstatus .r7) State.reset)).isSome = true ∧
    (nextOf (exec .twmStart State.reset)).isSome = true ∧
    (nextOf (exec (.twmWrdata 0x90#8) State.reset)).isSome = true ∧
    (nextOf (exec .twmWrite State.reset)).map (fun t => decide (t.fault ≠ State.reset.fault)) = some true := by
  and_intros <;> decide

/-- The next state of a machine on which the agent is preferred. -/
def moved (a : Agent) (s : State) : Option State := nextOf (step { s with schedule := [some a] })

/-- A DRAIN step of each case, a P3, a P4, a P5 and a SER step. -/
theorem witness_SingleWriters_txq :
    (moved .drain heldPush).map (fun t => decide (t.tail ≠ heldPush.tail ∧ t.serial ≠ heldPush.serial ∧ t.txReady = false)) =
      some true ∧
    (moved .drain (txqAt 3#8 3#8 true true)).map (fun t => t.txie) = some false ∧
    (moved .host { freedPush .p3 with buf := [] }).map (fun t => decide (t.buf ≠ [])) = some true ∧
    (moved .host (freedPush .p4)).map (fun t => decide (t.head ≠ (freedPush .p4).head)) = some true ∧
    (moved .host (pushing .p5 1#8 1#8 0#8 [(1, 0x44#8)] false true)).map (fun t => (t.txie, t.hstate, t.pc)) =
      some (true, .run, 1) ∧
    (moved .ser (txqAt 3#8 3#8 true false)).map (fun t => t.txReady) = some true := by and_intros <;> decide

/-- ENG completing a READ, a WRITE and a START; HOST issuing a command, writing TWM_DATA, reading a register and raising a
fault. -/
theorem witness_SingleWriters_twm :
    (moved .eng { reading with slaveBytes := [0x55#8] }).map (fun t => (t.busy, t.pend, t.phase, t.data, t.bus.length)) =
      some (false, none, .rxend, some 0x55#8, 3) ∧
    (moved .eng { inFlight .tx (.write 0x01#8) 0x01#8 true with slaveAcks := [false] }).map (fun t => t.ackr) =
      some false ∧
    (moved .host (launch [0x00008001#32])).map (fun t => (t.busy, t.pend)) = some (true, some .start) ∧
    (moved .host (launch [0x00008290#32])).map (fun t => t.data) = some (some 0x90#8) ∧
    (moved .host (launch [0x00000900#32])).map (fun t => t.regs.get .r0) = some (some 0x09#8) ∧
    (moved .host (launch [0x00008003#32])).map (fun t => t.fault.isSome) = some true := by and_intros <;> decide

theorem witness_OneEventPerCommand : Inv reading ∧ (nextOf (step reading)).isSome = true :=
  ⟨reading_inv, by decide⟩

theorem witness_InvAtLaunch : ({ Params.reset with txqCap := 256 }).capLegal = true := by decide

theorem witness_InvStep :
    (Inv reading ∧ (nextOf (step reading)).isSome = true) ∧ (Inv heldPush ∧ (nextOf (step heldPush)).isSome = true) :=
  ⟨⟨reading_inv, by decide⟩, ⟨heldPush_inv, by decide⟩⟩

theorem witness_FifoOrder :
    Inv { freedPush .p4 with schedule := [some .host] } ∧
    (nextOf (step { freedPush .p4 with schedule := [some .host] })).map accepted =
      some [some 0x41#8, some 0x42#8, some 0x43#8, some 0x44#8] :=
  ⟨inv_of_check (by decide) (by decide) (by decide) (by decide), by decide⟩

theorem witness_FifoCounts : Inv heldPush ∧ fifoFull heldPush = true ∧ Inv (launch []) ∧ fifoEmpty (launch []) = true :=
  ⟨heldPush_inv, by decide, inv_of_check (by decide) (by decide) (by decide) (by decide), by decide⟩

theorem witness_StartsPairWithStops :
    TwmInv { launch [] with bus := [.start, .wr 0x91#8 true] ++ .rd 0x05#8 false :: [.stop], phase := .idle } :=
  twmInv_of_check (by decide)

theorem witness_PushLinearizes :
    Inv (freedPush .p2) ∧ (freedPush .p2).fault = none ∧ (freedPush .p2).hstate = .push .p2 0x44#8 0#8 ∧
    enabled .host (freedPush .p2) = true ∧ enabled .drain (freedPush .p2) = true :=
  ⟨freedPush_inv.2.1, by decide, by decide, by decide, by decide⟩

theorem witness_PushNeverStuck :
    Inv heldPush ∧ heldPush.fault = none ∧ heldPush.hstate = .push .p2 0x44#8 0#8 ∧ 0#8 = heldPush.tail :=
  ⟨heldPush_inv, by decide, by decide, by decide⟩

theorem witness_GrayCode : 1 ≤ 8 ∧ 8 ≤ 8 ∧ (255#8).toNat < 2 ^ 8 ∧ (1#8).toNat < 2 ^ 1 := by decide

theorem witness_SampledCopyIsOldOrNew :
    Params.reset.capLegal = true ∧ 3#8 &&& mask Params.reset = 3#8 ∧
    sampledDuring 3#8 (nextIndex Params.reset 3#8) (gray 3#8) = true := by decide

theorem witness_OlderTailOnlyHoldsLonger :
    Inv { freedPush .p2 with head := 2#8, hstate := .push .p2 0x44#8 3#8 } ∧
    olderTail 0#8 { freedPush .p2 with head := 2#8, hstate := .push .p2 0x44#8 3#8 } = true ∧ 3#8 ≠ 0#8 :=
  ⟨inv_of_check (by decide) (by decide) (by decide) (by decide), by decide, by decide⟩

theorem witness_FreshCopyLosesNoWakeup :
    Inv heldPush ∧ enabled .drain heldPush = true ∧ headCopyFresh 3#8 heldPush = true ∧
    (drainSeeing 3#8 heldPush.buf heldPush).head ≠ (drainSeeing 3#8 heldPush.buf heldPush).tail :=
  ⟨heldPush_inv, by decide, by decide, by decide⟩

/-- The head copy before P4 is fresh while the host is at P5: DRAIN's step finds no byte and races with P5. -/
theorem witness_FreshCopyLosesNoWakeup_at_p5 :
    let s := pushing .p5 1#8 1#8 0#8 [(1, 0x44#8)] true true
    Inv s ∧ enabled .drain s = true ∧ s.hstate = .push .p5 0x44#8 1#8 ∧ 0#8 = s.tail ∧ 0#8 ≠ s.head ∧
    headCopyFresh 0#8 s = true ∧ (drainSeeing 0#8 s.buf s).head ≠ (drainSeeing 0#8 s.buf s).tail ∧
    (raced true 0#8 s.buf 0x44#8 1#8 s).head ≠ (raced true 0#8 s.buf 0x44#8 1#8 s).tail :=
  ⟨inv_of_check (by decide) (by decide) (by decide) (by decide), by decide, by decide, by decide, by decide, by decide,
    by decide, by decide⟩

/-- A copy that covers the oldest slot only, a drain domain that reads nothing elsewhere; and the copy at `head`, at P3. -/
theorem witness_FreshCopyLosesNoWakeup_stable :
    (publishedHead 1#8 heldPush = true ∧ 1#8 ≠ heldPush.tail ∧ slotsStable 1#8 [(1, 0x41#8)] heldPush = true ∧
      coveredSlots 1#8 heldPush = [1#8] ∧ slotsStable 2#8 [(1, 0x41#8)] heldPush = false) ∧
    (Inv (freedPush .p3) ∧ (freedPush .p3).hstate = .push .p3 0x44#8 0#8 ∧ publishedHead 3#8 (freedPush .p3) = true ∧
      publishedHead 0#8 (freedPush .p3) = false ∧ coveredSlots 3#8 (freedPush .p3) = [2#8, 3#8] ∧
      slotsStable 3#8 [(2, 0x42#8), (3, 0x43#8)] (freedPush .p3) = true) :=
  ⟨by and_intros <;> decide, freedPush_inv.2.2.1, by decide, by decide, by decide, by decide, by decide⟩

theorem witness_PrimitiveExpansions : 65533 + 2 < 2 ^ 16 := by decide

theorem witness_ReferenceSlaveRoundTrip : (0x03#8).toNat ≤ 3 ∧ (0x92#8).extractLsb' 1 7 ≠ Params.reset.devAddr := by decide

/-! ## Runs that meet the liveness statements' hypotheses -/

theorem live_legal :
    ({ Params.reset with txLive := true, busLive := true }).capLegal = true ∧
    ({ Params.reset with txLive := true }).capLegal = true ∧ ({ Params.reset with busLive := true }).capLegal = true := by
  decide

/-- The host at P5 with its byte published, in PROG's only statement. HOST moves at each of the two steps left: P5, then a
fetch past PROG's end, which stops the machine. -/
def lastPush : Nat → State
  | 0 => { pushing .p5 1#8 1#8 0#8 [(1, 0x44#8)] false true with schedule := [some .host, some .host] }
  | 1 => { pushing .p5 1#8 1#8 0#8 [(1, 0x44#8)] true true with
      hstate := .run, pc := 1, tick := 1, schedule := [some .host] }
  | _ => { pushing .p5 1#8 1#8 0#8 [(1, 0x44#8)] true true with
      hstate := .run, pc := 1, tick := 2, fault := some ⟨.pcRange, 1, Config.pcRangeWord 2⟩ }

theorem witness_PushEventuallyCompletes :
    FairRun lastPush ∧ Inv (lastPush 0) ∧ (lastPush 0).params.txLive = true ∧
    (lastPush 0).hstate = .push .p5 0x44#8 1#8 := by
  refine ⟨fairRun_of_stop ?_ 2 ?_, inv_of_check (by decide) (by decide) (by decide) (by decide), rfl, rfl⟩
  · intro n
    match n with
    | 0 => exact .inl rfl
    | 1 => exact .inl rfl
    | n + 2 => exact .inr ⟨_, step_of_none_enabled live_legal.1 (fun _ => rfl), rfl⟩
  · intro m hm a
    obtain ⟨n, rfl⟩ : ∃ n, m = n + 2 := ⟨m - 2, by omega⟩
    rfl

/-- HALTED with one byte stored: DRAIN, SER and DRAIN, the only agents with a step, bring the machine to a final state. -/
def lastDrain : Nat → State
  | 0 => { launch [] with
      hstate := .halted, head := 1#8, buf := [(1, 0x44#8)], txie := true
      params := { Params.reset with txLive := true } }
  | 1 => { launch [] with
      hstate := .halted, head := 1#8, tail := 1#8, buf := [(1, 0x44#8)], txie := true, txReady := false
      serial := [0x44#8], tick := 1, params := { Params.reset with txLive := true } }
  | 2 => { launch [] with
      hstate := .halted, head := 1#8, tail := 1#8, buf := [(1, 0x44#8)], txie := true
      serial := [0x44#8], tick := 2, params := { Params.reset with txLive := true } }
  | _ => { launch [] with
      hstate := .halted, head := 1#8, tail := 1#8, buf := [(1, 0x44#8)]
      serial := [0x44#8], tick := 3, params := { Params.reset with txLive := true } }

theorem witness_StoredBytesEventuallySent :
    FairRun lastDrain ∧ Inv (lastDrain 0) ∧ (lastDrain 0).params.txLive = true ∧ (∀ m, (lastDrain m).fault = none) ∧
    accepted (lastDrain 0) = [some 0x44#8] := by
  refine ⟨fairRun_of_stop ?_ 3 ?_, inv_of_check (by decide) (by decide) (by decide) (by decide), rfl, ?_, by decide⟩
  · intro n
    match n with
    | 0 => exact .inl rfl
    | 1 => exact .inl rfl
    | 2 => exact .inl rfl
    | n + 3 => exact .inr ⟨_, step_of_none_enabled live_legal.2.1 (fun a => by cases a <;> rfl), rfl⟩
  · intro m hm a
    obtain ⟨n, rfl⟩ : ∃ n, m = n + 3 := ⟨m - 3, by omega⟩
    cases a <;> rfl
  · intro m
    match m with
    | 0 => rfl
    | 1 => rfl
    | 2 => rfl
    | n + 3 => rfl

/-- FATAL with a START in flight: ENG completes it and nothing is left to do. -/
def lastCommand : Nat → State
  | 0 => { launch [] with
      hstate := .fatal, busy := true, pend := some .start, params := { Params.reset with busLive := true } }
  | _ => { launch [] with
      hstate := .fatal, phase := .addr, bus := [.start], tick := 1
      params := { Params.reset with busLive := true } }

theorem witness_CommandEventuallyCompletes :
    FairRun lastCommand ∧ (lastCommand 0).params.busLive = true ∧ (lastCommand 0).busy = true := by
  refine ⟨fairRun_of_stop ?_ 1 ?_, rfl, rfl⟩
  · intro n
    match n with
    | 0 => exact .inl rfl
    | n + 1 => exact .inr ⟨_, step_of_none_enabled live_legal.2.2 (fun a => by cases a <;> rfl), rfl⟩
  · intro m hm a
    obtain ⟨n, rfl⟩ : ∃ n, m = n + 1 := ⟨m - 1, by omega⟩
    cases a <;> rfl

end Sys2Proof.Tests
end

section
/-! SUPPORT. The scope of the block (spec 00_scope.md): the register window, which agent moves, the independence of the two
sub-blocks, and the legal capacities. -/

namespace Sys2Proof.Machine

/-! ## The register window (R31, R54, R57) -/

/-- The register map, read from an offset (R31). -/
theorem regAt_eq_some {off : BitVec 7} {r : BlkReg} (h : regAt off = some r) : off = offsetOf r :=
  (eq_of_beq (List.find?_some (p := fun q => offsetOf q == off) h)).symm

/-- Only five registers can be read. -/
theorem blkRead_not_readable {off : BitVec 7} (s : State)
    (h : off ∉ [0x01#7, 0x02#7, 0x09#7, 0x0A#7, 0x0B#7]) : blkRead off s = .error .badAccess := by
  cases hr : regAt off with
  | none => simp only [blkRead, hr]
  | some r =>
    obtain rfl := regAt_eq_some hr
    cases r with
    | twmCtrl | txqData => rfl
    | twmStatus | twmData | txqStatus | txqHead | txqTail => simp [offsetOf] at h

/-- Only three registers can be written. -/
theorem blkWrite_not_writable {off : BitVec 7} (v : Byte) (s : State)
    (h : off ∉ [0x00#7, 0x02#7, 0x08#7]) : blkWrite off v s = .error .badAccess := by
  cases hr : regAt off with
  | none => simp only [blkWrite, hr]
  | some r =>
    obtain rfl := regAt_eq_some hr
    cases r with
    | twmStatus | txqStatus | txqHead | txqTail => rfl
    | twmCtrl | twmData | txqData => simp [offsetOf] at h

theorem reachesWindow_iff {p : Params} {addr width : Nat} :
    reachesWindow p addr width = true ↔ p.blockBase < addr + width ∧ addr < p.blockBase + 128 := by
  simp [reachesWindow, and_comm]

/-- A one-byte access at BLOCK_BASE + off is the block's own access of the register at off. -/
theorem memAccess_block (off : BitVec 7) (v : Byte) (s : State) :
    memRead (s.params.blockBase + off.toNat) 1 s = some (blkRead off s) ∧
      memWrite (s.params.blockBase + off.toNat) 1 v s = some (blkWrite off v s) := by
  simp [memRead, memWrite, reachesWindow_block]

/-- An access of the window by any other width than one byte. -/
theorem memAccess_wide {addr width : Nat} (v : Byte) {s : State} (hw : width ≠ 1)
    (hr : reachesWindow s.params addr width = true) :
    memRead addr width s = some (.error .badAccess) ∧ memWrite addr width v s = some (.error .badAccess) := by
  simp [memRead, memWrite, hr, hw]

/-- An access that does not reach the window is none of the block's (log entry 17). -/
theorem memAccess_outside {addr width : Nat} (v : Byte) {s : State}
    (hr : reachesWindow s.params addr width = false) :
    memRead addr width s = none ∧ memWrite addr width v s = none := by
  simp [memRead, memWrite, hr]

/-- Settles O27: the map is read at each of its offsets, and an offset off the list holds no register of that direction. -/
theorem windowAccesses : Obligations.WindowAccesses := by
  intro s v
  refine ⟨fun off => memAccess_block off v s, fun addr width hw hlo hhi => ?wide, fun addr width hout => ?outside,
    blkRead_twmStatus s, blkRead_twmData s, blkRead_txqStatus s, blkRead_txqHead s, blkRead_txqTail s, rfl,
    blkWrite_twmData v s, blkWrite_txqData v s, fun _ => blkRead_not_readable s, fun _ => blkWrite_not_writable v s⟩
  case wide => exact memAccess_wide v hw (reachesWindow_iff.2 ⟨hlo, hhi⟩)
  case outside =>
    refine memAccess_outside v (Bool.eq_false_iff.2 fun hr => ?_)
    obtain ⟨hlo, hhi⟩ := reachesWindow_iff.1 hr
    omega

/-! ## The outcomes of a step (R9, R12, R98, R196) -/

theorem step_of_illegalCapacity {s : State} (h : s.params.capLegal = false) :
    step s = .refused .illegalCapacity := by
  unfold step
  rw [if_pos h]

theorem step_of_stalls {s : State} (hc : s.params.capLegal = true) (h : stalls s = true) :
    step s = .next (consumeChoice s) := by
  unfold step
  rw [if_neg (by simp [hc]), if_pos h]

/-- Under a legal capacity a step stalls, stops, raises the fault of a wide access, or is the step of the agent that the
schedule names. -/
inductive StepOutcome (s : State) : Prop where
  /-- No agent moves (R98). -/
  | stalled (h : stalls s = true) (hstep : step s = .next (consumeChoice s))
  /-- No agent has an enabled step (R99). -/
  | stopped (h : ∀ a, enabled a s = false) (hstep : step s = .fault (stopReason s))
  /-- BAD_ACCESS of the access statement at pc (R54). -/
  | widened (w : Word) (h : nextAgent s = some .host) (hp : platformFault .host s = some (.badAccess, w))
      (hstep : step s = .next (raiseFault .badAccess w (consumeChoice s)))
  /-- The agent's own step. -/
  | moved (a : Agent) (t : State) (h : nextAgent s = some a) (ha : agentStep a (consumeChoice s) = .next t)
      (hstep : step s = .next t)

theorem stepOutcome {s : State} (hc : s.params.capLegal = true) : StepOutcome s := by
  cases hs : stalls s with
  | true => exact .stalled hs (step_of_stalls hc hs)
  | false =>
    cases ha : nextAgent s with
    | none =>
      have hnone := nextAgent_eq_none.1 ha
      exact .stopped hnone (step_of_none_enabled hc hnone)
    | some a =>
      cases hp : platformFault a s with
      | none =>
        obtain ⟨t, ht⟩ := agentStep_next (nextAgent_enabled ha)
        exact .moved a t ha ht ((step_of_moves hc ⟨hs, ha⟩ hp).trans ht)
      | some f =>
        obtain ⟨c, w⟩ := f
        obtain ⟨rfl, -, -, -, rfl, -⟩ := platformFault_cases hp
        exact .widened w ha hp (step_of_platformFault hc ha hp)

/-- A legal capacity is never refused (R9). -/
theorem step_not_refused {s : State} (hc : s.params.capLegal = true) (x : Refusal) : step s ≠ .refused x := by
  cases stepOutcome hc <;> simp [*]

/-- Settles O38: the model's legality test names exactly the powers of two from 2 to 256. -/
theorem illegalCapacityRefused : Obligations.IllegalCapacityRefused := by
  refine fun s => ⟨fun hk => step_not_refused ((capLegal_iff s.params).2 hk), fun hk => ?_⟩
  refine step_of_illegalCapacity (Bool.eq_false_iff.2 fun hc => ?_)
  obtain ⟨k, h1, h8, h⟩ := capLegal_pow hc
  exact hk k h1 h8 h

/-! ## Which agent moves (R12, R98, R196) -/

/-- The agent the schedule prefers moves, if it has an enabled step. -/
theorem moves_of_preferred {a : Agent} {s : State} (he : enabled a s = true) (hp : preferred s = some a) : moves a s := by
  constructor
  · simp [stalls, hp]
  · rw [nextAgent, hp]
    exact pick_preferred (mem_enabledAgents.2 he)

theorem platformFault_of_not_widened {a : Agent} {s : State} (h : s.wideAccesses.head?.join = none) :
    platformFault a s = none := by
  cases hp : platformFault a s with
  | none => rfl
  | some f =>
    obtain ⟨-, -, -, -, -, acc, hacc, -⟩ := platformFault_cases hp
    simp [hacc] at h

/-- Where no agent moves although some could, none of them need be fair (R98). -/
theorem not_weaklyFair_of_stalls {s : State} (h : stalls s = true) {a : Agent} (ha : enabled a s = true) :
    weaklyFair s.params a = false := by
  simp only [stalls, Bool.and_eq_true, Bool.not_eq_true', List.any_eq_false] at h
  simpa using h.1.2 a (mem_enabledAgents.2 ha)

/-- A machine on which an agent has an enabled step does not stop. -/
theorem step_ne_fault_of_enabled {s : State} {a : Agent} (hc : s.params.capLegal = true) (ha : enabled a s = true)
    (f : Fault) : step s ≠ .fault f := by
  cases stepOutcome hc with
  | stopped h => simp [h a] at ha
  | stalled | widened | moved => simp [*]

/-- Settles O34: an enabled agent moves when preferred, and the outcomes of a step show that no other agent does. -/
theorem anyEnabledAgentMayMove : Obligations.AnyEnabledAgentMayMove := by
  intro s hc
  refine ⟨fun a ha => ?mayMove, fun t ht => ?onlyEnabled, fun hnone => ⟨_, step_of_none_enabled hc hnone⟩, ?stops⟩
  case mayMove =>
    exact step_of_moves hc (moves_of_preferred ha rfl) (platformFault_of_not_widened rfl)
  case onlyEnabled =>
    cases stepOutcome hc with
    | stalled h hstep =>
      cases hstep.symm.trans ht
      exact .inr (.inr ⟨rfl, fun a => not_weaklyFair_of_stalls h⟩)
    | stopped h hstep => cases hstep.symm.trans ht
    | widened w h hp hstep =>
      cases hstep.symm.trans ht
      have hen := nextAgent_enabled h
      have hnone : s.fault = none := fault_none_of_enabled hen
      obtain ⟨-, hrun, hfetch, -, -, acc, hacc, -⟩ := platformFault_cases hp
      exact .inr (.inl ⟨hen, hrun, by simp [hacc], w, hfetch,
        raiseFault_of_none (consumeChoice s) _ w hnone⟩)
    | moved a t' h ha hstep =>
      cases hstep.symm.trans ht
      exact .inl ⟨a, nextAgent_enabled h, ha⟩
  case stops =>
    rintro ⟨f, hf⟩ a
    exact Bool.eq_false_iff.2 fun ha => step_ne_fault_of_enabled hc ha f hf

/-! ## The two sub-blocks (R3) -/

/-- DRAIN's case A (R169). -/
theorem drainStep_of_nonempty {s : State} (h : s.head ≠ s.tail) :
    drainStep s =
      { send (slotByte (nextIndex s.params s.tail) s) s with
        tail := nextIndex s.params s.tail, txReady := false } :=
  if_pos h

/-- DRAIN's case B (R169). -/
theorem drainStep_of_empty {s : State} (h : s.head = s.tail) : drainStep s = { s with txie := false } :=
  if_neg (not_not_intro h)

/-- Settles O43: no step reads or writes a field of the other sub-block, whichever case of its definition it takes. -/
theorem subBlocksIndependent : Obligations.SubBlocksIndependent := by
  intro s buf head tail txie txReady serial busy pend ackr data phase bus otherTxq otherTwm
  refine ⟨?eng, ?drain, rfl, fun st b next => ?push⟩
  case eng =>
    have hpend : (otherTxq s).pend = s.pend := rfl
    unfold engStep
    rw [hpend]
    split <;> rfl
  case drain =>
    by_cases h : s.head = s.tail
    · rw [drainStep_of_empty h, drainStep_of_empty (s := otherTwm s) h]
    · rw [drainStep_of_nonempty h, drainStep_of_nonempty (s := otherTwm s) h]
      rfl
  case push => cases st <;> rfl

end Sys2Proof.Machine
end

section
/-! SUPPORT. The state of the block (spec 10_state.md): what each statement and each agent writes, and the invariant
of every reachable state. -/

namespace Sys2Proof

/-! ## A decoded word is its statement's word (R71 to R77) -/

theorem eq_encodeBranch_of_decodeBranch {make : Reg → Byte → Nat → Instr} {w : Word} {i : Instr}
    (h : decodeBranch make w = .ok i) :
    ∃ rs imm target, i = make rs imm target ∧ w = encodeBranch (kindOf w) rs imm target := by
  unfold decodeBranch at h
  split at h
  · cases h
  · rename_i hr
    cases h
    exact ⟨_, _, _, rfl, eq_encodeBranch w (by simpa using hr)⟩

theorem eq_encodeBare_of_decodeBare {j : Instr} {w : Word} {i : Instr} (h : decodeBare j w = .ok i) :
    i = j ∧ w = encodeBare (kindOf w) := by
  unfold decodeBare at h
  split at h
  · cases h
  · rename_i hz
    cases h
    exact ⟨rfl, eq_encodeBare w (by simpa using hz)⟩

/-- A format-A statement's word: its checks leave RD = 0 in a write and VAL = 0 in a read (R77). -/
theorem eq_encode_of_decodeAccess {w : Word} {i : Instr} (hk : kindOf w = 0#4) (h : decodeAccess w = .ok i) :
    w = encode i := by
  unfold decodeAccess at h
  split at h
  · cases h
  rename_i hreserved
  have hw := eq_encodeAccess w hk (by simpa using hreserved)
  split at h
  · cases h
  rename_i hrd
  split at h
  · cases h
  rename_i hval
  split at h
  · rename_i hwrite
    have hrd : rdField w = 0#3 := by simpa [hwrite] using hrd
    rw [hwrite, hrd] at hw
    split at h
    · rename_i hoff
      split at h
      · rename_i c hc
        cases h
        rw [encode_commandInstr, ← commandCtrl_of_ctrlCommand _ _ hc, ← hoff]
        exact hw
      · cases h
    · split at h
      · rename_i hoff; cases h; rw [hoff] at hw; exact hw
      · split at h
        · rename_i hoff; cases h; rw [hoff] at hw; exact hw
        · cases h
  · rename_i hread
    have hread : writeBit w = false := by simpa using hread
    have hval : valField w = 0#8 := by simpa [hread] using hval
    rw [hread, hval, ← regCode_regOf (rdField w)] at hw
    iterate 5
      split at h
      · rename_i hoff; cases h; rw [hoff] at hw; exact hw
    cases h

/-- The word a statement is decoded from is the word the statement is encoded to. -/
theorem eq_encode_of_decodeWord {w : Word} {i : Instr} (h : decodeWord w = .ok i) : w = encode i := by
  unfold decodeWord at h
  split at h
  · rename_i hk
    exact eq_encode_of_decodeAccess hk h
  iterate 3
    split at h
    · rename_i hk
      obtain ⟨rs, imm, target, rfl, hw⟩ := eq_encodeBranch_of_decodeBranch h
      rw [hk] at hw
      exact hw
  iterate 2
    split at h
    · rename_i hk
      obtain ⟨rfl, hw⟩ := eq_encodeBare_of_decodeBare h
      rw [hk] at hw
      exact hw
  cases h

end Sys2Proof

namespace Sys2Proof.Machine

/-! ## What the agents' steps write, field by field -/

section Fields
variable (s : State)

@[simp] theorem engStep_regs : (engStep s).regs = s.regs := by rw [engStep_frame]
@[simp] theorem engStep_pc : (engStep s).pc = s.pc := by rw [engStep_frame]
@[simp] theorem engStep_hstate : (engStep s).hstate = s.hstate := by rw [engStep_frame]
@[simp] theorem engStep_busy : (engStep s).busy = false := by rw [engStep_frame]
@[simp] theorem engStep_pend : (engStep s).pend = none := by rw [engStep_frame]
@[simp] theorem engStep_buf : (engStep s).buf = s.buf := by rw [engStep_frame]
@[simp] theorem engStep_head : (engStep s).head = s.head := by rw [engStep_frame]
@[simp] theorem engStep_tail : (engStep s).tail = s.tail := by rw [engStep_frame]
@[simp] theorem engStep_txie : (engStep s).txie = s.txie := by rw [engStep_frame]
@[simp] theorem engStep_txReady : (engStep s).txReady = s.txReady := by rw [engStep_frame]
@[simp] theorem engStep_serial : (engStep s).serial = s.serial := by rw [engStep_frame]
@[simp] theorem engStep_prog : (engStep s).prog = s.prog := by rw [engStep_frame]
@[simp] theorem engStep_params : (engStep s).params = s.params := by rw [engStep_frame]

@[simp] theorem drainStep_regs : (drainStep s).regs = s.regs := by rw [drainStep_frame]
@[simp] theorem drainStep_pc : (drainStep s).pc = s.pc := by rw [drainStep_frame]
@[simp] theorem drainStep_hstate : (drainStep s).hstate = s.hstate := by rw [drainStep_frame]
@[simp] theorem drainStep_busy : (drainStep s).busy = s.busy := by rw [drainStep_frame]
@[simp] theorem drainStep_pend : (drainStep s).pend = s.pend := by rw [drainStep_frame]
@[simp] theorem drainStep_ackr : (drainStep s).ackr = s.ackr := by rw [drainStep_frame]
@[simp] theorem drainStep_data : (drainStep s).data = s.data := by rw [drainStep_frame]
@[simp] theorem drainStep_phase : (drainStep s).phase = s.phase := by rw [drainStep_frame]
@[simp] theorem drainStep_bus : (drainStep s).bus = s.bus := by rw [drainStep_frame]
@[simp] theorem drainStep_buf : (drainStep s).buf = s.buf := by rw [drainStep_frame]
@[simp] theorem drainStep_head : (drainStep s).head = s.head := by rw [drainStep_frame]
@[simp] theorem drainStep_prog : (drainStep s).prog = s.prog := by rw [drainStep_frame]
@[simp] theorem drainStep_params : (drainStep s).params = s.params := by rw [drainStep_frame]

variable (st : PushStep) (b : Byte) (n : Index)

@[simp] theorem pushStep_regs : (pushStep st b n s).regs = s.regs := by rw [pushStep_frame]
@[simp] theorem pushStep_busy : (pushStep st b n s).busy = s.busy := by rw [pushStep_frame]
@[simp] theorem pushStep_pend : (pushStep st b n s).pend = s.pend := by rw [pushStep_frame]
@[simp] theorem pushStep_ackr : (pushStep st b n s).ackr = s.ackr := by rw [pushStep_frame]
@[simp] theorem pushStep_data : (pushStep st b n s).data = s.data := by rw [pushStep_frame]
@[simp] theorem pushStep_phase : (pushStep st b n s).phase = s.phase := by rw [pushStep_frame]
@[simp] theorem pushStep_bus : (pushStep st b n s).bus = s.bus := by rw [pushStep_frame]
@[simp] theorem pushStep_tail : (pushStep st b n s).tail = s.tail := by rw [pushStep_frame]
@[simp] theorem pushStep_txReady : (pushStep st b n s).txReady = s.txReady := by rw [pushStep_frame]
@[simp] theorem pushStep_serial : (pushStep st b n s).serial = s.serial := by rw [pushStep_frame]
@[simp] theorem pushStep_prog : (pushStep st b n s).prog = s.prog := by rw [pushStep_frame]
@[simp] theorem pushStep_params : (pushStep st b n s).params = s.params := by rw [pushStep_frame]

end Fields

/-- ENG writes `ackr` at the completion of a WRITE only (R122). -/
theorem engStep_ackr_ne {s : State} (h : (engStep s).ackr ≠ s.ackr) : ∃ b, s.pend = some (.write b) := by
  match hp : s.pend with
  | some (.write b) => exact ⟨b, rfl⟩
  | some .start | some .stop | some (.read _) | none => exact absurd (by rw [engStep, hp]; rfl) h

/-- ENG writes `data` at the completion of a READ only (R123). -/
theorem engStep_data_ne {s : State} (h : (engStep s).data ≠ s.data) : ∃ a, s.pend = some (.read a) := by
  match hp : s.pend with
  | some (.read a) => exact ⟨a, rfl⟩
  | some .start | some .stop | some (.write _) | none => exact absurd (by rw [engStep, hp]; rfl) h

theorem drainStep_tail_of_nonempty {s : State} (h : s.head ≠ s.tail) :
    (drainStep s).tail = nextIndex s.params s.tail := by
  rw [drainStep_of_nonempty h]

theorem drainStep_tail_ne {s : State} (h : (drainStep s).tail ≠ s.tail) :
    (drainStep s).tail = nextIndex s.params s.tail := by
  by_cases he : s.head = s.tail
  · rw [drainStep_of_empty he] at h
    exact absurd rfl h
  · exact drainStep_tail_of_nonempty he

theorem drainStep_txie_ne {s : State} (h : (drainStep s).txie ≠ s.txie) :
    (drainStep s).txie = false ∧ s.head = s.tail := by
  by_cases he : s.head = s.tail
  · rw [drainStep_of_empty he]
    exact ⟨rfl, he⟩
  · rw [drainStep_of_nonempty he] at h
    exact absurd rfl h

theorem drainStep_txReady_ne {s : State} (h : (drainStep s).txReady ≠ s.txReady) :
    (drainStep s).txReady = false ∧ s.head ≠ s.tail := by
  by_cases he : s.head = s.tail
  · rw [drainStep_of_empty he] at h
    exact absurd rfl h
  · rw [drainStep_of_nonempty he]
    exact ⟨rfl, he⟩

theorem pushStep_head_ne {st : PushStep} {b : Byte} {n : Index} {s : State}
    (h : (pushStep st b n s).head ≠ s.head) : st = .p4 ∧ n = (pushStep st b n s).head := by
  cases st with
  | p4 => exact ⟨rfl, rfl⟩
  | _ => exact absurd rfl h

theorem pushStep_buf_ne {st : PushStep} {b : Byte} {n : Index} {s : State}
    (h : (pushStep st b n s).buf ≠ s.buf) : st = .p3 := by
  cases st with
  | p3 => rfl
  | _ => exact absurd rfl h

theorem pushStep_txie_ne {st : PushStep} {b : Byte} {n : Index} {s : State}
    (h : (pushStep st b n s).txie ≠ s.txie) : st = .p5 ∧ (pushStep st b n s).txie = true := by
  cases st with
  | p5 => exact ⟨rfl, rfl⟩
  | _ => exact absurd rfl h

/-! ## What a statement writes -/

theorem raiseFault_frame (c : FaultCode) (w : Word) (s : State) :
    raiseFault c w s = { s with fault := (raiseFault c w s).fault } := by
  unfold raiseFault
  split <;> rfl

/-- A statement's effect writes `regs`, `pc`, `hstate`, `busy`, `pend`, `data` and `fault`, and nothing else. -/
theorem Effect.frame {i : Instr} {s t : State} (e : Effect i s t) :
    t.buf = s.buf ∧ t.head = s.head ∧ t.tail = s.tail ∧ t.txie = s.txie ∧ t.txReady = s.txReady ∧
      t.serial = s.serial ∧ t.bus = s.bus ∧ t.phase = s.phase ∧ t.ackr = s.ackr ∧ t.prog = s.prog ∧
      t.params = s.params ∧ t.schedule = s.schedule ∧ t.tick = s.tick ∧ t.slaveAcks = s.slaveAcks ∧
      t.slaveBytes = s.slaveBytes ∧ t.wideAccesses = s.wideAccesses := by
  cases e <;> simp

theorem Effect.regs_eq {i : Instr} {s t : State} (e : Effect i s t) :
    t.regs = s.regs ∨ ∃ rd v, i ∈ [.twmRdstatus rd, .twmRddata rd, .txqRdstatus rd, .txqRdhead rd, .txqRdtail rd] ∧
      t.regs = s.regs.set rd v := by
  cases e with
  | read rd v isRead => exact .inr ⟨rd, v, isRead, rfl⟩
  | raised c => exact .inl (raiseFault_regs s c _)
  | _ => exact .inl rfl

theorem Effect.data_eq {i : Instr} {s t : State} (e : Effect i s t) :
    t.data = s.data ∨ ∃ v, i = .twmWrdata v ∧ s.busy = false ∧ t.data = some v := by
  cases e with
  | wroteData v isWrite idle => exact .inr ⟨v, isWrite, idle, rfl⟩
  | raised c => exact .inl (raiseFault_data s c _)
  | _ => exact .inl rfl

theorem Effect.command_eq {i : Instr} {s t : State} (e : Effect i s t) :
    (t.busy = s.busy ∧ t.pend = s.pend) ∨
      ∃ c, i = commandInstr (commandOf c) ∧ s.busy = false ∧ t.busy = true ∧ t.pend = some c := by
  cases e with
  | issued c isCommand idle => exact .inr ⟨c, isCommand, idle, rfl, rfl⟩
  | raised c => exact .inl ⟨raiseFault_busy s c _, raiseFault_pend s c _⟩
  | _ => exact .inl ⟨rfl, rfl⟩

theorem Effect.hstate_eq {i : Instr} {s t : State} (e : Effect i s t) :
    t.hstate = s.hstate ∨ (∃ b, i = .txqPush b ∧ t.hstate = .push .p1 b 0#8) ∨
      (i = .halt ∧ s.busy = false ∧ s.phase = .idle ∧ t.hstate = .halted) ∨ (i = .fatal ∧ t.hstate = .fatal) := by
  cases e with
  | pushing b isPush => exact .inr (.inl ⟨b, isPush, rfl⟩)
  | halted isHalt idle closed => exact .inr (.inr (.inl ⟨isHalt, idle, closed, rfl⟩))
  | stopped isFatal => exact .inr (.inr (.inr ⟨isFatal, rfl⟩))
  | raised c => exact .inl (raiseFault_hstate s c _)
  | _ => exact .inl rfl

/-- Where a fault is recorded nothing else changes (R191). -/
theorem Effect.fault_eq {i : Instr} {s t : State} (e : Effect i s t) :
    t.fault = s.fault ∨ t = { s with fault := t.fault } := by
  cases e with
  | raised c => exact .inr (raiseFault_frame c _ s)
  | _ => exact .inl rfl

theorem commandInstr_commandOf_mem (c : InFlight) :
    commandInstr (commandOf c) ∈ [.twmStart, .twmStop, .twmWrite, .twmReadNack, .twmReadAck] := by
  rcases c with _ | _ | b | (_ | _) <;> simp [commandOf, commandInstr]

/-- Settles O40: each clause is the inversion of the statement's effect at its field. -/
theorem statementFrame : Obligations.StatementFrame := by
  intro i s t h
  have e := exec_cases h
  obtain ⟨hbuf, hframe⟩ := e.frame
  refine ⟨fun a => by rw [hbuf], hbuf, ?_⟩
  simp only [hframe, true_and]
  refine ⟨fun r hr => ?regs, fun hi => ?data, fun hi => ?command, fun hpush hhalt hfatal => ?hstate, fun hf => ?fault⟩
  case regs =>
    rcases e.regs_eq with hregs | ⟨rd, v, hi, hregs⟩
    · rw [hregs]
    · have hne : r ≠ rd := by
        simp only [List.mem_cons, List.not_mem_nil, or_false] at hi
        rcases hi with rfl | rfl | rfl | rfl | rfl <;> exact hr
      rw [hregs, get_set_other _ _ hne]
  case data => exact e.data_eq.resolve_right fun ⟨v, hv, _⟩ => hi v hv
  case command => exact e.command_eq.resolve_right fun ⟨c, hc, _⟩ => hi (hc ▸ commandInstr_commandOf_mem c)
  case hstate =>
    rcases e.hstate_eq with h | ⟨b, hb, _⟩ | ⟨hi, _⟩ | ⟨hi, _⟩
    · exact h
    · exact absurd hb (hpush b)
    · exact absurd hi hhalt
    · exact absurd hi hfatal
  case fault => exact e.fault_eq.resolve_left hf

/-- What every HOST step in RUN leaves unchanged. -/
theorem StatementStep.frame {s t : State} (e : StatementStep s t) :
    t.buf = s.buf ∧ t.head = s.head ∧ t.tail = s.tail ∧ t.txie = s.txie ∧ t.txReady = s.txReady ∧
      t.serial = s.serial ∧ t.bus = s.bus ∧ t.phase = s.phase ∧ t.ackr = s.ackr ∧ t.prog = s.prog ∧
      t.params = s.params := by
  cases e with
  | pastEnd | badWord => simp
  | statement w i t hf hd he => simp [he.frame]

theorem StatementStep.command_ne {s t : State} (e : StatementStep s t) (h : t.busy ≠ s.busy ∨ t.pend ≠ s.pend) :
    s.busy = false ∧ t.busy = true ∧
      ∃ w c, s.prog[s.pc]? = some w ∧ decodeWord w = .ok (commandInstr (commandOf c)) ∧ t.pend = some c := by
  cases e with
  | pastEnd | badWord => simp at h
  | statement w i t hf hd he =>
    rcases he.command_eq with ⟨hbusy, hpend⟩ | ⟨c, rfl, hs, ht, hpend⟩
    · simp [hbusy, hpend] at h
    · exact ⟨hs, ht, w, c, hf, hd, hpend⟩

theorem StatementStep.data_ne {s t : State} (e : StatementStep s t) (h : t.data ≠ s.data) :
    s.busy = false ∧ ∃ w v, s.prog[s.pc]? = some w ∧ decodeWord w = .ok (.twmWrdata v) ∧ t.data = some v := by
  cases e with
  | pastEnd | badWord => simp at h
  | statement w i t hf hd he =>
    obtain ⟨v, rfl, hs, ht⟩ := he.data_eq.resolve_left h
    exact ⟨hs, w, v, hf, hd, ht⟩

/-- Settles O41: a step is one agent's, whose frame leaves only the clauses of the fields it writes. -/
theorem singleWriters : Obligations.SingleWriters := by
  intro s t hstep
  have hnone := fault_none_of_step hstep
  cases step_cases hstep with
  | stalled => simp
  | hostRun a hr _ e => simpa [a, hr, hnone, e.frame] using And.intro e.command_ne e.data_ne
  | widened a hr => simp [a, hr, hnone]
  | hostPush a st b n hp hold =>
    simpa [a, hp, and_comm] using And.intro (@pushStep_head_ne st b n (consumeChoice s))
      (And.intro (@pushStep_buf_ne st b n (consumeChoice s)) (@pushStep_txie_ne st b n (consumeChoice s)))
  | eng a busy =>
    simpa [a, busy] using And.intro (@engStep_ackr_ne (consumeChoice s)) (@engStep_data_ne (consumeChoice s))
  | drain a ie ready =>
    simpa [a] using And.intro (@drainStep_tail_ne (consumeChoice s))
      (And.intro (@drainStep_txie_ne (consumeChoice s)) (@drainStep_txReady_ne (consumeChoice s)))
  | ser a taken => simp [a]

/-! ## Storage, faults and the clean launch -/

/-- Settles O26: the read-after-write laws of the two stores, at the place written and at any other. -/
theorem writesReachOnlyTheirPlace : Obligations.WritesReachOnlyTheirPlace := by
  refine ⟨fun rs r q v => ?reg, fun m a x b => ?slot, write_wf⟩
  case reg =>
    split
    · rename_i h; rw [h, get_set_same]
    · rename_i h; exact get_set_other rs v h
  case slot =>
    split
    · rename_i h; rw [h, read_write_same]
    · rename_i h; exact read_write_other m b h

/-- Settles O35: an enabled agent would mean that no fault is recorded. -/
theorem noStepAfterFault : Obligations.NoStepAfterFault := by
  intro s r hc hr
  have hdisabled : ∀ a, enabled a s = false := fun a => Bool.eq_false_iff.2 fun ha => by
    simp [fault_none_of_enabled ha] at hr
  refine ⟨hdisabled, ?_⟩
  rw [step_of_none_enabled hc hdisabled, stopReason, if_pos (by simp [hr])]

/-- Settles O39: the launch's fields, one by one; each host register is its own field. -/
theorem resetValues : Obligations.ResetValues := by
  intro p prog
  have hregs : ∀ r, Regs.unwritten.get r = none := fun r => by cases r <;> rfl
  simp [hregs, State.reset]

/-! ## TWM's part of the invariant (R24, R27, R118) -/

/-- ENG puts one event on the bus for a command that the phase allows, and moves to the phase the event leads to (R120
to R123). -/
theorem engStep_emits {s : State} {c : InFlight} (hc : s.pend = some c)
    (hl : commandLegal s.phase (commandOf c) = true) :
    ∃ e, (engStep s).bus = s.bus ++ [e] ∧ phaseAfter s.phase e = some (engStep s).phase := by
  unfold engStep
  rw [hc]
  cases c with
  | start | stop | write | read =>
    refine ⟨_, rfl, ?_⟩
    cases hp : s.phase <;> simp [hp, commandOf, commandLegal, completeStart, completeStop, completeWrite, completeRead,
      phaseAfter] at hl ⊢

theorem twmInv_engStep {s : State} (h : TwmInv s) (busy : s.busy = true) : TwmInv (engStep s) where
  busy_iff_pend := by simp
  trace_phase := by
    obtain ⟨c, hc⟩ := Option.isSome_iff_exists.1 (h.busy_iff_pend.symm.trans busy)
    obtain ⟨e, hbus, hphase⟩ := engStep_emits hc (h.pend_legal c hc)
    rw [hbus, tracePhase_append, h.trace_phase]
    exact hphase
  pend_legal := by simp
  write_latched := by simp

theorem twmInv_of_effect {i : Instr} {s t : State} (h : TwmInv s) (e : Effect i s t) : TwmInv t := by
  cases e with
  | raised c => exact h.of_eq (by simp) (by simp) (by simp) (by simp) (by simp)
  | wroteData v isWrite idle =>
    have hpend : s.pend = none := by simpa [idle] using h.busy_iff_pend
    exact ⟨h.busy_iff_pend, h.trace_phase, h.pend_legal, by simp [hpend]⟩
  | issued c isCommand idle legal latched =>
    refine ⟨rfl, h.trace_phase, fun k hk => ?_, fun b hb => ?_⟩
    · cases hk; exact legal
    · cases hb; exact latched b rfl
  | _ => exact h.of_eq rfl rfl rfl rfl rfl

/-! ## TXQ's part of the invariant (R174) -/

/-- A host that is not past P1 of a push has nothing to keep. -/
theorem pushInv_of_not_past_p1 {s : State} (h : ∀ st b n, s.hstate = .push st b n → st = .p1) : pushInv s := by
  unfold pushInv
  cases hs : s.hstate with
  | push st b n =>
    obtain rfl := h st b n hs
    trivial
  | run | halted | fatal => trivial

/-- A push's part reads the tail only for the room it has found. -/
theorem pushInv_of_eq {s t : State} (h : pushInv s) (hstate : t.hstate = s.hstate) (head : t.head = s.head)
    (buf : t.buf = s.buf) (params : t.params = s.params)
    (room : nextIndex s.params s.head ≠ s.tail → nextIndex s.params s.head ≠ t.tail) : pushInv t := by
  unfold pushInv at h ⊢
  rw [hstate, head, buf, params]
  generalize s.hstate = host at h ⊢
  cases host with
  | push st b n =>
    cases st with
    | p1 => trivial
    | p2 | p5 => exact h
    | p3 =>
      obtain ⟨rfl, hroom⟩ := h
      exact ⟨rfl, room hroom⟩
    | p4 =>
      obtain ⟨rfl, hroom, hslot⟩ := h
      exact ⟨rfl, room hroom, hslot⟩
  | run | halted | fatal => trivial

/-- TXQ's invariant reads the six fields of the FIFO and its capacity, and of the host only how far its push is. -/
theorem TxqInv.of_fifo_eq {s t : State} (h : TxqInv s) (head : t.head = s.head) (tail : t.tail = s.tail)
    (buf : t.buf = s.buf) (txie : t.txie = s.txie) (txReady : t.txReady = s.txReady) (params : t.params = s.params)
    (p5 : atP5 s = true → atP5 t = true) (push : pushInv t) : TxqInv t where
  head_masked := by rw [head, params]; exact h.head_masked
  tail_masked := by rw [tail, params]; exact h.tail_masked
  buf_wf := by rw [buf]; exact h.buf_wf
  buf_inside := by rw [buf, params]; exact h.buf_inside
  stored_written := by
    unfold fifoCount slotAt
    rw [buf, head, tail, params]
    exact h.stored_written
  enabled_or_p5 := by rw [head, tail, txie]; exact fun hne => (h.enabled_or_p5 hne).imp_right p5
  enable_or_ready := by rw [txie, txReady]; exact h.enable_or_ready
  push := push

theorem TxqInv.of_eq {s t : State} (h : TxqInv s) (head : t.head = s.head) (tail : t.tail = s.tail)
    (buf : t.buf = s.buf) (txie : t.txie = s.txie) (txReady : t.txReady = s.txReady) (params : t.params = s.params)
    (hstate : t.hstate = s.hstate) : TxqInv t :=
  h.of_fifo_eq head tail buf txie txReady params (by unfold atP5; rw [hstate]; exact id)
    (pushInv_of_eq h.push hstate head buf params (by rw [tail]; exact id))

theorem txqInv_of_effect {i : Instr} {s t : State} (h : TxqInv s) (hr : s.hstate = .run) (e : Effect i s t) :
    TxqInv t := by
  obtain ⟨hbuf, hhead, htail, htxie, htxReady, -, -, -, -, -, hparams, -⟩ := e.frame
  refine h.of_fifo_eq hhead htail hbuf htxie htxReady hparams (by simp [atP5, hr])
    (pushInv_of_not_past_p1 fun st b n hp => ?_)
  rcases e.hstate_eq with ht | ⟨_, _, ht⟩ | ⟨_, _, _, ht⟩ | ⟨_, ht⟩
  · cases (ht.trans hr).symm.trans hp
  · cases ht.symm.trans hp
    rfl
  · cases ht.symm.trans hp
  · cases ht.symm.trans hp

theorem isSome_read_write {m : Memory} {x : Nat} (a : Nat) (b : Byte) (h : (m.read x).isSome = true) :
    ((m.write a b).read x).isSome = true := by
  by_cases hx : x = a
  · rw [hx, read_write_same, Option.isSome_some]
  · rwa [read_write_other m b hx]

/-- P1 computes the slot after head (R164). -/
theorem txqInv_p1 {s : State} (h : TxqInv s) {b : Byte} {n : Index} (hp : s.hstate = .push .p1 b n) :
    TxqInv (pushStep .p1 b n s) :=
  h.of_fifo_eq rfl rfl rfl rfl rfl rfl (by simp [atP5, hp]) rfl

/-- P2 passes only with room in the FIFO (R165). -/
theorem txqInv_p2 {s : State} (h : TxqInv s) {b : Byte} {n : Index} (hp : s.hstate = .push .p2 b n)
    (hold : n ≠ s.tail) : TxqInv (pushStep .p2 b n s) := by
  have hpush := h.push
  simp only [pushInv, hp] at hpush
  exact h.of_fifo_eq rfl rfl rfl rfl rfl rfl (by simp [atP5, hp]) ⟨hpush, hold⟩

/-- P3 writes the slot after head, which is within TXQ_CAP (R166). -/
theorem txqInv_p3 {s : State} (hc : s.params.capLegal = true) (h : TxqInv s) {b : Byte} {n : Index}
    (hp : s.hstate = .push .p3 b n) : TxqInv (pushStep .p3 b n s) := by
  have hpush := h.push
  simp only [pushInv, hp] at hpush
  obtain ⟨hnext, hroom⟩ := hpush
  refine { h with
    buf_wf := write_wf _ _ _ h.buf_wf
    buf_inside := fun c hcell => ?inside
    stored_written := fun j h1 hj => isSome_read_write _ b (h.stored_written j h1 hj)
    enabled_or_p5 := fun hne => ?enabled
    push := ⟨hnext, hroom, read_write_same _ _ b⟩ }
  case inside =>
    rcases mem_write _ _ _ hcell with rfl | hcell
    · exact lt_of_masked hc (hnext ▸ nextIndex_masked s.params s.head)
    · exact h.buf_inside c hcell
  case enabled => exact .inl ((h.enabled_or_p5 hne).resolve_right (by simp [atP5, hp]))

/-- P4 publishes the slot that P3 wrote (R167). -/
theorem txqInv_p4 {s : State} (hc : s.params.capLegal = true) (h : TxqInv s) {b : Byte} {n : Index}
    (hp : s.hstate = .push .p4 b n) : TxqInv (pushStep .p4 b n s) := by
  have hpush := h.push
  simp only [pushInv, hp] at hpush
  obtain ⟨hnext, -, hslot⟩ := hpush
  refine { h with
    head_masked := hnext ▸ nextIndex_masked s.params s.head
    stored_written := fun j h1 hj => ?stored
    enabled_or_p5 := fun _ => .inr rfl
    push := rfl }
  by_cases hold : j ≤ fifoCount s
  · exact h.stored_written j h1 hold
  · have hnew : (slotAt s j).toNat = n.toNat := by
      rw [slotAt_toNat hc]
      rw [fifoCount_eq (s := pushStep .p4 b n s) hc] at hj
      rw [fifoCount_eq hc] at hold
      exact added_eq_next (capLegal_cases hc) (lt_of_masked hc h.head_masked) (lt_of_masked hc h.tail_masked)
        (by rw [hnext, nextIndex_toNat hc]) hj hold
    show (s.buf.read (slotAt s j).toNat).isSome = true
    rw [hnew, hslot, Option.isSome_some]

/-- P5 sets the enable and ends the push (R168). -/
theorem txqInv_p5 {s : State} (h : TxqInv s) {b : Byte} {n : Index} : TxqInv (pushStep .p5 b n s) :=
  { h with
    enabled_or_p5 := fun _ => .inl rfl
    enable_or_ready := .inl rfl
    push := trivial }

theorem txqInv_pushStep {s : State} (hc : s.params.capLegal = true) (h : TxqInv s) {st : PushStep} {b : Byte}
    {n : Index} (hp : s.hstate = .push st b n) (hold : st = .p2 → n ≠ s.tail) : TxqInv (pushStep st b n s) := by
  cases st with
  | p1 => exact txqInv_p1 h hp
  | p2 => exact txqInv_p2 h hp (hold rfl)
  | p3 => exact txqInv_p3 hc h hp
  | p4 => exact txqInv_p4 hc h hp
  | p5 => exact txqInv_p5 h

/-- DRAIN's case A takes one stored slot (R174, I3). -/
theorem fifoCount_drainStep {s : State} (hc : s.params.capLegal = true) (hhead : s.head.toNat < s.params.txqCap)
    (htail : s.tail.toNat < s.params.txqCap) (hne : s.head ≠ s.tail) :
    fifoCount s = fifoCount (drainStep s) + 1 := by
  have hc' : (drainStep s).params.capLegal = true := by rwa [drainStep_params]
  rw [fifoCount_eq hc, fifoCount_eq hc', drainStep_head, drainStep_params, drainStep_tail_of_nonempty hne]
  exact count_tail_next (capLegal_cases hc) hhead htail (nextIndex_toNat hc s.tail) (index_ne_iff.1 hne)

/-- The slot it takes is the oldest one. -/
theorem slotAt_drainStep {s : State} (hc : s.params.capLegal = true) (hne : s.head ≠ s.tail) (j : Nat) :
    slotAt (drainStep s) j = slotAt s (j + 1) := by
  have hc' : (drainStep s).params.capLegal = true := by rwa [drainStep_params]
  apply BitVec.eq_of_toNat_eq
  rw [slotAt_toNat hc, slotAt_toNat hc', drainStep_params, drainStep_tail_of_nonempty hne, nextIndex_toNat hc,
    slot_after_drain]

/-- A push in progress keeps its room while DRAIN moves tail on. -/
theorem pushInv_drainStep {s : State} (hc : s.params.capLegal = true) (h : TxqInv s) (hne : s.head ≠ s.tail) :
    pushInv (drainStep s) := by
  refine pushInv_of_eq h.push (by simp) (by simp) (by simp) (by simp) fun _ => ?_
  rw [drainStep_tail_of_nonempty hne, index_ne_iff, nextIndex_toNat hc, nextIndex_toNat hc]
  exact next_ne_next (capLegal_cases hc) (lt_of_masked hc h.head_masked) (lt_of_masked hc h.tail_masked)
    (index_ne_iff.1 hne)

/-- DRAIN's case A is taken with the enable set, and leaves it so (R169). -/
theorem txqInv_drainStep_nonempty {s : State} (hc : s.params.capLegal = true) (h : TxqInv s) (ie : s.txie = true)
    (hne : s.head ≠ s.tail) : TxqInv (drainStep s) := by
  have hie : (drainStep s).txie = true := by rw [drainStep_of_nonempty hne]; exact ie
  refine ⟨?head, ?tail, ?wf, ?inside, fun j h1 hj => ?stored, fun _ => .inl hie, .inl hie, pushInv_drainStep hc h hne⟩
  case head => simpa using h.head_masked
  case tail =>
    rw [drainStep_tail_of_nonempty hne, drainStep_params]
    exact nextIndex_masked s.params s.tail
  case wf => simpa using h.buf_wf
  case inside => simpa using h.buf_inside
  case stored =>
    have hcount := fifoCount_drainStep hc (lt_of_masked hc h.head_masked) (lt_of_masked hc h.tail_masked) hne
    rw [drainStep_buf, slotAt_drainStep hc hne]
    exact h.stored_written (j + 1) (by omega) (by omega)

theorem txqInv_drainStep {s : State} (hc : s.params.capLegal = true) (h : TxqInv s) (ie : s.txie = true)
    (ready : s.txReady = true) : TxqInv (drainStep s) := by
  by_cases he : s.head = s.tail
  · rw [drainStep_of_empty he]
    exact { h with
      enabled_or_p5 := fun hne => absurd he hne
      enable_or_ready := .inr ready }
  · exact txqInv_drainStep_nonempty hc h ie he

theorem txqInv_serStep {s : State} (h : TxqInv s) : TxqInv (serStep s) :=
  { h with enable_or_ready := .inr rfl }

/-! ## HOST's part of the invariant (R21, R40, R96, R163, R191) -/

theorem HostInv.of_eq {s t : State} (h : HostInv s) (prog : t.prog = s.prog) (pc : t.pc = s.pc)
    (hstate : t.hstate = s.hstate) (fault : t.fault = s.fault)
    (closed : s.hstate = .halted → t.busy = s.busy ∧ t.phase = s.phase) : HostInv t := by
  have hfetch : fetch t = fetch s := by simp only [fetch, prog, pc]
  refine ⟨?_, fun ht => ?_, ?_⟩
  · rw [hstate, hfetch]; exact h.push_statement
  · rw [hstate] at ht
    rw [(closed ht).1, (closed ht).2]
    exact h.halted_closed ht
  · rw [fault, pc, hstate, hfetch]; exact h.fault_precise

/-- In RUN or FATAL with no fault recorded HOST has nothing to keep. -/
theorem hostInv_of_not_push {s : State} (hpush : ∀ st b n, s.hstate ≠ .push st b n) (hhalt : s.hstate ≠ .halted)
    (hnone : s.fault = none) : HostInv s :=
  ⟨fun st b n h => absurd h (hpush st b n), fun h => absurd h hhalt, fun r h => by simp [hnone] at h⟩

/-- A fault raised in RUN names the statement at pc, or PC_RANGE where there is none. -/
theorem hostInv_raiseFault {s : State} (hr : s.hstate = .run) (hnone : s.fault = none) {c : FaultCode} {w : Word}
    (hw : fetch s = some w ∨ (fetch s = none ∧ c = .pcRange)) : HostInv (raiseFault c w s) := by
  rw [raiseFault_of_none s c w hnone]
  refine ⟨fun st b n h => ?_, fun h => ?_, fun r h => ?_⟩
  · simp [hr] at h
  · simp [hr] at h
  · cases h
    exact ⟨rfl, hr, hw⟩

/-- While HOST is at a push with no fault recorded, the statement at pc is that push. -/
theorem hostInv_of_push {s : State} {st : PushStep} {b : Byte} {n : Index} (hp : s.hstate = .push st b n)
    (hfetch : fetch s = some (encode (.txqPush b))) (hnone : s.fault = none) : HostInv s := by
  refine ⟨fun st' b' n' h => ?_, fun h => ?_, fun r h => ?_⟩
  · cases hp.symm.trans h
    exact hfetch
  · cases hp.symm.trans h
  · cases hnone.symm.trans h

theorem hostInv_of_effect {i : Instr} {s t : State} (hr : s.hstate = .run) (hnone : s.fault = none)
    (hi : fetch s = some (encode i)) (e : Effect i s t) : HostInv t := by
  cases e with
  | raised c => exact hostInv_raiseFault hr hnone (.inl hi)
  | pushing b isPush => exact hostInv_of_push rfl (isPush ▸ hi) hnone
  | halted isHalt idle closed => exact ⟨by simp, fun _ => ⟨idle, closed⟩, by simp [hnone]⟩
  | _ => exact hostInv_of_not_push (by simp [hr]) (by simp [hr]) hnone

theorem hostInv_pushStep {s : State} (h : HostInv s) (hnone : s.fault = none) {st : PushStep} {b : Byte} {n : Index}
    (hp : s.hstate = .push st b n) : HostInv (pushStep st b n s) := by
  have hfetch := h.push_statement st b n hp
  cases st with
  | p5 => exact hostInv_of_not_push (by simp [pushStep]) (by simp [pushStep]) hnone
  | _ => exact hostInv_of_push rfl hfetch hnone

/-! ## The invariant of every reachable state -/

theorem inv_consumeChoice {s : State} (h : Inv s) : Inv (consumeChoice s) where
  capacity := h.capacity
  twm := h.twm.of_eq rfl rfl rfl rfl rfl
  txq := h.txq.of_eq rfl rfl rfl rfl rfl rfl rfl
  host := h.host.of_eq rfl rfl rfl rfl fun _ => ⟨rfl, rfl⟩

theorem inv_raiseFault {s : State} (h : Inv s) (hr : s.hstate = .run) (hnone : s.fault = none) {c : FaultCode}
    {w : Word} (hw : fetch s = some w ∨ (fetch s = none ∧ c = .pcRange)) : Inv (raiseFault c w s) where
  capacity := by simpa using h.capacity
  twm := h.twm.of_eq (by simp) (by simp) (by simp) (by simp) (by simp)
  txq := h.txq.of_eq (by simp) (by simp) (by simp) (by simp) (by simp) (by simp) (by simp)
  host := hostInv_raiseFault hr hnone hw

theorem inv_statementStep {s t : State} (h : Inv s) (hr : s.hstate = .run) (hnone : s.fault = none)
    (e : StatementStep s t) : Inv t := by
  cases e with
  | pastEnd hf => exact inv_raiseFault h hr hnone (.inr ⟨hf, rfl⟩)
  | badWord w c hf hd => exact inv_raiseFault h hr hnone (.inl hf)
  | statement w i t hf hd he =>
    rw [eq_encode_of_decodeWord hd] at hf
    exact
      { capacity := by simpa only [he.frame] using h.capacity
        twm := twmInv_of_effect h.twm he
        txq := txqInv_of_effect h.txq hr he
        host := hostInv_of_effect hr hnone hf he }

theorem inv_pushStep {s : State} (h : Inv s) (hnone : s.fault = none) {st : PushStep} {b : Byte} {n : Index}
    (hp : s.hstate = .push st b n) (hold : st = .p2 → n ≠ s.tail) : Inv (pushStep st b n s) where
  capacity := by simpa using h.capacity
  twm := h.twm.of_eq (by simp) (by simp) (by simp) (by simp) (by simp)
  txq := txqInv_pushStep h.capacity h.txq hp hold
  host := hostInv_pushStep h.host hnone hp

/-- ENG moves while busy, when HALTED is out of the question (R96). -/
theorem inv_engStep {s : State} (h : Inv s) (busy : s.busy = true) : Inv (engStep s) where
  capacity := by simpa using h.capacity
  twm := twmInv_engStep h.twm busy
  txq := h.txq.of_eq (by simp) (by simp) (by simp) (by simp) (by simp) (by simp) (by simp)
  host := h.host.of_eq (by simp) (by simp) (by simp) (by simp) fun hh => by simp [h.host.halted_closed hh] at busy

theorem inv_drainStep {s : State} (h : Inv s) (ie : s.txie = true) (ready : s.txReady = true) :
    Inv (drainStep s) where
  capacity := by simpa using h.capacity
  twm := h.twm.of_eq (by simp) (by simp) (by simp) (by simp) (by simp)
  txq := txqInv_drainStep h.capacity h.txq ie ready
  host := h.host.of_eq (by simp) (by simp) (by simp) (by simp) (by simp)

theorem inv_serStep {s : State} (h : Inv s) : Inv (serStep s) where
  capacity := h.capacity
  twm := h.twm.of_eq rfl rfl rfl rfl rfl
  txq := txqInv_serStep h.txq
  host := h.host.of_eq rfl rfl rfl rfl fun _ => ⟨rfl, rfl⟩

/-- Settles O45, agent by agent, from the state whose choice is consumed. -/
theorem invStep : Obligations.InvStep := by
  intro s t hinv hstep
  have h := inv_consumeChoice hinv
  have hnone := fault_none_of_step hstep
  cases step_cases hstep with
  | stalled => exact h
  | hostRun a hr _ e => exact inv_statementStep h hr hnone e
  | widened a hr w hf => exact inv_raiseFault h hr hnone (.inl hf)
  | hostPush a st b n hp hold => exact inv_pushStep h hnone hp hold
  | eng a busy => exact inv_engStep h busy
  | drain a ie ready => exact inv_drainStep h ie ready
  | ser => exact inv_serStep h

theorem inv_launch {p : Params} (prog : List Word) (hc : p.capLegal = true) : Inv (State.launch p prog) :=
  inv_of_check hc rfl (by simp [txqInvCheck, pushInvCheck, fifoCount]) rfl

/-- Settles O44: a clean launch has no command, no byte and no push in progress, and reset is one. -/
theorem invAtLaunch : Obligations.InvAtLaunch :=
  ⟨inv_launch [] (by decide), fun _ prog hc => inv_launch prog hc⟩

end Sys2Proof.Machine
end

section
/-! SUPPORT. The data of the block (spec 20_memory.md): the bytes through the FIFO, the events on the bus, and the byte order
of the device transactions. -/

namespace Sys2Proof.Machine

/-! ## What the FIFO has accepted (R61, R167, R169, R176) -/

/-- Case A of DRAIN takes the oldest stored byte, and the others keep their order. -/
theorem queued_eq_cons_drainStep {s : State} (hc : s.params.capLegal = true) (h : TxqInv s) (hne : s.head ≠ s.tail) :
    queued s = s.buf.read (slotAt s 1).toNat :: queued (drainStep s) := by
  have hcount := fifoCount_drainStep hc (lt_of_masked hc h.head_masked) (lt_of_masked hc h.tail_masked) hne
  simp [queued, hcount, List.range_succ_eq_map, Function.comp_def, slotAt_drainStep hc hne]

/-- A slot that holds a byte is drained as that byte. -/
theorem some_slotByte {i : Index} {s : State} (h : (s.buf.read i.toNat).isSome = true) :
    some (slotByte i s) = s.buf.read i.toNat := by
  obtain ⟨b, hb⟩ := Option.isSome_iff_exists.1 h
  simp [slotByte, hb]

/-- The byte that DRAIN takes from the FIFO is the byte that it sends. -/
theorem accepted_drainStep {s : State} (hc : s.params.capLegal = true) (h : TxqInv s) :
    accepted (drainStep s) = accepted s := by
  by_cases he : s.head = s.tail
  · rw [drainStep_of_empty he]
    exact accepted_of_eq rfl rfl rfl rfl rfl
  · have hcount := fifoCount_drainStep hc (lt_of_masked hc h.head_masked) (lt_of_masked hc h.tail_masked) he
    have hsent : (drainStep s).serial = s.serial ++ [slotByte (slotAt s 1) s] := by
      rw [drainStep_of_nonempty he]
      rfl
    have holdest := some_slotByte (h.stored_written 1 le_rfl (by omega))
    simp [accepted, queued_eq_cons_drainStep hc h he, hsent, holdest]

/-- P3 writes a slot that stores no byte yet (R166). -/
theorem accepted_pushStep_p3 {s : State} (hc : s.params.capLegal = true) (h : TxqInv s) {b : Byte} {n : Index}
    (hp : s.hstate = .push .p3 b n) : accepted (pushStep .p3 b n s) = accepted s := by
  have hpush := h.push
  simp only [pushInv, hp] at hpush
  obtain ⟨rfl, hroom⟩ := hpush
  rw [index_ne_iff, nextIndex_toNat hc] at hroom
  refine congrArg (s.serial.map some ++ ·) (List.map_congr_left fun j hj => read_write_other _ b ?_)
  change (slotAt s (j + 1)).toNat ≠ (nextIndex s.params s.head).toNat
  have hj : j + 1 ≤ fifoCount s := List.mem_range.1 hj
  rw [fifoCount_eq hc] at hj
  rw [slotAt_toNat hc, nextIndex_toNat hc]
  exact stored_ne_next (capLegal_cases hc) (lt_of_masked hc h.head_masked) (lt_of_masked hc h.tail_masked) hj hroom

/-- P4 adds one stored slot (R167, R174). -/
theorem fifoCount_pushStep_p4 {s : State} (hc : s.params.capLegal = true) (h : TxqInv s) {b : Byte} {n : Index}
    (hnext : n = nextIndex s.params s.head) (hroom : n ≠ s.tail) :
    fifoCount (pushStep .p4 b n s) = fifoCount s + 1 := by
  rw [fifoCount_eq (s := pushStep .p4 b n s) hc, fifoCount_eq hc]
  exact count_head_next (capLegal_cases hc) (lt_of_masked hc h.head_masked) (lt_of_masked hc h.tail_masked)
    (hnext ▸ nextIndex_toNat hc s.head) (index_ne_iff.1 hroom)

/-- The byte that P4 publishes stands behind every stored byte (R167, R174). -/
theorem accepted_pushStep_p4 {s : State} (hc : s.params.capLegal = true) (h : TxqInv s) {b : Byte} {n : Index}
    (hp : s.hstate = .push .p4 b n) : accepted (pushStep .p4 b n s) = accepted s ++ [some b] := by
  have hpush := h.push
  simp only [pushInv, hp] at hpush
  obtain ⟨hnext, hroom, hslot⟩ := hpush
  have hcount := fifoCount_pushStep_p4 (b := b) hc h hnext hroom
  have hnew : slotAt s (fifoCount s + 1) = n := by
    refine BitVec.eq_of_toNat_eq ((slotAt_toNat hc _).trans ?_)
    refine added_eq_next (h := s.head.toNat) (capLegal_cases hc) (lt_of_masked hc h.head_masked)
      (lt_of_masked hc h.tail_masked) (by rw [hnext, nextIndex_toNat hc]) ?_ (by rw [fifoCount_eq hc]; omega)
    exact (hcount.symm.trans (fifoCount_eq (s := pushStep .p4 b n s) hc)).le
  have hqueued : queued (pushStep .p4 b n s) = queued s ++ [some b] := by
    rw [queued, hcount, List.range_succ, List.map_append, ← hslot, ← hnew]
    rfl
  simp [accepted, hqueued]

/-- Every other micro-step leaves the stored bytes alone. -/
theorem accepted_pushStep_of_ne_p4 {s : State} (hc : s.params.capLegal = true) (h : TxqInv s) {st : PushStep} {b : Byte}
    {n : Index} (hp : s.hstate = .push st b n) (hst : st ≠ .p4) : accepted (pushStep st b n s) = accepted s := by
  cases st with
  | p3 => exact accepted_pushStep_p3 hc h hp
  | p4 => exact absurd rfl hst
  | p1 | p2 | p5 => exact accepted_of_eq rfl rfl rfl rfl rfl

theorem accepted_statementStep {s t : State} (e : StatementStep s t) : accepted t = accepted s := by
  obtain ⟨hbuf, hhead, htail, -, -, hserial, -, -, -, -, hparams⟩ := e.frame
  exact accepted_of_eq hhead htail hbuf hserial hparams

@[simp] theorem accepted_consumeChoice (s : State) : accepted (consumeChoice s) = accepted s :=
  accepted_of_eq rfl rfl rfl rfl rfl

@[simp] theorem accepted_raiseFault (c : FaultCode) (w : Word) (s : State) :
    accepted (raiseFault c w s) = accepted s :=
  accepted_of_eq (by simp) (by simp) (by simp) (by simp) (by simp)

@[simp] theorem accepted_engStep (s : State) : accepted (engStep s) = accepted s :=
  accepted_of_eq (by simp) (by simp) (by simp) (by simp) (by simp)

@[simp] theorem accepted_serStep (s : State) : accepted (serStep s) = accepted s :=
  accepted_of_eq rfl rfl rfl rfl rfl

/-- Settles O46: DRAIN moves the oldest stored byte to the end of the sent ones, P4 publishes one byte behind the stored
ones, and no other step touches either. -/
theorem fifoOrder : Obligations.FifoOrder := by
  intro s t hinv hstep
  have h := inv_consumeChoice hinv
  cases step_cases hstep with
  | stalled hstalls =>
    have hhost : nextAgent s ≠ some .host := fun ha => by simp [not_stalls_of_host ha] at hstalls
    simp [hhost]
  | hostRun a hr _ e => simp [a, hr, accepted_statementStep e]
  | widened a hr => simp [a, hr]
  | hostPush a st b n hp hold =>
    by_cases hst : st = .p4
    · subst hst
      simp [a, hp, accepted_pushStep_p4 h.capacity h.txq hp]
    · simp [a, hp, hst, accepted_pushStep_of_ne_p4 h.capacity h.txq hp hst]
  | drain a => simp [a, accepted_drainStep h.capacity h.txq]
  | eng a | ser a => simp [a]

/-! ## One bus event per command (R24, R60) -/

/-- A statement leaves a command in flight as it is: it issues one only while none is in flight (R114 to R117). -/
theorem StatementStep.command_kept {s t : State} (e : StatementStep s t) (busy : s.busy = true) :
    t.busy = true ∧ t.pend = s.pend := by
  have hkept : ¬ (t.busy ≠ s.busy ∨ t.pend ≠ s.pend) := fun hne => by
    obtain ⟨idle, -⟩ := e.command_ne hne
    cases busy.symm.trans idle
  simpa [busy] using hkept

/-- Settles O42: only ENG writes the bus trace or ends a command, and the command in flight is one that emits (R119). -/
theorem oneEventPerCommand : Obligations.OneEventPerCommand := by
  intro s t hinv hstep
  cases step_cases hstep with
  | hostRun a hr _ e =>
    obtain ⟨-, -, -, -, -, -, hbus, -⟩ := e.frame
    exact .inl ⟨hbus, e.command_kept⟩
  | stalled | widened | hostPush | drain | ser => simp
  | eng a busy =>
    have htwm := (inv_consumeChoice hinv).twm
    obtain ⟨c, hc⟩ := Option.isSome_iff_exists.1 (htwm.busy_iff_pend.symm.trans busy)
    obtain ⟨e, hbus, -⟩ := engStep_emits hc (htwm.pend_legal c hc)
    exact .inr ⟨e, hbus, a, busy, by simp, by simp⟩

/-! ## The device transactions (R51, R53, R150 to R152, R154) -/

/-- An address byte is the address shifted left, with the RW bit at its end (R53). -/
theorem append_rwBit (a : BitVec 7) (rw : BitVec 1) : a ++ rw = a.setWidth 8 <<< 1 ||| rw.setWidth 8 := by
  ext i hi
  refine (BitVec.getElem_append hi).trans ?_
  cases i with
  | zero => simp
  | succ j => simp [BitVec.getLsbD_eq_getElem (show j < 7 by omega)]

theorem addressWrite_eq (p : Params) : addressWrite p = p.devAddr.setWidth 8 <<< 1 := by
  simp [addressWrite, append_rwBit]

theorem addressRead_eq (p : Params) : addressRead p = p.devAddr.setWidth 8 <<< 1 ||| 1#8 := by
  simp [addressRead, append_rwBit]

/-- A value is its two bytes, the most significant one first (R51). -/
theorem hiByte_loByte_toNat (v : BitVec 16) : (hiByte v).toNat * 256 + (loByte v).toNat = v.toNat := by
  simp only [hiByte, loByte, BitVec.extractLsb'_toNat, Nat.shiftRight_eq_div_pow]
  omega

/-- The RW bit of the address byte for writing (R53). -/
@[simp] theorem addressWrite_bit (p : Params) : (addressWrite p)[0] = false := by simp [addressWrite_eq]

/-- The RW bit of the address byte for reading. -/
@[simp] theorem addressRead_bit (p : Params) : (addressRead p)[0] = true := by simp [addressRead_eq]

/-- The phases that a `writeRegister` goes through, whatever the slave answers (R151). -/
theorem writeRegisterEvents_phases (p : Params) (reg : Byte) (v : BitVec 16) (a1 a2 a3 a4 : Bool) :
    (writeRegisterEvents p reg v a1 a2 a3 a4).inits.map tracePhase =
      [some .idle, some .addr, some .tx, some .tx, some .tx, some .tx, some .idle] := by
  simp [writeRegisterEvents, tracePhase, phaseAfter]

/-- The phases that a `readRegister` goes through, whatever the slave answers (R152). -/
theorem readRegisterEvents_phases (p : Params) (reg h l : Byte) (a1 a2 a3 : Bool) :
    (readRegisterEvents p reg h l a1 a2 a3).inits.map tracePhase =
      [some .idle, some .addr, some .tx, some .tx, some .addr, some .rx, some .rx, some .rxend, some .idle] := by
  simp [readRegisterEvents, tracePhase, phaseAfter]

/-- Settles O59: each expansion is made of the primitives', once the address bytes are written out. -/
theorem deviceTransactions : Obligations.DeviceTransactions := by
  intro p reg h l v rH rL L a1 a2 a3 a4 aw ar msb lsb
  have haw : addressWrite p = aw := addressWrite_eq p
  have har : addressRead p = ar := addressRead_eq p
  refine ⟨hiByte_loByte_toNat v, ?write, rfl, ?read, rfl, rfl, rfl, ?writeEvents, ?readEvents,
    readRegisterEvents_phases p reg h l a1 a2 a3, writeRegisterEvents_phases p reg v a1 a2 a3 a4⟩
  case write | writeEvents => rw [← haw]; rfl
  case read | readEvents => rw [← haw, ← har]; rfl

end Sys2Proof.Machine
end

section
/-! SUPPORT. The encoding (spec 30_encoding.md): the decoder against the encoder, against the opcode map, and against the
faults of R77. -/

namespace Sys2Proof

/-! ## Decoding and encoding are inverse (R71 to R74) -/

/-- The round trip of every statement, from the one of its constructor. -/
theorem decodeWord_encode (i : Instr) (h : i.wellFormed = true) : decodeWord (encode i) = .ok i := by
  open Laws.RoundTrip in
  cases i with
  | twmNop => exact twmNop h
  | twmStart => exact twmStart h
  | twmStop => exact twmStop h
  | twmWrite => exact twmWrite h
  | twmReadNack => exact twmReadNack h
  | twmReadAck => exact twmReadAck h
  | twmWrdata val => exact twmWrdata val h
  | twmRdstatus rd => exact twmRdstatus rd h
  | twmRddata rd => exact twmRddata rd h
  | txqPush val => exact txqPush val h
  | txqRdstatus rd => exact txqRdstatus rd h
  | txqRdhead rd => exact txqRdhead rd h
  | txqRdtail rd => exact txqRdtail rd h
  | bnz rs imm target => exact bnz rs imm target h
  | bz rs imm target => exact bz rs imm target h
  | bne rs imm target => exact bne rs imm target h
  | halt => exact halt h
  | fatal => exact fatal h

/-- Settles O28: each constructor's word read field by field. -/
theorem decodeOfEncode : Obligations.DecodeOfEncode := decodeWord_encode

/-- A branch's word holds its target modulo 2^16 (R73). -/
theorem encodeBranch_mod (kind : BitVec 4) (rs : Reg) (imm : Byte) (target : Nat) :
    encodeBranch kind rs imm (target % 2 ^ 16) = encodeBranch kind rs imm target := by
  apply BitVec.eq_of_toNat_eq
  rw [encodeBranch_toNat, encodeBranch_toNat, Nat.mod_mod]

/-- Every statement shares its word with a well-formed one: a target too wide is cut to its field. -/
theorem exists_wellFormed_encode_eq (i : Instr) : ∃ j : Instr, j.wellFormed = true ∧ encode j = encode i := by
  have fits (target : Nat) : decide (target % 2 ^ 16 < 2 ^ 16) = true := decide_eq_true (Nat.mod_lt _ (by decide))
  cases i with
  | bnz rs imm target => exact ⟨.bnz rs imm (target % 2 ^ 16), fits target, encodeBranch_mod 1 rs imm target⟩
  | bz rs imm target => exact ⟨.bz rs imm (target % 2 ^ 16), fits target, encodeBranch_mod 2 rs imm target⟩
  | bne rs imm target => exact ⟨.bne rs imm (target % 2 ^ 16), fits target, encodeBranch_mod 3 rs imm target⟩
  | _ => exact ⟨_, rfl, rfl⟩

/-- A decoded statement is the well-formed one that its word decodes to. -/
theorem wellFormed_of_decodeWord {w : Word} {i : Instr} (h : decodeWord w = .ok i) : i.wellFormed = true := by
  obtain ⟨j, hj, hij⟩ := exists_wellFormed_encode_eq i
  have hi : decodeWord (encode i) = .ok i := eq_encode_of_decodeWord h ▸ h
  rw [← hij, decodeWord_encode j hj] at hi
  cases hi
  exact hj

/-- Settles O29: the decoder's branches, read backwards, and the width of a decoded target. -/
theorem encodeOfDecode : Obligations.EncodeOfDecode := fun _ _ h =>
  ⟨(eq_encode_of_decodeWord h).symm, wellFormed_of_decodeWord h⟩

/-! ## The opcode map (R76) -/

/-- A word is what a mask keeps of it and what the mask clears. -/
theorem eq_and_or_and_not (w mask : Word) : w = w &&& mask ||| w &&& ~~~mask := by
  rw [← BitVec.and_or_distrib_left, BitVec.or_not_self, BitVec.and_allOnes]

/-- A field in its place is the word under the field's mask. -/
theorem field_eq_and (w : Word) (lo len : Nat) :
    (w.extractLsb' lo len).setWidth 32 <<< lo = w &&& (BitVec.allOnes len).setWidth 32 <<< lo := by
  ext i hi
  by_cases hlo : i < lo
  · simp [hlo]
  · have hi' : lo + (i - lo) = i := by omega
    simp [hlo, hi', BitVec.getLsbD_eq_getElem hi, Bool.and_comm]

/-- A word of a row that leaves RD open is a read's word (R76). -/
theorem eq_encodeRead_of_masked {w : Word} (off : BitVec 7)
    (h : w &&& 0xFFF8FFFF#32 = off.setWidth 32 <<< 8) : w = encodeRead (regOf (rdField w)) off := by
  have hrd := field_eq_and w 16 3
  have hw := eq_and_or_and_not w 0xFFF8FFFF#32
  rw [h] at hw
  rw [encodeRead_eq, regCode_regOf, rdField, hrd]
  exact hw

/-- A word of a row that leaves VAL open is the row's match with VAL put in. -/
theorem eq_or_valField_of_masked {w m : Word} (h : w &&& 0xFFFFFF00#32 = m) : w = m ||| (valField w).setWidth 32 := by
  have hval := field_eq_and w 0 8
  have hw := eq_and_or_and_not w 0xFFFFFF00#32
  rw [h] at hw
  rw [BitVec.shiftLeft_zero, BitVec.shiftLeft_zero] at hval
  rw [valField, hval]
  exact hw

/-- What a branch's mask keeps, as a number (R76). -/
theorem and_branchMask_toNat (w : Word) : (w &&& 0xF8000000#32).toNat = w.toNat / 2 ^ 27 * 2 ^ 27 := by
  have h := congrArg BitVec.toNat (field_eq_and w 27 5)
  rw [BitVec.toNat_shiftLeft, BitVec.toNat_setWidth, field_toNat, Nat.shiftLeft_eq] at h
  refine h.symm.trans ?_
  have := w.isLt
  omega

/-- A branch's row fixes KIND and clears bit 27 (R73, R76). -/
theorem and_branchMask_iff {w : Word} {kind : BitVec 4} :
    w &&& 0xF8000000#32 = kind ++ 0#28 ↔ kindOf w = kind ∧ w.getLsbD 27 = false := by
  rw [← BitVec.toNat_inj, ← BitVec.toNat_inj, and_branchMask_toNat, append_toNat, kindOf, field_toNat, bit_eq,
    decide_eq_false_iff_not, BitVec.toNat_ofNat]
  have := w.isLt; have := kind.isLt
  omega

/-- A word with a branch's KIND and bit 27 clear is a branch's word. -/
theorem eq_encodeBranch_of_masked {w : Word} {kind : BitVec 4} (h : w &&& 0xF8000000#32 = kind ++ 0#28) :
    w = encodeBranch kind (regOf (rsField w)) (immField w) (targetField w) := by
  obtain ⟨hkind, hbit⟩ := and_branchMask_iff.1 h
  exact hkind ▸ eq_encodeBranch w hbit

/-- A word matches a row when the row's mask leaves the row's match of it (R76). -/
theorem rowMatches_iff {w : Word} {row : Word × Word} : rowMatches w row = true ↔ w &&& row.2 = row.1 := beq_iff_eq

/-- A row without operands matches one word. -/
theorem rowMatches_full_iff {w m : Word} : rowMatches w (m, 0xFFFFFFFF#32) = true ↔ w = m := by
  rw [rowMatches_iff]
  exact BitVec.and_allOnes ▸ Iff.rfl

/-- A branch's word matches its row, whatever its operands. -/
theorem rowMatches_encodeBranch (kind : BitVec 4) (rs : Reg) (imm : Byte) (target : Nat) :
    rowMatches (encodeBranch kind rs imm target) (kind ++ 0#28, 0xF8000000#32) = true :=
  rowMatches_iff.2 (and_branchMask_iff.2
    ⟨kindOf_encodeBranch kind rs imm target, reserved_encodeBranch kind rs imm target⟩)

/-- A read's word matches its row, whatever its register. -/
theorem rowMatches_encodeRead (rd : Reg) (off : BitVec 7) :
    rowMatches (encodeRead rd off) (off.setWidth 32 <<< 8, 0xFFF8FFFF#32) = true := by
  cases rd <;> revert off <;> decide

/-- The words of `twm.wrdata` and `txq.push` match their rows, whatever their operand. -/
theorem rowMatches_encodeWrite_data : ∀ val : Byte,
    rowMatches (encodeWrite 0x02#7 val) (0x00008200#32, 0xFFFFFF00#32) = true ∧
    rowMatches (encodeWrite 0x08#7 val) (0x00008800#32, 0xFFFFFF00#32) = true := by decide

/-- Every statement's word matches the statement's row. -/
theorem rowMatches_encode (i : Instr) : rowMatches (encode i) (opcodeRow i) = true := by
  cases i with
  | twmNop | twmStart | twmStop | twmWrite | twmReadNack | twmReadAck | halt | fatal => decide
  | twmWrdata val => exact (rowMatches_encodeWrite_data val).1
  | txqPush val => exact (rowMatches_encodeWrite_data val).2
  | twmRdstatus rd | twmRddata rd | txqRdstatus rd | txqRdhead rd | txqRdtail rd => exact rowMatches_encodeRead rd _
  | bnz rs imm target => exact rowMatches_encodeBranch 0x1#4 rs imm target
  | bz rs imm target => exact rowMatches_encodeBranch 0x2#4 rs imm target
  | bne rs imm target => exact rowMatches_encodeBranch 0x3#4 rs imm target

/-- A word that matches a statement's row is the word of a well-formed statement of that row. -/
theorem exists_encode_of_rowMatches {w : Word} {i : Instr} (h : rowMatches w (opcodeRow i) = true) :
    ∃ j : Instr, opcodeRow j = opcodeRow i ∧ j.wellFormed = true ∧ w = encode j := by
  have hmask := rowMatches_iff.1 h
  have htarget : decide (targetField w < 2 ^ 16) = true := decide_eq_true (w.extractLsb' 0 16).isLt
  cases i with
  | twmNop | twmStart | twmStop | twmWrite | twmReadNack | twmReadAck | halt | fatal =>
    exact ⟨_, rfl, rfl, rowMatches_full_iff.1 h⟩
  | twmWrdata _ =>
    exact ⟨.twmWrdata (valField w), rfl, rfl, (eq_or_valField_of_masked hmask).trans (encodeWrite_data_eq _).1.symm⟩
  | txqPush _ =>
    exact ⟨.txqPush (valField w), rfl, rfl, (eq_or_valField_of_masked hmask).trans (encodeWrite_data_eq _).2.symm⟩
  | twmRdstatus _ => exact ⟨.twmRdstatus (regOf (rdField w)), rfl, rfl, eq_encodeRead_of_masked 0x01#7 hmask⟩
  | twmRddata _ => exact ⟨.twmRddata (regOf (rdField w)), rfl, rfl, eq_encodeRead_of_masked 0x02#7 hmask⟩
  | txqRdstatus _ => exact ⟨.txqRdstatus (regOf (rdField w)), rfl, rfl, eq_encodeRead_of_masked 0x09#7 hmask⟩
  | txqRdhead _ => exact ⟨.txqRdhead (regOf (rdField w)), rfl, rfl, eq_encodeRead_of_masked 0x0A#7 hmask⟩
  | txqRdtail _ => exact ⟨.txqRdtail (regOf (rdField w)), rfl, rfl, eq_encodeRead_of_masked 0x0B#7 hmask⟩
  | bnz _ _ _ => exact ⟨.bnz _ _ (targetField w), rfl, htarget, eq_encodeBranch_of_masked hmask⟩
  | bz _ _ _ => exact ⟨.bz _ _ (targetField w), rfl, htarget, eq_encodeBranch_of_masked hmask⟩
  | bne _ _ _ => exact ⟨.bne _ _ (targetField w), rfl, htarget, eq_encodeBranch_of_masked hmask⟩

/-- A word matches a statement's row exactly when it decodes to a statement of that row. -/
theorem rowMatches_opcodeRow_iff {w : Word} {i : Instr} :
    rowMatches w (opcodeRow i) = true ↔ ∃ j, opcodeRow j = opcodeRow i ∧ decodeWord w = .ok j := by
  constructor
  · intro h
    obtain ⟨j, hrow, hwf, rfl⟩ := exists_encode_of_rowMatches h
    exact ⟨j, hrow, decodeWord_encode j hwf⟩
  · rintro ⟨j, hrow, hj⟩
    rw [eq_encode_of_decodeWord hj, ← hrow]
    exact rowMatches_encode j

/-- The rows of the table are the statements' rows. -/
theorem mem_opcodeTable_iff {row : Word × Word} : row ∈ opcodeTable ↔ ∃ i, opcodeRow i = row := by
  constructor
  · intro h
    simp only [opcodeTable, List.mem_append, List.mem_cons] at h
    grind
  · rintro ⟨i, rfl⟩
    cases i <;> simp [opcodeTable, opcodeRow]

/-- Settles O30: a word matches a row exactly when it decodes to a statement of that row, and it decodes to one only. -/
theorem opcodeRowsDecide : Obligations.OpcodeRowsDecide := by
  have row_of {w : Word} {i : Instr} (h : decodeWord w = .ok i) :
      rowMatches w (opcodeRow i) = true ∧ opcodeRow i ∈ opcodeTable :=
    ⟨rowMatches_opcodeRow_iff.2 ⟨i, rfl, h⟩, mem_opcodeTable_iff.2 ⟨i, rfl⟩⟩
  refine ⟨fun w => ⟨?row, ?statement⟩, fun w i => row_of, ?unique⟩
  case row =>
    rintro ⟨i, h⟩
    exact ⟨opcodeRow i, (row_of h).symm⟩
  case statement =>
    rintro ⟨row, hrow, h⟩
    obtain ⟨i, rfl⟩ := mem_opcodeTable_iff.1 hrow
    obtain ⟨j, -, hj⟩ := rowMatches_opcodeRow_iff.1 h
    exact ⟨j, hj⟩
  case unique =>
    intro w r hr q hq hwr hwq
    obtain ⟨i, rfl⟩ := mem_opcodeTable_iff.1 hr
    obtain ⟨k, rfl⟩ := mem_opcodeTable_iff.1 hq
    obtain ⟨j, hji, hj⟩ := rowMatches_opcodeRow_iff.1 hwr
    obtain ⟨l, hlk, hl⟩ := rowMatches_opcodeRow_iff.1 hwq
    obtain rfl : j = l := Except.ok.inj (hj.symm.trans hl)
    exact hji.symm.trans hlk

/-! ## The faults of the decoder (R77, R78) -/

/-- A check on the format fails (R71 to R74). -/
def FormatFails (w : Word) : Prop :=
  (4 ≤ (kindOf w).toNat ∧ (kindOf w).toNat ≤ 0xD) ∨ (0xE ≤ (kindOf w).toNat ∧ w.extractLsb' 0 28 ≠ 0#28) ∨
  (1 ≤ (kindOf w).toNat ∧ (kindOf w).toNat ≤ 3 ∧ w.getLsbD 27 = true) ∨
  ((kindOf w).toNat = 0 ∧ (w.extractLsb' 19 9 ≠ 0#9 ∨ (writeBit w = true ∧ (rdField w).toNat ≠ 0) ∨
    (writeBit w = false ∧ (valField w).toNat ≠ 0)))

/-- The access is none of the eight of the register map (R31). -/
def AccessUnmapped (w : Word) : Prop :=
  (kindOf w).toNat = 0 ∧ (writeBit w, (offField w).toNat) ∉ [(true, 0x00), (false, 0x01), (true, 0x02), (false, 0x02),
    (true, 0x08), (false, 0x09), (false, 0x0A), (false, 0x0B)]

/-- TWM_CTRL is written with a value that names no command (R28). -/
def CommandUndefined (w : Word) : Prop :=
  (kindOf w).toNat = 0 ∧ writeBit w = true ∧ (offField w).toNat = 0 ∧
    (valField w).toNat ∉ [0x00, 0x01, 0x02, 0x03, 0x04, 0x0C]

/-- The format-A checks, on the fields as the decoder compares them. -/
theorem formatFails_access_iff {w : Word} (hk : kindOf w = 0x0#4) :
    FormatFails w ↔ w.extractLsb' 19 9 ≠ 0#9 ∨ (writeBit w = true ∧ rdField w ≠ 0#3) ∨
      (writeBit w = false ∧ valField w ≠ 0#8) := by
  simp [FormatFails, hk, ← BitVec.toNat_inj]

/-- The checks on the format come first. -/
theorem decodeWord_of_formatFails {w : Word} (h : FormatFails w) : decodeWord w = .error .illegalStatement := by
  unfold decodeWord
  split_ifs with access bnz bz bne halt fatal
  · unfold decodeAccess
    obtain hreserved | hwrite | hread := (formatFails_access_iff access).1 h
    · exact if_pos hreserved
    · rw [if_pos hwrite, ite_self]
    · rw [if_pos hread, ite_self, ite_self]
  · exact if_pos (by simpa [FormatFails, bnz] using h)
  · exact if_pos (by simpa [FormatFails, bz] using h)
  · exact if_pos (by simpa [FormatFails, bne] using h)
  · exact if_pos (by simpa [FormatFails, halt] using h)
  · exact if_pos (by simpa [FormatFails, fatal] using h)
  · rfl

/-- Outside KIND 0 the checks on the format are the only ones. -/
theorem exists_decodeWord_of_kind_ne {w : Word} (hf : ¬ FormatFails w) (hk : kindOf w ≠ 0x0#4) :
    ∃ i, decodeWord w = .ok i := by
  rw [decodeWord, if_neg hk]
  split_ifs with bnz bz bne halt fatal
  · exact ⟨_, if_neg (by simpa [FormatFails, bnz] using hf)⟩
  · exact ⟨_, if_neg (by simpa [FormatFails, bz] using hf)⟩
  · exact ⟨_, if_neg (by simpa [FormatFails, bne] using hf)⟩
  · exact ⟨_, if_neg (by simpa [FormatFails, halt] using hf)⟩
  · exact ⟨_, if_neg (by simpa [FormatFails, fatal] using hf)⟩
  · refine absurd (.inl ?_) hf
    bv_omega

/-- A write of KIND 0 whose format is right is a format-A write (R71, R72). -/
theorem eq_encodeWrite_of_format {w : Word} (hf : ¬ FormatFails w) (hk : kindOf w = 0x0#4) (hw : writeBit w = true) :
    w = encodeWrite (offField w) (valField w) := by
  obtain ⟨hreserved, hrd⟩ : w.extractLsb' 19 9 = 0#9 ∧ rdField w = 0#3 := by
    simpa [formatFails_access_iff hk, hw] using hf
  have h := eq_encodeAccess w hk hreserved
  rwa [hrd, hw] at h

/-- A read of KIND 0 whose format is right is a format-A read (R71, R72). -/
theorem eq_encodeRead_of_format {w : Word} (hf : ¬ FormatFails w) (hk : kindOf w = 0x0#4) (hr : writeBit w = false) :
    w = encodeRead (regOf (rdField w)) (offField w) := by
  obtain ⟨hreserved, hval⟩ : w.extractLsb' 19 9 = 0#9 ∧ valField w = 0#8 := by
    simpa [formatFails_access_iff hk, hr] using hf
  have h := eq_encodeAccess w hk hreserved
  rwa [hval, hr, ← regCode_regOf (rdField w)] at h

/-- The register map of the writes (R31). -/
theorem accessUnmapped_write_iff {w : Word} (hk : kindOf w = 0x0#4) (hw : writeBit w = true) :
    AccessUnmapped w ↔ offField w ≠ 0x00#7 ∧ offField w ≠ 0x02#7 ∧ offField w ≠ 0x08#7 := by
  simp [AccessUnmapped, hk, hw, ← BitVec.toNat_inj]

/-- The register map of the reads (R31). -/
theorem accessUnmapped_read_iff {w : Word} (hk : kindOf w = 0x0#4) (hr : writeBit w = false) :
    AccessUnmapped w ↔ offField w ≠ 0x01#7 ∧ offField w ≠ 0x02#7 ∧ offField w ≠ 0x09#7 ∧ offField w ≠ 0x0A#7 ∧
      offField w ≠ 0x0B#7 := by
  simp [AccessUnmapped, hk, hr, ← BitVec.toNat_inj]

/-- The values that name no command (R28). -/
theorem ctrlCommand_eq_none_iff (val : Byte) :
    ctrlCommand val = none ↔ val.toNat ∉ [0x00, 0x01, 0x02, 0x03, 0x04, 0x0C] := by
  revert val; decide

/-- The access check comes next. -/
theorem decodeWord_of_accessUnmapped {w : Word} (hf : ¬ FormatFails w) (hu : AccessUnmapped w) :
    decodeWord w = .error .badAccess := by
  have hk : kindOf w = 0x0#4 := BitVec.eq_of_toNat_eq hu.1
  cases hw : writeBit w with
  | true =>
    rw [eq_encodeWrite_of_format hf hk hw, decodeWord_encodeWrite]
    simp [(accessUnmapped_write_iff hk hw).1 hu]
  | false =>
    rw [eq_encodeRead_of_format hf hk hw, decodeWord_encodeRead]
    simp [(accessUnmapped_read_iff hk hw).1 hu]

/-- The command check comes last. -/
theorem decodeWord_of_commandUndefined {w : Word} (hf : ¬ FormatFails w) (hc : CommandUndefined w) :
    decodeWord w = .error .badCmd := by
  obtain ⟨hk, hw, hoff, hval⟩ := hc
  rw [eq_encodeWrite_of_format hf (BitVec.eq_of_toNat_eq hk) hw, decodeWord_encodeWrite,
    if_pos (BitVec.eq_of_toNat_eq hoff), (ctrlCommand_eq_none_iff _).2 hval]

/-- A word that fails none of the three checks is a statement's. -/
theorem exists_decodeWord {w : Word} (hf : ¬ FormatFails w) (hu : ¬ AccessUnmapped w) (hc : ¬ CommandUndefined w) :
    ∃ i, decodeWord w = .ok i := by
  by_cases hk : kindOf w = 0x0#4
  · cases hw : writeBit w with
    | true =>
      rw [eq_encodeWrite_of_format hf hk hw, decodeWord_encodeWrite]
      split_ifs with ctrl data push
      · cases hv : ctrlCommand (valField w) with
        | some c => exact ⟨_, rfl⟩
        | none => exact absurd ⟨by rw [hk]; rfl, hw, by rw [ctrl]; rfl, (ctrlCommand_eq_none_iff _).1 hv⟩ hc
      · exact ⟨_, rfl⟩
      · exact ⟨_, rfl⟩
      · exact absurd ((accessUnmapped_write_iff hk hw).2 ⟨ctrl, data, push⟩) hu
    | false =>
      rw [eq_encodeRead_of_format hf hk hw, decodeWord_encodeRead]
      split_ifs with status data txqStatus txqHead txqTail
      case neg => exact absurd ((accessUnmapped_read_iff hk hw).2 ⟨status, data, txqStatus, txqHead, txqTail⟩) hu
      all_goals exact ⟨_, rfl⟩
  · exact exists_decodeWord_of_kind_ne hf hk

/-- Every word is a statement's or answers one fault of R77, by the first of its three checks that fails. -/
theorem decodeWord_faultOrder (w : Word) :
    (decodeWord w = .error .illegalStatement ↔ FormatFails w) ∧
    (decodeWord w = .error .badAccess ↔ ¬ FormatFails w ∧ AccessUnmapped w) ∧
    (decodeWord w = .error .badCmd ↔ ¬ FormatFails w ∧ ¬ AccessUnmapped w ∧ CommandUndefined w) ∧
    ((∃ i, decodeWord w = .ok i) ↔ ¬ FormatFails w ∧ ¬ AccessUnmapped w ∧ ¬ CommandUndefined w) := by
  by_cases hf : FormatFails w
  · simp [decodeWord_of_formatFails hf, hf]
  by_cases hu : AccessUnmapped w
  · simp [decodeWord_of_accessUnmapped hf hu, hf, hu]
  by_cases hc : CommandUndefined w
  · simp [decodeWord_of_commandUndefined hf hc, hf, hu, hc]
  obtain ⟨i, h⟩ := exists_decodeWord hf hu hc
  simp [h, hf, hu, hc]

/-- Settles O31: in each of the four regions the decoder has one answer, and the regions exclude one another. -/
theorem decodeFaultOrder : Obligations.DecodeFaultOrder := decodeWord_faultOrder

/-- Settles O32: the decoder, run on the eight words. -/
theorem specWordsDecode : Obligations.SpecWordsDecode := by
  unfold Obligations.SpecWordsDecode
  and_intros <;> decide

end Sys2Proof
end

section
/-! SUPPORT. The host program (spec 40_host_program.md): the branches, `halt` and `fatal`, HOST's step in RUN, and the end of
a run. -/

namespace Sys2Proof.Machine

/-! ## Branches (R92 to R95) -/

/-- A branch on a written register goes where its condition says. -/
theorem branchIf_of_get {taken : Byte → Bool} {rs : Reg} {v : Byte} {s : State} (target : Nat) (w : Word) {P : Prop}
    [Decidable P] (hP : taken v = true ↔ P) (hv : s.regs.get rs = some v) :
    branchIf taken rs target w s = .next { s with pc := if P then target else s.pc + 1 } := by
  obtain ⟨hnone, -⟩ | ⟨v', hv', h⟩ := branchIf_eq taken rs target w s
  · simp [hv] at hnone
  · obtain rfl : v = v' := Option.some.inj (hv.symm.trans hv')
    simp only [h, hP]

/-- A branch on an unwritten register records UNWRITTEN_REG. -/
theorem branchIf_of_unwritten {rs : Reg} {s : State} (taken : Byte → Bool) (target : Nat) (w : Word)
    (hfault : s.fault = none) (hv : s.regs.get rs = none) :
    branchIf taken rs target w s = .next { s with fault := some ⟨.unwrittenReg, s.pc, w⟩ } := by
  obtain ⟨-, h⟩ | ⟨v, hv', -⟩ := branchIf_eq taken rs target w s
  · rw [h, raiseFault_of_none s _ _ hfault]
  · simp [hv] at hv'

/-- Settles O21: `bnz` is the branch that is taken when the masked value is not 0. -/
theorem bnzBranches : Obligations.BnzBranches := fun rs imm target _ hfault htarget =>
  ⟨decodeWord_encode (.bnz rs imm target) (decide_eq_true htarget),
    fun _ => branchIf_of_get target _ bne_iff_ne,
    branchIf_of_unwritten _ target _ hfault⟩

/-- Settles O22: `bz` is the branch that is taken when the masked value is 0. -/
theorem bzBranches : Obligations.BzBranches := fun rs imm target _ hfault htarget =>
  ⟨decodeWord_encode (.bz rs imm target) (decide_eq_true htarget),
    fun _ => branchIf_of_get target _ beq_iff_eq,
    branchIf_of_unwritten _ target _ hfault⟩

/-- Settles O23: `bne` is the branch that is taken when the value is not the immediate. -/
theorem bneBranches : Obligations.BneBranches := fun rs imm target _ hfault htarget =>
  ⟨decodeWord_encode (.bne rs imm target) (decide_eq_true htarget),
    fun _ => branchIf_of_get target _ bne_iff_ne,
    branchIf_of_unwritten _ target _ hfault⟩

/-! ## `halt` and `fatal` (R96, R97) -/

/-- `halt` with no transaction open (R96). -/
theorem execHalt_of_closed {s : State} (hbusy : s.busy = false) (hphase : s.phase = .idle) :
    execHalt s = .next { s with hstate := .halted } :=
  if_neg (by simp [hbusy, hphase])

/-- `halt` with a command in flight or a transaction open (R96). -/
theorem execHalt_of_open {s : State} (h : s.busy = true ∨ s.phase ≠ .idle) :
    execHalt s = .next (raiseFault .openTransaction (encode .halt) s) :=
  if_pos h

/-- Settles O24: the two branches of `halt`. -/
theorem haltEndsProgram : Obligations.HaltEndsProgram := by
  refine fun s hfault => ⟨decodeWord_encode .halt rfl, execHalt_of_closed, fun hopen => ?_⟩
  exact (execHalt_of_open hopen).trans (congrArg _ (raiseFault_of_none s _ _ hfault))

/-- HOST's readiness is the only part of `enabled` that reads `hstate` (R22). -/
theorem enabled_of_hstate (s : State) (h : HState) {a : Agent} (ha : a ≠ .host) :
    enabled a { s with hstate := h } = enabled a s := by
  cases a with
  | host => exact absurd rfl ha
  | eng | drain | ser => rfl

/-- In HALTED and FATAL the host has no enabled step (R22). -/
theorem not_enabled_host {s : State} (h : s.hstate = .halted ∨ s.hstate = .fatal) : enabled .host s = false := by
  have : hostReady s = false := by rcases h with h | h <;> rw [hostReady, h]
  simp [enabled, this]

/-- A step changes the host's run state only if HOST can move (R22). -/
theorem step_hstate_of_host_disabled {s t : State} (h : step s = .next t) (hhost : enabled .host s = false) :
    t.hstate = s.hstate := by
  cases step_cases h with
  | stalled => rfl
  | hostRun host | widened host | hostPush host => simp [nextAgent_enabled host] at hhost
  | eng | drain | ser => simp

/-- Settles O25: in FATAL the host has no step, and no other agent writes `hstate`. -/
theorem fatalStopsHost : Obligations.FatalStopsHost := by
  refine fun s => ⟨decodeWord_encode .fatal rfl, rfl, fun a => enabled_of_hstate s .fatal, fun hfatal => ?_⟩
  have hhost := not_enabled_host (.inr hfatal)
  exact ⟨by simp [isFinal, hfatal], hhost, fun t ht => (step_hstate_of_host_disabled ht hhost).trans hfatal⟩

/-! ## HOST's step in RUN (R90, R54) -/

/-- The platform makes a wide access of the window of the access statement `w` (R54). -/
def Widened (s : State) (w : Word) : Prop :=
  kindOf w = 0#4 ∧ decodeWord w ≠ .error .illegalStatement ∧
  ∃ a : WideAccess, s.wideAccesses.head? = some (some a) ∧
    s.params.blockBase < a.addr + (a.extra + 2) ∧ a.addr < s.params.blockBase + 128

theorem isAccess_iff {w : Word} : isAccess w = true ↔ kindOf w = 0#4 ∧ decodeWord w ≠ .error .illegalStatement := by
  simp only [isAccess, Bool.and_eq_true, beq_iff_eq]
  refine and_congr_right fun _ => ?_
  split
  · rename_i hd; simp [hd]
  · rename_i hd; simpa using hd

/-- The platform's fault of a word that it widens. -/
theorem platformFault_of_widened {s : State} {w : Word} (hrun : s.hstate = .run) (hfetch : fetch s = some w)
    (h : Widened s w) : platformFault .host s = some (.badAccess, w) := by
  obtain ⟨hkind, hformat, a, ha, hreach⟩ := h
  obtain ⟨rest, hlist⟩ := List.head?_eq_some_iff.1 ha
  simp [platformFault, hrun, hfetch, hlist, isAccess_iff.2 ⟨hkind, hformat⟩, wideFault_eq, reachesWindow_iff.2 hreach]

/-- The platform raises no fault of a word that it does not widen. -/
theorem platformFault_of_fetch_not_widened {s : State} (h : ∀ w, fetch s = some w → ¬ Widened s w) :
    platformFault .host s = none := by
  cases hp : platformFault .host s with
  | none => rfl
  | some f =>
    obtain ⟨c, w⟩ := f
    obtain ⟨-, -, hfetch, haccess, -, a, ha, hreach⟩ := platformFault_cases hp
    obtain ⟨hkind, hformat⟩ := isAccess_iff.1 haccess
    exact absurd ⟨hkind, hformat, a, ha, reachesWindow_iff.1 hreach⟩ (h w hfetch)

/-- HOST's step in RUN, where the platform raises no fault. -/
theorem step_of_run {s : State} (hc : s.params.capLegal = true) (hrun : s.hstate = .run)
    (hhost : nextAgent s = some .host) (hp : platformFault .host s = none) :
    step s = runStatement (consumeChoice s) := by
  rw [step_of_host hc hhost hp, hostStep, consumeChoice_hstate, hrun]

theorem runStatement_of_decode {s : State} {w : Word} {i : Instr} (hfetch : fetch s = some w)
    (hdecode : decodeWord w = .ok i) : runStatement s = exec i s := by
  simp [runStatement, hfetch, hdecode]

theorem runStatement_of_badWord {s : State} {w : Word} {c : FaultCode} (hfetch : fetch s = some w)
    (hdecode : decodeWord w = .error c) : runStatement s = .next (raiseFault c w s) := by
  simp [runStatement, hfetch, hdecode]

theorem runStatement_of_pastEnd {s : State} (hfetch : fetch s = none) :
    runStatement s = .next (raiseFault .pcRange (Config.pcRangeWord s.tick) s) := by
  simp [runStatement, hfetch]

/-- A word placed at an index is found there. -/
theorem placeWord_getElem? (w : Word) (prog : List Word) (n : Nat) : (placeWord prog n w)[n]? = some w := by
  induction prog, n, w using placeWord.induct with
  | case1 w => rfl
  | case2 n w ih => simpa [placeWord] using ih
  | case3 v rest w => rfl
  | case4 v rest n w ih => simpa [placeWord] using ih

theorem fetch_withFetchWord (s : State) (w : Word) : fetch (s.withFetchWord 32 w.toNat) = some w := by
  have hw : BitVec.ofNat 32 (w.toNat % 2 ^ 32) = w := by
    rw [Nat.mod_eq_of_lt w.isLt, BitVec.ofNat_toNat, BitVec.setWidth_eq]
  exact (placeWord_getElem? _ s.prog s.pc).trans (congrArg some hw)

theorem capLegal_withFetchWord (s : State) (nbits w : Nat) :
    (s.withFetchWord nbits w).params.capLegal = true := by
  unfold State.withFetchWord
  dsimp only
  split
  · assumption
  · exact (capLegal_iff _).2 ⟨2, by decide, by decide, rfl⟩

/-- The schedule that `withFetchWord` sets up lets HOST move. -/
theorem nextAgent_withFetchWord (s : State) (nbits w : Nat) : nextAgent (s.withFetchWord nbits w) = some .host :=
  (moves_of_preferred (a := .host) (s := s.withFetchWord nbits w) rfl rfl).2

/-- Settles O33: HOST's step is `runStatement` unless the platform widens the statement at pc, and each fault is recorded in
an empty fault register. -/
theorem stepRunsDecodedStatement : Obligations.StepRunsDecodedStatement := by
  refine ⟨fun s hc hfault hrun hhost => ?run, fun s w i hdecode => ?placed⟩
  case run =>
    have record (c : FaultCode) (w : Word) := raiseFault_of_none (consumeChoice s) c w hfault
    have unwidened {w : Word} (hfetch : fetch s = some w) (h : ¬ Widened s w) :
        step s = runStatement (consumeChoice s) :=
      step_of_run hc hrun hhost <| platformFault_of_fetch_not_widened fun w' hw' =>
        Option.some.inj (hfetch.symm.trans hw') ▸ h
    refine ⟨fun w i hfetch hdecode h => ?statement, fun w c hfetch hdecode h => ?badWord, fun w hfetch h => ?widened,
      fun hend => ⟨Config.pcRangeWord (s.tick + 1), ?pastEnd⟩⟩
    case statement => exact (unwidened hfetch h).trans (runStatement_of_decode hfetch hdecode)
    case badWord =>
      rw [unwidened hfetch h, runStatement_of_badWord (s := consumeChoice s) hfetch hdecode, record]
      rfl
    case widened =>
      rw [step_of_platformFault hc hhost (platformFault_of_widened hrun hfetch h), record]
      rfl
    case pastEnd =>
      have hfetch : fetch s = none := List.getElem?_eq_none hend
      have hp := platformFault_of_fetch_not_widened (s := s) (by simp [hfetch])
      rw [step_of_run hc hrun hhost hp, runStatement_of_pastEnd (s := consumeChoice s) hfetch, record]
      rfl
  case placed =>
    have hstep := step_of_run (capLegal_withFetchWord s 32 w.toNat) rfl (nextAgent_withFetchWord s 32 w.toNat)
      (platformFault_of_not_widened rfl)
    exact hstep.trans (runStatement_of_decode (fetch_withFetchWord s w) hdecode)

/-! ## The end of a run (R99) -/

theorem isFinal_iff {s : State} : isFinal s = true ↔ s.fault = none ∧ s.hstate = .halted ∧ s.busy = false ∧
    s.phase = .idle ∧ s.head = s.tail ∧ s.txie = false ∧ s.txReady = true := by
  simp [isFinal, and_assoc]

/-- Each agent is disabled in a final state by one of R99's conditions. -/
theorem not_enabled_of_isFinal {s : State} (h : isFinal s = true) (a : Agent) : enabled a s = false := by
  obtain ⟨-, hhalted, hbusy, -, -, htxie, hready⟩ := isFinal_iff.1 h
  cases a with
  | host => exact not_enabled_host (.inl hhalted)
  | eng => simp [enabled, hbusy]
  | drain => simp [enabled, htxie]
  | ser => simp [enabled, hready]

theorem stopReason_of_no_fault {s : State} (h : s.fault = none) :
    stopReason s = if isFinal s = true then .runEnded else .stuck := by
  simp [stopReason, h]

/-- Settles O37: where no agent is enabled a step stops, and says whether the state is final. -/
theorem endOfRun : Obligations.EndOfRun := by
  refine fun s hc => ⟨isFinal_iff, fun hfinal => ?final, fun hfault hnot hnone => ?stuck⟩
  case final =>
    have hnone := not_enabled_of_isFinal hfinal
    obtain ⟨hfault, -⟩ := isFinal_iff.1 hfinal
    exact ⟨hnone, by rw [step_of_none_enabled hc hnone, stopReason_of_no_fault hfault, if_pos hfinal]⟩
  case stuck =>
    rw [step_of_none_enabled hc hnone, stopReason_of_no_fault hfault, if_neg (by simp [hnot])]

end Sys2Proof.Machine
end

section
/-! SUPPORT. The bus transport (spec 41_bus_transport.md): the TWM statements, the completions of ENG, the legality
table, the bus trace, and the bus primitives. -/

namespace Sys2Proof.Machine

/-! ## Access statements, by the access's answer (R91) -/

theorem accessRead_of_ok {r : BlkReg} {s : State} {v : Byte} (rd : Reg) (w : Word)
    (h : blkRead (offsetOf r) s = .ok v) : accessRead r rd w s = .next (writeReg rd v s).nextPc := by
  rw [accessRead, h]

theorem accessRead_of_error {r : BlkReg} {s : State} {c : FaultCode} (rd : Reg) (w : Word) (hfault : s.fault = none)
    (h : blkRead (offsetOf r) s = .error c) :
    accessRead r rd w s = .next { s with fault := some ⟨c, s.pc, w⟩ } := by
  rw [accessRead, h, ← raiseFault_of_none s c w hfault]

theorem accessWrite_of_ok {r : BlkReg} {v : Byte} {s t : State} (w : Word)
    (h : blkWrite (offsetOf r) v s = .ok t) : accessWrite r v w s = .next t.nextPc := by
  rw [accessWrite, h]

theorem accessWrite_of_error {r : BlkReg} {v : Byte} {s : State} {c : FaultCode} (w : Word) (hfault : s.fault = none)
    (h : blkWrite (offsetOf r) v s = .error c) :
    accessWrite r v w s = .next { s with fault := some ⟨c, s.pc, w⟩ } := by
  rw [accessWrite, h, ← raiseFault_of_none s c w hfault]

/-! ## TWM_STATUS and TWM_DATA (R110 to R112) -/

theorem encode_twmRdstatus (rd : Reg) :
    encode (.twmRdstatus rd) = 0x00000100#32 ||| (regCode rd).setWidth 32 <<< 16 :=
  encodeRead_eq rd 0x01#7

theorem encode_twmRddata (rd : Reg) :
    encode (.twmRddata rd) = 0x00000200#32 ||| (regCode rd).setWidth 32 <<< 16 :=
  encodeRead_eq rd 0x02#7

theorem encode_twmWrdata (v : Byte) : encode (.twmWrdata v) = 0x00008200#32 ||| v.setWidth 32 :=
  (encodeWrite_data_eq v).1

/-- Settles O1: no read of TWM_STATUS faults, and each phase has its code. -/
theorem twmRdstatusReadsStatus : Obligations.TwmRdstatusReadsStatus := by
  intro rd s
  rw [← encode_twmRdstatus rd]
  refine ⟨decodeWord_encode (.twmRdstatus rd) rfl, ?read⟩
  have hcode : phaseCode s.phase = match s.phase with
      | .idle => 0b000#3 | .addr => 0b001#3 | .tx => 0b010#3 | .rx => 0b011#3 | .rxend => 0b100#3 := by
    cases s.phase <;> rfl
  have hexec : exec (.twmRdstatus rd) s = .next (writeReg rd (twmStatus s) s).nextPc :=
    accessRead_of_ok rd (encode (.twmRdstatus rd)) (blkRead_twmStatus s)
  rw [hexec, twmStatus, hcode]
  rfl

theorem writeData_of_idle {s : State} (v : Byte) (hidle : s.busy = false) :
    writeData v s = .ok { s with data := some v } :=
  if_neg (by simp [hidle])

theorem writeData_of_busy {s : State} (v : Byte) (hbusy : s.busy = true) : writeData v s = .error .dataWhileBusy :=
  if_pos hbusy

/-- Settles O2: the two answers of a write of TWM_DATA. -/
theorem twmWrdataSetsData : Obligations.TwmWrdataSetsData := by
  intro v s hfault
  rw [← encode_twmWrdata v]
  exact ⟨decodeWord_encode (.twmWrdata v) rfl,
    fun hidle => accessWrite_of_ok (r := .twmData) _ (writeData_of_idle v hidle),
    fun hbusy => accessWrite_of_error (r := .twmData) _ hfault (writeData_of_busy v hbusy)⟩

theorem readData_of_busy {s : State} (hbusy : s.busy = true) : readData s = .error .dataWhileBusy :=
  if_pos hbusy

theorem readData_of_written {s : State} {b : Byte} (hidle : s.busy = false) (hdata : s.data = some b) :
    readData s = .ok b := by
  simp [readData, hidle, hdata]

theorem readData_of_unwritten {s : State} (hidle : s.busy = false) (hdata : s.data = none) :
    readData s = .error .dataUnwritten := by
  simp [readData, hidle, hdata]

/-- Settles O3: the three answers of a read of TWM_DATA. -/
theorem twmRddataReadsData : Obligations.TwmRddataReadsData := by
  intro rd s hfault
  rw [← encode_twmRddata rd]
  exact ⟨decodeWord_encode (.twmRddata rd) rfl,
    fun _ hidle hdata => accessRead_of_ok rd _ (readData_of_written hidle hdata),
    fun hbusy => accessRead_of_error rd _ hfault (readData_of_busy hbusy),
    fun hidle hdata => accessRead_of_error rd _ hfault (readData_of_unwritten hidle hdata)⟩

/-! ## The issue of a command (R113 to R118) -/

/-- A command's statement is the write of its value to TWM_CTRL (R76). -/
theorem exec_commandInstr (c : Command) (s : State) :
    exec (commandInstr c) s = accessWrite .twmCtrl (commandCtrl c) (encode (commandInstr c)) s := by
  rcases c with _ | _ | _ | _ | (_ | _) <;> rfl

theorem exec_commandInstr_of_ok {c : Command} {s t : State} (h : issueCommand c s = .ok t) :
    exec (commandInstr c) s = .next t.nextPc := by
  rw [exec_commandInstr, accessWrite_of_ok _ ((blkWrite_commandCtrl c s).trans h)]

theorem exec_commandInstr_of_error {c : Command} {s : State} {code : FaultCode} (hfault : s.fault = none)
    (h : issueCommand c s = .error code) :
    exec (commandInstr c) s = .next { s with fault := some ⟨code, s.pc, encode (commandInstr c)⟩ } := by
  rw [exec_commandInstr, accessWrite_of_error _ hfault ((blkWrite_commandCtrl c s).trans h)]

/-- The first check of a command: no other is in flight (R197). -/
theorem exec_commandInstr_of_busy (c : Command) {s : State} (hfault : s.fault = none) (hbusy : s.busy = true) :
    exec (commandInstr c) s = .next { s with fault := some ⟨.cmdWhileBusy, s.pc, encode (commandInstr c)⟩ } :=
  exec_commandInstr_of_error hfault (if_pos hbusy)

/-- The second check: the phase allows it (R118). -/
theorem exec_commandInstr_of_illegal (c : Command) {s : State} (hfault : s.fault = none) (hidle : s.busy = false)
    (hillegal : commandLegal s.phase c = false) :
    exec (commandInstr c) s = .next { s with fault := some ⟨.protocol, s.pc, encode (commandInstr c)⟩ } :=
  exec_commandInstr_of_error hfault (by simp [issueCommand, hidle, hillegal])

/-- The third check, of `twm.write` only: TWM_DATA is written (R116). -/
theorem exec_twmWrite_of_unwritten {s : State} (hfault : s.fault = none) (hidle : s.busy = false)
    (hlegal : commandLegal s.phase .write = true) (hdata : s.data = none) :
    exec .twmWrite s = .next { s with fault := some ⟨.dataUnwritten, s.pc, encode .twmWrite⟩ } :=
  exec_commandInstr_of_error (c := .write) hfault (by simp [issueCommand, hidle, hlegal, hdata])

theorem exec_twmNop_of_idle {s : State} (hidle : s.busy = false) : exec .twmNop s = .next s.nextPc :=
  exec_commandInstr_of_ok (c := .nop) (by simp [issueCommand, hidle, commandLegal])

/-- A command that passes its checks is in flight, a WRITE with the byte of TWM_DATA. -/
theorem exec_commandInstr_issues (k : InFlight) {s : State} (hidle : s.busy = false)
    (hlegal : commandLegal s.phase (commandOf k) = true) (hlatched : ∀ b, k = .write b → s.data = some b) :
    exec (commandInstr (commandOf k)) s = .next { s with busy := true, pend := some k, pc := s.pc + 1 } := by
  have hissue : issueCommand (commandOf k) s = .ok { s with busy := true, pend := some k } := by
    unfold issueCommand
    rw [if_neg (by simp [hidle]), if_neg (by simp [hlegal])]
    cases k with
    | write b => simp [commandOf, hlatched b rfl]
    | start | stop | read => rfl
  exact exec_commandInstr_of_ok hissue

/-- Settles O4: NOP passes the check of every phase. -/
theorem twmNopOnlyMovesOn : Obligations.TwmNopOnlyMovesOn := fun _ hfault =>
  ⟨decodeWord_encode .twmNop rfl, exec_twmNop_of_idle, exec_commandInstr_of_busy .nop hfault⟩

/-- Settles O5: START is legal in IDLE, TX and RXEND. -/
theorem twmStartIssuesStart : Obligations.TwmStartIssuesStart := by
  refine fun s hfault => ⟨decodeWord_encode .twmStart rfl, fun hidle hphase => ?legal,
    exec_commandInstr_of_busy .start hfault, fun hidle hphase => ?illegal⟩
  case legal =>
    refine exec_commandInstr_issues .start hidle ?_ nofun
    rcases hphase with h | h | h <;> rw [h] <;> rfl
  case illegal =>
    refine exec_commandInstr_of_illegal .start hfault hidle ?_
    rcases hphase with h | h <;> rw [h] <;> rfl

/-- Settles O6: STOP is legal in TX and RXEND. -/
theorem twmStopIssuesStop : Obligations.TwmStopIssuesStop := by
  refine fun s hfault => ⟨decodeWord_encode .twmStop rfl, fun hidle hphase => ?legal,
    exec_commandInstr_of_busy .stop hfault, fun hidle hphase => ?illegal⟩
  case legal =>
    refine exec_commandInstr_issues .stop hidle ?_ nofun
    rcases hphase with h | h <;> rw [h] <;> rfl
  case illegal =>
    refine exec_commandInstr_of_illegal .stop hfault hidle ?_
    rcases hphase with h | h | h <;> rw [h] <;> rfl

/-- Settles O7: WRITE is legal in ADDR and TX, and only there is TWM_DATA looked at. -/
theorem twmWriteIssuesWrite : Obligations.TwmWriteIssuesWrite := by
  intro s hfault
  have legal (hphase : s.phase = .addr ∨ s.phase = .tx) : commandLegal s.phase .write = true := by
    rcases hphase with h | h <;> rw [h] <;> rfl
  refine ⟨decodeWord_encode .twmWrite rfl, fun b hidle hphase hdata => ?issued,
    exec_commandInstr_of_busy .write hfault, fun hidle hphase => ?illegal,
    fun hidle hphase => exec_twmWrite_of_unwritten hfault hidle (legal hphase)⟩
  case issued =>
    exact exec_commandInstr_issues (.write b) hidle (legal hphase) fun _ h => InFlight.write.inj h ▸ hdata
  case illegal =>
    refine exec_commandInstr_of_illegal .write hfault hidle ?_
    rcases hphase with h | h | h <;> rw [h] <;> rfl

/-- READ is legal in RX, with either acknowledge (R117). -/
theorem commandLegal_read_iff (p : Phase) (a : Bool) : commandLegal p (.read a) = true ↔ p = .rx := by
  cases p <;> simp [commandLegal]

/-- Settles O8: the three clauses hold of READ with either acknowledge. -/
theorem twmReadIssuesRead : Obligations.TwmReadIssuesRead := by
  refine fun s hfault => ⟨decodeWord_encode .twmReadAck rfl, decodeWord_encode .twmReadNack rfl,
    fun hidle hphase => ?legal, fun hbusy => ?busy, fun hidle hphase => ?illegal⟩
  case legal =>
    have issued (a : Bool) :=
      exec_commandInstr_issues (.read a) hidle ((commandLegal_read_iff s.phase a).2 hphase) nofun
    exact ⟨issued true, issued false⟩
  case busy =>
    have raised (a : Bool) := exec_commandInstr_of_busy (.read a) hfault hbusy
    exact ⟨raised true, raised false⟩
  case illegal =>
    have raised (a : Bool) := exec_commandInstr_of_illegal (.read a) hfault hidle
      (Bool.eq_false_iff.2 fun h => hphase ((commandLegal_read_iff s.phase a).1 h))
    exact ⟨raised true, raised false⟩

/-! ## Completion by ENG (R119 to R123) -/

theorem engStep_of_start {s : State} (h : s.pend = some .start) : engStep s = completeStart s := by
  rw [engStep, h]

theorem engStep_of_stop {s : State} (h : s.pend = some .stop) : engStep s = completeStop s := by
  rw [engStep, h]

theorem engStep_of_write {s : State} {b : Byte} (h : s.pend = some (.write b)) : engStep s = completeWrite b s := by
  rw [engStep, h]

theorem engStep_of_read {s : State} {a : Bool} (h : s.pend = some (.read a)) : engStep s = completeRead a s := by
  rw [engStep, h]

/-- Settles O10: ENG's step is the completion of START. -/
theorem startCompletion : Obligations.StartCompletion := fun _ h => congrArg _ (engStep_of_start h)

/-- Settles O11: ENG's step is the completion of STOP. -/
theorem stopCompletion : Obligations.StopCompletion := fun _ h => congrArg _ (engStep_of_stop h)

/-- Settles O12: ENG's step is the completion of WRITE, and a list of one acknowledge draws it. -/
theorem writeCompletion : Obligations.WriteCompletion := by
  refine fun s b h => ⟨?_, fun a => ⟨[a], rfl⟩⟩
  rintro _ rfl
  exact congrArg _ (engStep_of_write h)

/-- Settles O13: ENG's step is the completion of READ, and a list of one byte draws it. -/
theorem readCompletion : Obligations.ReadCompletion := by
  refine fun s a h => ⟨?_, fun b => ⟨[b], rfl⟩⟩
  rintro _ rfl
  exact congrArg _ (engStep_of_read h)

/-! ## The legality table (R118) -/

/-- The event that the completion of a command in phase `p` emits, with the slave's answer drawn in `t` (R120 to R123). -/
def completionEvent (p : Phase) (k : InFlight) (t : State) : BusEvent :=
  match k with
  | .start => if p = .idle then .start else .repStart
  | .stop => .stop
  | .write b => .wr b (slaveAckOf t b)
  | .read a => .rd (slaveByteOf t) a

theorem engStep_bus {k : InFlight} {s : State} (h : s.pend = some k) :
    (engStep s).bus = s.bus ++ [completionEvent s.phase k s] := by
  rw [engStep, h]
  cases k <;> rfl

/-- Every command but NOP is in flight between its issue and its completion (R113, R24). -/
theorem exists_inFlight {c : Command} (hc : c ≠ .nop) (b : Byte) :
    ∃ k, commandOf k = c ∧ ∀ b', k = .write b' → b' = b := by
  cases c with
  | nop => exact absurd rfl hc
  | start => exact ⟨.start, rfl, nofun⟩
  | stop => exact ⟨.stop, rfl, nofun⟩
  | write => exact ⟨.write b, rfl, fun _ h => (InFlight.write.inj h).symm⟩
  | read a => exact ⟨.read a, rfl, nofun⟩

/-- Settles O9: a cell of the table names an event exactly where the phase allows the command, and the event is the one
that the command's completion emits. -/
theorem commandLegalityTable : Obligations.CommandLegalityTable := by
  intro s c b hfault hidle hdata
  constructor
  case left =>
    rintro rfl
    exact exec_twmNop_of_idle hidle
  case right =>
    intro hc cell
    obtain ⟨k, rfl, hb⟩ := exists_inFlight hc b
    have hcell : cell =
        if commandLegal s.phase (commandOf k) = true then some (completionEvent s.phase k) else none := by
      cases k with
      | write b' =>
        obtain rfl := hb b' rfl
        cases hp : s.phase <;> simp only [cell, hp] <;> rfl
      | start | stop | read => cases hp : s.phase <;> simp only [cell, hp] <;> rfl
    by_cases hlegal : commandLegal s.phase (commandOf k) = true
    · rw [hcell, if_pos hlegal]
      exact ⟨_, exec_commandInstr_issues k hidle hlegal fun b' hk => hb b' hk ▸ hdata, rfl, rfl, engStep_bus rfl⟩
    · rw [hcell, if_neg hlegal]
      exact exec_commandInstr_of_illegal _ hfault hidle (Bool.eq_false_iff.2 hlegal)

/-! ## The bus trace (R30, R118) -/

/-- Only a Start leaves IDLE and only a Stop comes back to it. -/
theorem phaseAfter_balance {p q : Phase} {e : BusEvent} (h : phaseAfter p e = some q) :
    startCount [e] + (if p = .idle then 0 else 1) = stopCount [e] + (if q = .idle then 0 else 1) := by
  unfold phaseAfter at h
  split at h <;> cases h
  case h_6 _ _ b _ => cases b.getLsbD 0 <;> rfl
  case h_8 _ _ _ a => cases a <;> rfl
  all_goals rfl

theorem startCount_append (l m : List BusEvent) : startCount (l ++ m) = startCount l + startCount m :=
  List.countP_append

theorem stopCount_append (l m : List BusEvent) : stopCount (l ++ m) = stopCount l + stopCount m :=
  List.countP_append

/-- A trace has a Stop for every Start but the one of the transaction still open. -/
theorem startCount_eq_of_tracePhase {trace : List BusEvent} {p : Phase} (h : tracePhase trace = some p) :
    startCount trace = stopCount trace + (if p = .idle then 0 else 1) := by
  induction trace using List.reverseRecOn generalizing p with
  | nil =>
    cases h
    rfl
  | append_singleton trace e ih =>
    rw [tracePhase_append] at h
    obtain ⟨q, hq, he⟩ := Option.bind_eq_some_iff.1 h
    have hbalance := phaseAfter_balance he
    have hbefore := ih hq
    rw [startCount_append, stopCount_append]
    omega

/-- Every event of a legal trace stands where the trace before it allows it. -/
theorem tracePhase_before {before after : List BusEvent} {e : BusEvent} {p : Phase}
    (h : tracePhase (before ++ e :: after) = some p) :
    ∃ q, tracePhase before = some q ∧ (phaseAfter q e).isSome = true := by
  induction after using List.reverseRecOn generalizing p with
  | nil =>
    rw [tracePhase_append] at h
    obtain ⟨q, hq, he⟩ := Option.bind_eq_some_iff.1 h
    exact ⟨q, hq, Option.isSome_of_eq_some he⟩
  | append_singleton after e' ih =>
    rw [← List.cons_append, ← List.append_assoc, tracePhase_append] at h
    obtain ⟨q, hq, -⟩ := Option.bind_eq_some_iff.1 h
    exact ih hq

theorem phaseAfter_rd_isSome {p : Phase} {b : Byte} {a : Bool} (h : (phaseAfter p (.rd b a)).isSome = true) :
    p = .rx := by
  cases p with
  | rx => rfl
  | idle | addr | tx | rxend => cases h

/-- Settles O48: the phase of TWM is the one its trace leads to. -/
theorem startsPairWithStops : Obligations.StartsPairWithStops := by
  refine fun s hinv => ⟨startCount_eq_of_tracePhase hinv.trace_phase, fun b a before after hbus => ?_⟩
  obtain ⟨q, hq, hrd⟩ := tracePhase_before (hbus ▸ hinv.trace_phase)
  exact phaseAfter_rd_isSome hrd ▸ hq

/-! ## A command in flight completes (R98, R119) -/

/-- A run is never refused: its capacity is legal (R9). -/
theorem IsRun.capLegal {r : Nat → State} (h : IsRun r) (n : Nat) : (r n).params.capLegal = true := by
  by_contra hc
  have hrefused := step_of_illegalCapacity (Bool.eq_false_iff.2 hc)
  rcases h n with hnext | ⟨f, hstop, -⟩
  · cases hrefused.symm.trans hnext
  · cases hrefused.symm.trans hstop

/-- Where ENG moves in a run, the next state is the one its step leaves. -/
theorem IsRun.next_of_eng {r : Nat → State} (h : IsRun r) {n : Nat} (hmoves : moves .eng (r n)) :
    r (n + 1) = engStep (consumeChoice (r n)) := by
  have hstep : step (r n) = agentStep .eng (consumeChoice (r n)) := step_of_moves (h.capLegal n) hmoves rfl
  rcases h n with hnext | ⟨f, hstop, -⟩
  · exact Host.Outcome.next.inj (hnext.symm.trans hstep)
  · cases hstop.symm.trans hstep

/-- Settles O53: a command that stayed in flight for ever with no fault would keep ENG enabled, and ENG's step ends it. -/
theorem commandEventuallyCompletes : Obligations.CommandEventuallyCompletes := by
  rintro r n ⟨hrun, hfair⟩ hlive -
  by_contra hnever
  have hforever (m : Nat) (hm : n ≤ m) : (r m).busy = true ∧ (r m).fault = none := by
    constructor
    · exact Bool.eq_true_of_not_eq_false fun hidle => hnever ⟨m, hm, .inl hidle⟩
    · by_contra hfault
      exact hnever ⟨m, hm, .inr hfault⟩
  have henabled (m : Nat) (hm : n ≤ m) : enabled .eng (r m) = true := by simp [enabled, hforever m hm]
  obtain ⟨m, hm, hmoves⟩ := hfair .eng hlive n henabled
  obtain ⟨hbusy, -⟩ := hforever (m + 1) (by omega)
  simp [hrun.next_of_eng hmoves] at hbusy

/-! ## The bus primitives (R124 to R127) -/

/-- A poll's branch word: the match of `bnz r7, 0x01` with TARGET put in (R73). -/
theorem encode_bnz_poll {target : Nat} (h : target < 2 ^ 16) :
    encode (.bnz .r7 0x01#8 target) = 0x17010000#32 ||| BitVec.ofNat 32 target := by
  apply BitVec.eq_of_toNat_eq
  have hor : 0x1701 <<< 16 + target = 0x1701 <<< 16 ||| target := Nat.shiftLeft_add_eq_or_of_lt h 0x1701
  have htarget : (BitVec.ofNat 32 target).toNat = target := Nat.mod_eq_of_lt (show target < 2 ^ 32 by omega)
  rw [encode, encodeBranch_toNat, Nat.mod_eq_of_lt h, BitVec.toNat_or, htarget]
  exact hor

/-- The words of a poll at index L. -/
theorem map_encode_pollBusy {L : Nat} (h : L < 2 ^ 16) :
    (pollBusy L).map encode = [0x00070100#32, 0x17010000#32 ||| BitVec.ofNat 32 L] := by
  rw [← encode_bnz_poll h]
  rfl

/-- Settles O58: each primitive is a few fixed words, a poll, and the words that hold its operands. -/
theorem primitiveExpansions : Obligations.PrimitiveExpansions := by
  intro p L b rN hL at_
  have poll1 : (pollBusy (L + 1)).map encode = [0x00070100#32, at_ 1] := map_encode_pollBusy (by omega)
  have poll2 : (pollBusy (L + 2)).map encode = [0x00070100#32, at_ 2] := map_encode_pollBusy hL
  rw [← encode_twmWrdata b, ← encode_twmRddata rN]
  refine ⟨?start, ?stop, ?write, ?readAck, ?readNack⟩
  case start | stop => exact congrArg (List.cons _) poll1
  case write => exact congrArg ([_, _] ++ ·) poll2
  case readAck | readNack => exact congrArg (fun words => _ :: words ++ [_]) poll1

end Sys2Proof.Machine
end

section
/-! SUPPORT. The reference slave against the device transactions (spec 42_device_transactions.md R153, and
95_test_vectors.md §2): what a `writeRegister` stores in it, and what a `readRegister` gets back. -/

namespace Sys2Proof.Machine

/-! ## The bytes of the device transactions (R51, R53) -/

@[simp] theorem addressWrite_address (p : Params) : (addressWrite p).extractLsb' 1 7 = p.devAddr :=
  BitVec.extractLsb'_append_eq_left

@[simp] theorem addressRead_address (p : Params) : (addressRead p).extractLsb' 1 7 = p.devAddr :=
  BitVec.extractLsb'_append_eq_left

@[simp] theorem hiByte_append_loByte (v : BitVec 16) : hiByte v ++ loByte v = v :=
  BitVec.extractLsb'_append_extractLsb' (w := 8) (len := 8)

namespace RefSlave

variable (σ : RefSlave) (dev : BitVec 7)

/-! ## The slave's registers -/

/-- A register holds what was last stored into it. -/
@[simp] theorem reg_setReg_same (q : BitVec 2) (v : BitVec 16) : (σ.setReg q v).reg q = v := by
  unfold reg setReg
  split_ifs <;> rfl

@[simp] theorem shown_false : σ.shown false = σ.reg σ.ptr := by simp [shown]

/-- What the slave shows does not depend on where it stands in a transaction. -/
@[simp] theorem shown_pos (statusBit : Bool) (pos : SlavePos) :
    RefSlave.shown statusBit { σ with pos := pos } = σ.shown statusBit := rfl

/-! ## The slave along a bus trace -/

@[simp] theorem after_nil : σ.after dev [] = σ := rfl

@[simp] theorem after_cons (e : BusEvent) (es : List BusEvent) :
    σ.after dev (e :: es) = (σ.onEvent dev e).after dev es := rfl

theorem after_append (es fs : List BusEvent) : σ.after dev (es ++ fs) = (σ.after dev es).after dev fs :=
  List.foldl_append

/-- After `writeRegister reg, v` the slave's pointer is the low bits of `reg`, and the register it selects holds `v`
(R151). -/
theorem after_writeRegister (p : Params) (reg : Byte) (v : BitVec 16) (a1 a2 a3 a4 : Bool) :
    σ.after p.devAddr (writeRegisterEvents p reg v a1 a2 a3 a4) =
      { RefSlave.setReg { σ with ptr := reg.extractLsb' 0 2, hi := hiByte v, pos := .dataLo }
          (reg.extractLsb' 0 2) v with pos := .idle } := by
  simp [writeRegisterEvents, onEvent]

/-- The opening of `readRegister reg` sets the pointer and leaves the slave at the high byte (R152). -/
theorem after_readOpening (p : Params) (reg : Byte) (a1 a2 a3 : Bool) :
    σ.after p.devAddr [.start, .wr (addressWrite p) a1, .wr reg a2, .repStart, .wr (addressRead p) a3] =
      { σ with ptr := reg.extractLsb' 0 2, pos := .readHi } := by
  simp [onEvent]

end RefSlave

/-! ## The slave's answers (R130) -/

section
variable {σ : RefSlave} {dev : BitVec 7} {statusBit : Bool}

theorem refSlaveByte_append (es fs : List BusEvent) :
    refSlaveByte dev statusBit σ (es ++ fs) = refSlaveByte dev statusBit (σ.after dev es) fs := by
  rw [refSlaveByte, RefSlave.after_append, refSlaveByte]

/-- The first READ gets the most significant byte (R51). -/
theorem refSlaveByte_first (h : σ.pos = .readHi) : refSlaveByte dev statusBit σ [] = hiByte (σ.shown statusBit) := by
  simp [refSlaveByte, RefSlave.byteFor, h]

/-- The second READ gets the least significant byte, whatever byte the first one is said to have got. -/
theorem refSlaveByte_second (h : σ.pos = .readHi) (b : Byte) (a : Bool) :
    refSlaveByte dev statusBit σ [.rd b a] = loByte (σ.shown statusBit) := by
  simp [refSlaveByte, RefSlave.byteFor, RefSlave.onEvent, h]

/-- After a start the slave acknowledges exactly its own address (R53). -/
theorem refSlaveAck_start (b : Byte) : refSlaveAck dev σ [.start] b = (b.extractLsb' 1 7 == dev) := rfl

end

/-- A `writeRegister` and the opening of a `readRegister` of the same pointer leave the slave at the high byte of the
value written. -/
theorem after_write_readOpening (p : Params) (σ : RefSlave) (reg : Byte) (v : BitVec 16) (a1 a2 a3 a4 b1 b2 b3 : Bool) :
    let τ := σ.after p.devAddr (writeRegisterEvents p reg v a1 a2 a3 a4 ++
      [.start, .wr (addressWrite p) b1, .wr reg b2, .repStart, .wr (addressRead p) b3])
    τ.pos = .readHi ∧ τ.shown false = v := by
  rw [RefSlave.after_append, RefSlave.after_writeRegister, RefSlave.after_readOpening]
  exact ⟨rfl, (RefSlave.shown_false _).trans (RefSlave.reg_setReg_same _ _ v)⟩

/-- Settles O60: the write leaves `v` in the register that the read points at again. -/
theorem referenceSlaveRoundTrip : Obligations.ReferenceSlaveRoundTrip := by
  intro p σ reg v _ written opened
  obtain ⟨hpos, hshown⟩ := after_write_readOpening p σ reg v true true true true true true true
  refine ⟨?high, ?low, ?own, ?others⟩
  case high => rw [← List.append_nil (written ++ opened), refSlaveByte_append, refSlaveByte_first hpos, hshown]
  case low => rw [refSlaveByte_append, refSlaveByte_second hpos, hshown]
  case own => simp [refSlaveAck_start]
  case others =>
    intro b hb
    simp [refSlaveAck_start, hb]

end Sys2Proof.Machine
end

section
/-! SUPPORT. The transmit queue (spec 43_tx_queue.md): its statements, the push and the drain, the count of stored bytes,
that a push completes and a stored byte is sent, and the Gray code with the two-clock conditions. -/

namespace Sys2Proof.Machine

/-! ## The TXQ statements (R160 to R163) -/

theorem encode_txqPush (v : Byte) : encode (.txqPush v) = 0x00008800#32 ||| v.setWidth 32 :=
  (encodeWrite_data_eq v).2

theorem encode_txqRdstatus (rd : Reg) :
    encode (.txqRdstatus rd) = 0x00000900#32 ||| (regCode rd).setWidth 32 <<< 16 :=
  encodeRead_eq rd 0x09#7

theorem encode_txqRdhead (rd : Reg) :
    encode (.txqRdhead rd) = 0x00000A00#32 ||| (regCode rd).setWidth 32 <<< 16 :=
  encodeRead_eq rd 0x0A#7

theorem encode_txqRdtail (rd : Reg) :
    encode (.txqRdtail rd) = 0x00000B00#32 ||| (regCode rd).setWidth 32 <<< 16 :=
  encodeRead_eq rd 0x0B#7

/-- Settles O14: a write of TXQ_DATA has no check that could fail. -/
theorem txqPushStallsHost : Obligations.TxqPushStallsHost := by
  intro v s
  rw [← encode_txqPush v]
  exact ⟨decodeWord_encode (.txqPush v) rfl, accessPush_eq v (encode (.txqPush v)) s⟩

/-- Settles O15: a read of TXQ_STATUS never faults. -/
theorem txqRdstatusReadsStatus : Obligations.TxqRdstatusReadsStatus := by
  intro rd s
  rw [← encode_txqRdstatus rd]
  exact ⟨decodeWord_encode (.txqRdstatus rd) rfl,
    accessRead_of_ok rd (encode (.txqRdstatus rd)) (blkRead_txqStatus s)⟩

/-- Settles O16: neither do the reads of TXQ_HEAD and TXQ_TAIL. -/
theorem txqIndexReads : Obligations.TxqIndexReads := by
  intro rd s
  rw [← encode_txqRdhead rd, ← encode_txqRdtail rd]
  exact ⟨decodeWord_encode (.txqRdhead rd) rfl, decodeWord_encode (.txqRdtail rd) rfl,
    accessRead_of_ok rd (encode (.txqRdhead rd)) (blkRead_txqHead s),
    accessRead_of_ok rd (encode (.txqRdtail rd)) (blkRead_txqTail s)⟩

/-! ## When the agents of the TXQ side have a step (R165, R169, R170) -/

/-- In a push HOST waits at P2 only, for the tail to differ from `next` (R165). -/
theorem hostReady_push_iff {s : State} {st : PushStep} {b : Byte} {n : Index} (hp : s.hstate = .push st b n) :
    hostReady s = true ↔ (st = .p2 → n ≠ s.tail) := by
  cases st <;> simp [hostReady, hp]

theorem enabled_host_iff {s : State} : enabled .host s = true ↔ s.fault = none ∧ hostReady s = true := by
  simp [enabled]

theorem enabled_host_push_iff {s : State} {st : PushStep} {b : Byte} {n : Index} (hfault : s.fault = none)
    (hp : s.hstate = .push st b n) : enabled .host s = true ↔ (st = .p2 → n ≠ s.tail) := by
  rw [enabled_host_iff, hostReady_push_iff hp, and_iff_right hfault]

theorem enabled_drain_iff {s : State} :
    enabled .drain s = true ↔ s.fault = none ∧ s.txie = true ∧ s.txReady = true := by
  simp [enabled]

theorem enabled_ser_iff {s : State} : enabled .ser s = true ↔ s.fault = none ∧ s.txReady = false := by
  simp [enabled]

theorem hostStep_of_push {s : State} {st : PushStep} {b : Byte} {n : Index} (hp : s.hstate = .push st b n) :
    hostStep s = .next (pushStep st b n s) := by
  rw [hostStep, hp]

/-- The index after MASK is 0 (R164). -/
theorem nextIndex_mask {p : Params} (hc : p.capLegal = true) : nextIndex p (mask p) = 0#8 := by
  have hcap := capLegal_cases hc
  apply BitVec.eq_of_toNat_eq
  rw [nextIndex_toNat hc, mask_toNat hc, Nat.sub_add_cancel (by omega), Nat.mod_self]
  rfl

/-- Settles O17: only P2 has to wait, and a micro-step's effect is `pushStep`'s. -/
theorem pushMicroSteps : Obligations.PushMicroSteps := by
  intro s b next hfault
  have ready {st : PushStep} (hp : s.hstate = .push st b next) (hst : st ≠ .p2) : enabled .host s = true :=
    (enabled_host_push_iff hfault hp).2 fun h => absurd h hst
  exact ⟨fun hp => ⟨ready hp nofun, hostStep_of_push hp, fun hc hwrap => by rw [hwrap]; exact nextIndex_mask hc⟩,
    fun hp => ⟨ready hp nofun, hostStep_of_push hp⟩, fun hp => ⟨ready hp nofun, hostStep_of_push hp⟩,
    fun hp => ⟨ready hp nofun, hostStep_of_push hp⟩⟩

/-- Settles O18: P2 is the micro-step that waits. -/
theorem pushHoldsWhileFull : Obligations.PushHoldsWhileFull := by
  intro s b next hfault hp
  exact ⟨by simp [enabled_host_push_iff hfault hp], fun _ => hostStep_of_push hp⟩

theorem slotByte_of_read {i : Index} {s : State} {b : Byte} (h : s.buf.read i.toNat = some b) : slotByte i s = b := by
  rw [slotByte, h]

/-- Settles O19: case A sends the byte of the slot after tail, case B clears the enable. -/
theorem Fifo.drainStep : Obligations.DrainStep := by
  refine fun s => ⟨enabled_drain_iff, fun b hne hslot => ?_, fun he => congrArg _ (drainStep_of_empty he)⟩
  have hbyte : slotByte (nextIndex s.params s.tail) s = b := slotByte_of_read hslot
  exact congrArg _ ((drainStep_of_nonempty hne).trans (by rw [hbyte]; rfl))

/-- Settles O20: SER waits for the transmitter to be taken. -/
theorem Fifo.serStep : Obligations.SerStep := fun _ => ⟨enabled_ser_iff, rfl⟩

/-! ## The count of stored bytes (R38, R174) -/

section Distance
variable {c a b : Nat}
  (hc : c = 2 ∨ c = 4 ∨ c = 8 ∨ c = 16 ∨ c = 32 ∨ c = 64 ∨ c = 128 ∨ c = 256) (ha : a < c) (hb : b < c)
include hc ha hb

/-- Two indices have distance 0 only if they are the same. -/
theorem distance_eq_zero_iff : (a + 256 - b) % c = 0 ↔ a = b := by
  rcases hc with rfl | rfl | rfl | rfl | rfl | rfl | rfl | rfl <;> omega

/-- The greatest distance is that of an index from its successor. -/
theorem distance_eq_pred_iff : (a + 256 - b) % c = c - 1 ↔ (a + 1) % c = b := by
  rcases hc with rfl | rfl | rfl | rfl | rfl | rfl | rfl | rfl <;> omega

end Distance

/-- The masked difference of two indices is their distance modulo TXQ_CAP. -/
theorem sub_and_mask_toNat {p : Params} (hc : p.capLegal = true) (a b : Index) :
    ((a - b) &&& mask p).toNat = (a.toNat + 256 - b.toNat) % p.txqCap :=
  fifoCount_eq (s := { State.launch p [] with head := a, tail := b }) hc

theorem sub_and_mask_eq_zero_iff {p : Params} (hc : p.capLegal = true) {a b : Index} (ha : a &&& mask p = a)
    (hb : b &&& mask p = b) : ((a - b) &&& mask p).toNat = 0 ↔ a = b := by
  rw [sub_and_mask_toNat hc, distance_eq_zero_iff (capLegal_cases hc) (lt_of_masked hc ha) (lt_of_masked hc hb),
    BitVec.toNat_inj]

/-- An index is never its own successor: a legal capacity is at least 2. -/
theorem nextIndex_ne {p : Params} (hc : p.capLegal = true) (i : Index) : nextIndex p i ≠ i := by
  have hcap := capLegal_cases hc
  rw [index_ne_iff, nextIndex_toNat hc]
  rcases hcap with h | h | h | h | h | h | h | h <;> rw [h] <;> omega

theorem nextIndex_ne_nextIndex {p : Params} (hc : p.capLegal = true) {i j : Index} (hi : i &&& mask p = i)
    (hj : j &&& mask p = j) (hne : i ≠ j) : nextIndex p i ≠ nextIndex p j := by
  rw [index_ne_iff, nextIndex_toNat hc, nextIndex_toNat hc]
  exact next_ne_next (capLegal_cases hc) (lt_of_masked hc hi) (lt_of_masked hc hj) (index_ne_iff.1 hne)

theorem fifoEmpty_iff {s : State} : fifoEmpty s = true ↔ s.head = s.tail := beq_iff_eq

theorem fifoFull_iff {s : State} : fifoFull s = true ↔ nextIndex s.params s.head = s.tail := beq_iff_eq

/-- One slot is always kept empty (R174). -/
theorem fifoCount_le {s : State} (hc : s.params.capLegal = true) : fifoCount s ≤ s.params.txqCap - 1 := by
  have hcap := capLegal_cases hc
  rw [fifoCount_eq hc]
  exact Nat.le_sub_one_of_lt (Nat.mod_lt _ (by omega))

theorem fifoCount_eq_zero_iff {s : State} (hc : s.params.capLegal = true) (h : TxqInv s) :
    fifoCount s = 0 ↔ s.head = s.tail :=
  sub_and_mask_eq_zero_iff hc h.head_masked h.tail_masked

theorem fifoCount_eq_pred_iff {s : State} (hc : s.params.capLegal = true) (h : TxqInv s) :
    fifoCount s = s.params.txqCap - 1 ↔ nextIndex s.params s.head = s.tail := by
  rw [fifoCount_eq hc, distance_eq_pred_iff (capLegal_cases hc) (lt_of_masked hc h.head_masked)
    (lt_of_masked hc h.tail_masked), ← nextIndex_toNat hc, BitVec.toNat_inj]

theorem length_queued (s : State) : (queued s).length = fifoCount s := by simp [queued]

/-- Settles O47: the count is the distance of the two indices, which is least for equal ones and greatest where advancing
head would meet the tail. -/
theorem fifoCounts : Obligations.FifoCounts := by
  intro s h
  have hempty := fifoCount_eq_zero_iff h.capacity h.txq
  have hfull := fifoCount_eq_pred_iff h.capacity h.txq
  rw [fifoEmpty_iff, fifoFull_iff]
  refine ⟨fifoCount_le h.capacity, length_queued s, hempty.symm, Iff.rfl, hfull.symm, ?_⟩
  rintro ⟨he, hf⟩
  exact nextIndex_ne h.capacity s.head (hf.trans he.symm)

/-! ## A push and the drain (R165, R174, R175) -/

/-- What `next` is while a push waits for room (R174, I6). -/
theorem Inv.next_of_p2 {s : State} (h : Inv s) {b : Byte} {n : Index} (hp : s.hstate = .push .p2 b n) :
    n = nextIndex s.params s.head := by
  simpa [pushInv, hp] using h.txq.push

/-- What `next` is when the byte is stored (R174, I6). -/
theorem Inv.next_of_p3 {s : State} (h : Inv s) {b : Byte} {n : Index} (hp : s.hstate = .push .p3 b n) :
    n = nextIndex s.params s.head ∧ n ≠ s.tail := by
  simpa [pushInv, hp] using h.txq.push

/-- DRAIN only moves the tail toward head, so it never leaves it at the index after head (R174, I6). -/
theorem nextIndex_head_ne_drained_tail {s : State} (h : Inv s) :
    nextIndex s.params s.head ≠ (drainStep s).tail := by
  by_cases he : s.head = s.tail
  · rw [drainStep_of_empty he]
    exact he ▸ nextIndex_ne h.capacity s.head
  · rw [drainStep_tail_of_nonempty he]
    exact nextIndex_ne_nextIndex h.capacity h.txq.head_masked h.txq.tail_masked he

/-- After a DRAIN step a push has room at P2 (R165). -/
theorem next_ne_drained_tail {s : State} (h : Inv s) {st : PushStep} {b : Byte} {n : Index}
    (hp : s.hstate = .push st b n) (hst : st = .p2) : n ≠ (drainStep s).tail := by
  subst hst
  exact h.next_of_p2 hp ▸ nextIndex_head_ne_drained_tail h

theorem enabled_host_drainStep {s : State} (h : Inv s) (hfault : s.fault = none) {st : PushStep} {b : Byte} {n : Index}
    (hp : s.hstate = .push st b n) : enabled .host (drainStep s) = true :=
  (enabled_host_push_iff (by simpa using hfault) (by simpa using hp)).2 (next_ne_drained_tail h hp)

/-- DRAIN's step reads of the storage only the slot after tail, and of the host nothing (R169). -/
theorem drainStep_of_same_slot {s : State} {m : Memory} (x : HState)
    (hslot : s.head ≠ s.tail →
      m.read (nextIndex s.params s.tail).toNat = s.buf.read (nextIndex s.params s.tail).toNat) :
    drainStep { s with buf := m, hstate := x } = { drainStep s with buf := m, hstate := x } := by
  by_cases he : s.head = s.tail
  · rw [drainStep_of_empty he, drainStep_of_empty (s := { s with buf := m, hstate := x }) he]
  · have hbyte : slotByte (nextIndex s.params s.tail) { s with buf := m, hstate := x } =
        slotByte (nextIndex s.params s.tail) s := by
      rw [slotByte, hslot he]
      rfl
    rw [drainStep_of_nonempty he, drainStep_of_nonempty (s := { s with buf := m, hstate := x }) he, hbyte]
    rfl

/-- The slot that P3 writes is not the one that DRAIN reads (R166). -/
theorem drainStep_pushStep_p3 {s : State} (h : Inv s) {b : Byte} {n : Index} (hp : s.hstate = .push .p3 b n) :
    drainStep (pushStep .p3 b n s) = pushStep .p3 b n (drainStep s) := by
  obtain ⟨rfl, -⟩ := h.next_of_p3 hp
  refine (drainStep_of_same_slot _ fun hne => read_write_other s.buf b (index_ne_iff.1 ?_)).trans (by simp [pushStep])
  exact nextIndex_ne_nextIndex h.capacity h.txq.tail_masked h.txq.head_masked hne.symm

/-- Settles O49: of the three micro-steps only P3 writes the storage. -/
theorem pushLinearizes : Obligations.PushLinearizes := by
  refine ⟨fun s st b next h hfault hp hst _ _ => ⟨enabled_host_drainStep h hfault hp, ?_⟩, fun _ _ => rfl⟩
  rcases hst with rfl | rfl | rfl
  · exact (drainStep_of_same_slot _ fun _ => rfl).trans (by simp [pushStep])
  · exact (drainStep_of_same_slot _ fun _ => rfl).trans (by simp [pushStep])
  · exact drainStep_pushStep_p3 h hp

/-! ## Liveness (R98): a rank that falls whenever the agent awaited moves -/

theorem IsRun.step_of_enabled {r : Nat → State} (h : IsRun r) {n : Nat} {a : Agent} (ha : enabled a (r n) = true) :
    step (r n) = .next (r (n + 1)) :=
  (h n).resolve_right fun ⟨f, hstop, _⟩ => step_ne_fault_of_enabled (h.capLegal n) ha f hstop

theorem IsRun.inv {r : Nat → State} (h : IsRun r) (h0 : Inv (r 0)) (n : Nat) : Inv (r n) := by
  induction n with
  | zero => exact h0
  | succ n ih =>
    rcases h n with hnext | ⟨_, _, hsame⟩
    · exact invStep _ _ ih hnext
    · exact hsame ▸ ih

theorem not_moves_of_next {s : State} {a c : Agent} (ha : nextAgent s = some a) (hne : c ≠ a) : ¬ moves c s :=
  fun h => hne (Option.some.inj (h.2.symm.trans ha))

theorem not_moves_of_stalls {s : State} (c : Agent) (h : stalls s = true) : ¬ moves c s :=
  fun hmoves => by simp [hmoves.1] at h

/-- What a step does for a goal that awaits one agent in each state: the rank falls, or the same agent is still awaited at the
same rank and was not the one that moved. -/
def Advances (rank : State → Nat) (awaited : State → Agent) (s t : State) : Prop :=
  rank t < rank s ∨ rank t = rank s ∧ awaited t = awaited s ∧ ¬ moves (awaited s) s

/-- The proof rule of weak fairness. While `P` holds, the agent awaited is enabled and fair, and each step reaches `Q` or
keeps `P` and advances. -/
theorem eventually_of_advances {r : Nat → State} (hrun : IsRun r) {rank : State → Nat} {awaited : State → Agent}
    {P Q : State → Prop} (hfair : ∀ s, FairFor (awaited s) r)
    (henabled : ∀ m, P (r m) → enabled (awaited (r m)) (r m) = true)
    (hstep : ∀ m, P (r m) → step (r m) = .next (r (m + 1)) →
      Q (r (m + 1)) ∨ P (r (m + 1)) ∧ Advances rank awaited (r m) (r (m + 1)))
    {n : Nat} (hP : P (r n)) : ∃ m, n ≤ m ∧ Q (r m) := by
  induction hk : rank (r n) using Nat.strong_induction_on generalizing n with
  | _ k ih =>
    by_contra hnever
    have stays (m : Nat) (hm : n ≤ m) (hPm : P (r m)) (hkm : rank (r m) = k) :
        P (r (m + 1)) ∧ rank (r (m + 1)) = k ∧ awaited (r (m + 1)) = awaited (r m) ∧
          ¬ moves (awaited (r m)) (r m) := by
      rcases hstep m hPm (hrun.step_of_enabled (henabled m hPm)) with hQ | ⟨hP', hlt | ⟨heq, hsame, hmoves⟩⟩
      · exact absurd ⟨m + 1, by omega, hQ⟩ hnever
      · obtain ⟨m', hm', hQ⟩ := ih _ (hkm ▸ hlt) hP' rfl
        exact absurd ⟨m', by omega, hQ⟩ hnever
      · exact ⟨hP', heq.trans hkm, hsame, hmoves⟩
    have forever (m : Nat) (hm : n ≤ m) : P (r m) ∧ rank (r m) = k ∧ awaited (r m) = awaited (r n) := by
      induction m, hm using Nat.le_induction with
      | base => exact ⟨hP, hk, rfl⟩
      | succ m hm ihm =>
        obtain ⟨hPm, hkm, hsame⟩ := ihm
        obtain ⟨hP', hk', hsame', -⟩ := stays m hm hPm hkm
        exact ⟨hP', hk', hsame'.trans hsame⟩
    obtain ⟨m, hm, hmoves⟩ := hfair (r n) n fun m hm => by
      obtain ⟨hPm, -, hsame⟩ := forever m hm
      exact hsame ▸ henabled m hPm
    obtain ⟨hPm, hkm, hsame⟩ := forever m hm
    obtain ⟨-, -, -, hnot⟩ := stays m hm hPm hkm
    exact hnot (hsame ▸ hmoves)

/-- Under TX_LIVE every agent of the TXQ side is fair (R98). -/
theorem FairRun.fairFor {r : Nat → State} (h : FairRun r) (hlive : (r 0).params.txLive = true) {a : Agent}
    (ha : a ≠ .eng) : FairFor a r := by
  refine h.2 a ?_
  cases a with
  | host | drain => rfl
  | ser => exact hlive
  | eng => exact absurd rfl ha

/-! ## A push completes (R165, R178) -/

/-- The agent that brings a stalled push on: HOST, or where it is held SER and then DRAIN. -/
def pushAwaits (s : State) : Agent :=
  if hostReady s = true then .host else if s.txReady = true then .drain else .ser

/-- How far a push that is not held is from its end. P1 may be followed by a hold. -/
def microStepsLeft : HState → Nat
  | .push .p1 _ _ => 6
  | .push .p2 _ _ => 3
  | .push .p3 _ _ => 2
  | .push .p4 _ _ => 1
  | _ => 0

/-- How far a push is from its end, the two steps that lift a hold among them. -/
def pushRank (s : State) : Nat :=
  if hostReady s = true then microStepsLeft s.hstate else if s.txReady = true then 4 else 5

theorem hostReady_of_eq {s t : State} (hstate : t.hstate = s.hstate) (tail : t.tail = s.tail) :
    hostReady t = hostReady s := by
  unfold hostReady
  rw [hstate, tail]

theorem pushAwaits_of_ready {s : State} (h : hostReady s = true) : pushAwaits s = .host := if_pos h

theorem pushRank_of_ready {s : State} (h : hostReady s = true) : pushRank s = microStepsLeft s.hstate := if_pos h

theorem pushRank_of_held {s : State} (h : ¬ hostReady s = true) :
    pushRank s = if s.txReady = true then 4 else 5 := if_neg h

theorem pushAwaits_ne_eng (s : State) : pushAwaits s ≠ .eng := by
  unfold pushAwaits
  split_ifs <;> nofun

/-- A push is held at P2 only, on a full FIFO (R165). -/
theorem held_at_p2 {s : State} (h : ¬ hostReady s = true) {st : PushStep} {b : Byte} {n : Index}
    (hp : s.hstate = .push st b n) : st = .p2 ∧ n = s.tail := by
  simpa [hostReady_push_iff hp] using h

/-- A fault stops the host in RUN, not in a push (R191). -/
theorem Inv.fault_of_push {s : State} (h : Inv s) {st : PushStep} {b : Byte} {n : Index}
    (hp : s.hstate = .push st b n) : s.fault = none := by
  by_contra hfault
  obtain ⟨f, hf⟩ := Option.ne_none_iff_exists'.1 hfault
  obtain ⟨-, hrun, -⟩ := h.host.fault_precise f hf
  cases hp.symm.trans hrun

/-- While a push is held the enable is set (R165, R174). -/
theorem Inv.txie_of_held {s : State} (h : Inv s) {b : Byte} {n : Index} (hp : s.hstate = .push .p2 b n)
    (hfull : n = s.tail) : s.txie = true := by
  refine (h.txq.enabled_or_p5 fun he => ?_).resolve_right (by simp [atP5, hp])
  rw [h.next_of_p2 hp, ← he] at hfull
  exact nextIndex_ne h.capacity s.head hfull

/-- The host is stalled in the push at `pc`. -/
structure Pushing (pc : Nat) (s : State) : Prop where
  inv : Inv s
  pc_eq : s.pc = pc
  stalled : ∃ st b n, s.hstate = .push st b n

theorem Pushing.enabled_awaited {pc : Nat} {s : State} (h : Pushing pc s) : enabled (pushAwaits s) s = true := by
  obtain ⟨st, b, n, hp⟩ := h.stalled
  have hfault := h.inv.fault_of_push hp
  unfold pushAwaits
  split_ifs with hready htx
  · exact enabled_host_iff.2 ⟨hfault, hready⟩
  · obtain ⟨rfl, hfull⟩ := held_at_p2 hready hp
    exact enabled_drain_iff.2 ⟨hfault, h.inv.txie_of_held hp hfull, htx⟩
  · exact enabled_ser_iff.2 ⟨hfault, by simpa using htx⟩

/-- Settles O50: the agent that the push awaits has a step. -/
theorem pushNeverStuck : Obligations.PushNeverStuck := by
  intro s st b next h hfault hp
  have hpushing : Pushing s.pc s := ⟨h, rfl, st, b, next, hp⟩
  refine ⟨⟨_, pushAwaits_ne_eng s, hpushing.enabled_awaited⟩, ?_⟩
  rintro rfl hfull
  exact ⟨h.txie_of_held hp hfull, enabled_host_drainStep h hfault hp⟩

/-- A micro-step that does not end the push brings it on. -/
theorem pushRank_pushStep_lt {s : State} {st : PushStep} {b : Byte} {n : Index} (hp : s.hstate = .push st b n)
    (hst : st ≠ .p5) (hold : st = .p2 → n ≠ s.tail) : pushRank (pushStep st b n s) < pushRank s := by
  rw [pushRank_of_ready ((hostReady_push_iff hp).2 hold), hp]
  cases st with
  | p1 =>
    unfold pushRank
    split_ifs
    exacts [(by decide : 3 < 6), (by decide : 4 < 6), (by decide : 5 < 6)]
  | p2 => exact (by decide : 2 < 3)
  | p3 => exact (by decide : 1 < 2)
  | p4 => exact (by decide : 0 < 1)
  | p5 => exact absurd rfl hst

/-- A step of an agent that is not awaited and leaves what the push looks at. -/
theorem pushAdvances_of_eq {s t : State} (hstate : t.hstate = s.hstate) (tail : t.tail = s.tail)
    (txReady : t.txReady = s.txReady) (hmoves : ¬ moves (pushAwaits s) s) :
    Advances pushRank pushAwaits s t := by
  have hready := hostReady_of_eq hstate tail
  exact .inr ⟨by rw [pushRank, pushRank, hready, hstate, txReady], by rw [pushAwaits, pushAwaits, hready, txReady],
    hmoves⟩

/-- While HOST is awaited, a step of another agent that leaves it ready changes nothing. -/
theorem pushAdvances_of_ready {s t : State} {a : Agent} (hstate : t.hstate = s.hstate) (hs : hostReady s = true)
    (ht : hostReady t = true) (ha : nextAgent s = some a) (hne : a ≠ .host) :
    Advances pushRank pushAwaits s t := by
  refine .inr ⟨?_, ?_, not_moves_of_next ha ?_⟩
  · rw [pushRank_of_ready hs, pushRank_of_ready ht, hstate]
  · rw [pushAwaits_of_ready hs, pushAwaits_of_ready ht]
  · rw [pushAwaits_of_ready hs]
    exact hne.symm

/-- A DRAIN step lifts a hold. -/
theorem pushAdvances_drain {s : State} (h : Inv s) {st : PushStep} {b : Byte} {n : Index}
    (hp : s.hstate = .push st b n) (ha : nextAgent s = some .drain) (htx : s.txReady = true) :
    Advances pushRank pushAwaits s (drainStep (consumeChoice s)) := by
  have hp' : (drainStep (consumeChoice s)).hstate = .push st b n := by simpa using hp
  have hafter : hostReady (drainStep (consumeChoice s)) = true :=
    (hostReady_push_iff hp').2 (next_ne_drained_tail (inv_consumeChoice h) hp)
  by_cases hready : hostReady s = true
  · exact pushAdvances_of_ready (by simp) hready hafter ha nofun
  · obtain ⟨rfl, -⟩ := held_at_p2 hready hp
    left
    rw [pushRank_of_ready hafter, pushRank_of_held hready, hp', if_pos htx]
    exact Nat.lt_succ_self 3

/-- A SER step lets DRAIN work on. -/
theorem pushAdvances_ser {s : State} (ha : nextAgent s = some .ser) (taken : s.txReady = false) :
    Advances pushRank pushAwaits s (serStep (consumeChoice s)) := by
  have hafter : hostReady (serStep (consumeChoice s)) = hostReady s := hostReady_of_eq rfl rfl
  by_cases hready : hostReady s = true
  · exact pushAdvances_of_ready rfl hready (hafter.trans hready) ha nofun
  · left
    rw [pushRank_of_held hready, pushRank_of_held (hafter ▸ hready), taken]
    exact Nat.lt_succ_self 4

/-- A step ends the push or brings it on. -/
theorem Pushing.step {pc : Nat} {s t : State} (h : Pushing pc s) (hstep : step s = .next t) :
    (t.hstate = .run ∧ t.pc = pc + 1) ∨ Pushing pc t ∧ Advances pushRank pushAwaits s t := by
  obtain ⟨st, b, n, hp⟩ := h.stalled
  have hinv := invStep s t h.inv hstep
  have hpc := h.pc_eq
  cases step_cases hstep with
  | hostRun a hr => cases hp.symm.trans hr
  | widened a hr => cases hp.symm.trans hr
  | stalled hs =>
    exact .inr ⟨⟨hinv, hpc, st, b, n, hp⟩, pushAdvances_of_eq rfl rfl rfl (not_moves_of_stalls _ hs)⟩
  | eng a =>
    exact .inr ⟨⟨hinv, by simpa using hpc, st, b, n, by simpa using hp⟩,
      pushAdvances_of_eq (by simp) (by simp) (by simp) (not_moves_of_next a (pushAwaits_ne_eng s))⟩
  | drain a ie ready =>
    exact .inr ⟨⟨hinv, by simpa using hpc, st, b, n, by simpa using hp⟩, pushAdvances_drain h.inv hp a ready⟩
  | ser a taken => exact .inr ⟨⟨hinv, hpc, st, b, n, hp⟩, pushAdvances_ser a taken⟩
  | hostPush a st' b' n' hp' hold =>
    by_cases hst : st' = .p5
    · subst hst
      exact .inl ⟨rfl, congrArg (· + 1) hpc⟩
    · have hlt := pushRank_pushStep_lt (s := consumeChoice s) hp' hst hold
      have hstays : (pushStep st' b' n' (consumeChoice s)).pc = pc ∧
          ∃ st b n, (pushStep st' b' n' (consumeChoice s)).hstate = .push st b n := by
        cases st' with
        | p5 => exact absurd rfl hst
        | p1 | p2 | p3 | p4 => exact ⟨hpc, _, _, _, rfl⟩
      exact .inr ⟨⟨hinv, hstays.1, hstays.2⟩, .inl hlt⟩

/-- Settles O51: each step of the push is awaited of a fair agent. -/
theorem pushEventuallyCompletes : Obligations.PushEventuallyCompletes := by
  intro r n st b next hfair h0 hlive hp
  have hpushing : Pushing (r n).pc (r n) := ⟨hfair.1.inv h0 n, rfl, st, b, next, hp⟩
  exact eventually_of_advances (P := Pushing (r n).pc) (Q := fun t => t.hstate = .run ∧ t.pc = (r n).pc + 1) hfair.1
    (fun s => hfair.fairFor hlive (pushAwaits_ne_eng s)) (fun _ => Pushing.enabled_awaited) (fun _ => Pushing.step)
    hpushing

/-! ## A stored byte is sent (R169, R170, R178) -/

theorem length_accepted (s : State) : (accepted s).length = s.serial.length + fifoCount s := by
  simp [accepted, length_queued]

/-- Nothing accepted is lost (R176). -/
theorem accepted_prefix_of_step {s t : State} (h : Inv s) (hstep : step s = .next t) : accepted s <+: accepted t :=
  ⟨_, (fifoOrder s t h hstep).symm⟩

theorem IsRun.accepted_prefix {r : Nat → State} (h : IsRun r) (h0 : Inv (r 0)) {n m : Nat} (hm : n ≤ m) :
    accepted (r n) <+: accepted (r m) := by
  induction m, hm using Nat.le_induction with
  | base => exact List.prefix_rfl
  | succ m _ ih =>
    rcases h m with hnext | ⟨_, _, hsame⟩
    · exact ih.trans (accepted_prefix_of_step (h.inv h0 m) hnext)
    · exact hsame ▸ ih

/-- The agent that brings the oldest stored byte on: HOST at P5 sets the enable, SER frees the transmitter, DRAIN sends. -/
def drainAwaits (s : State) : Agent :=
  if s.txie = true then (if s.txReady = true then .drain else .ser) else .host

/-- How far the oldest stored byte is from the serial link. -/
def drainRank (s : State) : Nat :=
  if s.txie = true then (if s.txReady = true then 0 else 1) else 2

theorem drainRank_of_set {s : State} (h : s.txie = true) : drainRank s = if s.txReady = true then 0 else 1 := if_pos h

theorem drainRank_of_clear {s : State} (h : ¬ s.txie = true) : drainRank s = 2 := if_neg h

theorem drainAwaits_of_clear {s : State} (h : ¬ s.txie = true) : drainAwaits s = .host := if_neg h

theorem drainAwaits_ne_eng (s : State) : drainAwaits s ≠ .eng := by
  unfold drainAwaits
  split_ifs <;> nofun

/-- A byte is stored with the enable clear only while the host is about to set it (R174, I5). -/
theorem Inv.p5_of_txie_clear {s : State} (h : Inv s) (hne : s.head ≠ s.tail) (hie : ¬ s.txie = true) :
    ∃ b n, s.hstate = .push .p5 b n := by
  have hp5 := (h.txq.enabled_or_p5 hne).resolve_left hie
  unfold atP5 at hp5
  split at hp5
  · exact ⟨_, _, ‹_›⟩
  · cases hp5

/-- In RUN the enable of a FIFO that holds bytes is set (R174, I5). -/
theorem Inv.txie_of_run {s : State} (h : Inv s) (hne : s.head ≠ s.tail) (hr : s.hstate = .run) : s.txie = true :=
  (h.txq.enabled_or_p5 hne).resolve_right (by simp [atP5, hr])

theorem enabled_drainAwaits {s : State} (h : Inv s) (hfault : s.fault = none) (hne : s.head ≠ s.tail) :
    enabled (drainAwaits s) s = true := by
  unfold drainAwaits
  split_ifs with hie htx
  · exact enabled_drain_iff.2 ⟨hfault, hie, htx⟩
  · exact enabled_ser_iff.2 ⟨hfault, by simpa using htx⟩
  · obtain ⟨b, n, hp⟩ := h.p5_of_txie_clear hne hie
    exact (enabled_host_push_iff hfault hp).2 nofun

/-- A step of an agent that is not awaited and leaves the enable and the transmitter. -/
theorem drainAdvances_of_eq {s t : State} (txie : t.txie = s.txie) (txReady : t.txReady = s.txReady)
    (hmoves : ¬ moves (drainAwaits s) s) : Advances drainRank drainAwaits s t :=
  .inr ⟨by rw [drainRank, drainRank, txie, txReady], by rw [drainAwaits, drainAwaits, txie, txReady], hmoves⟩

theorem drainAwaits_ne_host {s : State} (hie : s.txie = true) : drainAwaits s ≠ .host := by
  rw [drainAwaits, if_pos hie]
  split_ifs <;> nofun

/-- HOST's micro-steps leave the enable set, and P5 sets it. -/
theorem drainAdvances_pushStep {s : State} (h : Inv s) (hne : s.head ≠ s.tail) {st : PushStep} {b : Byte} {n : Index}
    (hp : s.hstate = .push st b n) (ha : nextAgent s = some .host) :
    Advances drainRank drainAwaits s (pushStep st b n (consumeChoice s)) := by
  by_cases hie : s.txie = true
  · have hafter : (pushStep st b n (consumeChoice s)).txie = s.txie := by
      cases st <;> simp [pushStep, hie]
    exact drainAdvances_of_eq hafter (by simp) (not_moves_of_next ha (drainAwaits_ne_host hie))
  · obtain ⟨b', n', hp'⟩ := h.p5_of_txie_clear hne hie
    cases hp.symm.trans hp'
    left
    rw [drainRank_of_clear hie, drainRank_of_set (s := pushStep .p5 b n _) rfl]
    split_ifs <;> decide

/-- SER frees the transmitter. -/
theorem drainAdvances_ser {s : State} (ha : nextAgent s = some .ser) (taken : s.txReady = false) :
    Advances drainRank drainAwaits s (serStep (consumeChoice s)) := by
  by_cases hie : s.txie = true
  · left
    rw [drainRank_of_set hie, drainRank_of_set (s := serStep (consumeChoice s)) hie, taken]
    exact Nat.zero_lt_one
  · refine .inr ⟨?_, ?_, not_moves_of_next ha ?_⟩
    · rw [drainRank_of_clear hie, drainRank_of_clear (s := serStep (consumeChoice s)) hie]
    · rw [drainAwaits_of_clear hie, drainAwaits_of_clear (s := serStep (consumeChoice s)) hie]
    · rw [drainAwaits_of_clear hie]
      nofun

/-- Case A of DRAIN sends one byte. -/
theorem length_serial_drainStep {s : State} (hne : s.head ≠ s.tail) :
    (drainStep s).serial.length = s.serial.length + 1 := by
  rw [drainStep_of_nonempty hne]
  simp

/-- While a byte is stored, a step sends one or brings the oldest on. -/
theorem step_sends_or_advances {s t : State} (h : Inv s) (hne : s.head ≠ s.tail) (hstep : step s = .next t) :
    t.serial.length = s.serial.length + 1 ∨
      t.serial.length = s.serial.length ∧ Advances drainRank drainAwaits s t := by
  cases step_cases hstep with
  | stalled hs => exact .inr ⟨rfl, drainAdvances_of_eq rfl rfl (not_moves_of_stalls _ hs)⟩
  | hostRun a hr _ e =>
    obtain ⟨-, -, -, htxie, htxReady, hserial, -⟩ := e.frame
    exact .inr ⟨congrArg _ hserial,
      drainAdvances_of_eq htxie htxReady (not_moves_of_next a (drainAwaits_ne_host (h.txie_of_run hne hr)))⟩
  | widened a hr =>
    exact .inr ⟨by simp,
      drainAdvances_of_eq (by simp) (by simp) (not_moves_of_next a (drainAwaits_ne_host (h.txie_of_run hne hr)))⟩
  | hostPush a st b n hp => exact .inr ⟨by simp, drainAdvances_pushStep h hne hp a⟩
  | eng a =>
    exact .inr ⟨by simp, drainAdvances_of_eq (by simp) (by simp) (not_moves_of_next a (drainAwaits_ne_eng s))⟩
  | drain => exact .inl (length_serial_drainStep hne)
  | ser a taken => exact .inr ⟨rfl, drainAdvances_ser a taken⟩

/-- With `sent` bytes sent, more are accepted. -/
structure Undrained (sent : Nat) (s : State) : Prop where
  inv : Inv s
  no_fault : s.fault = none
  serial_length : s.serial.length = sent
  accepted_more : sent < (accepted s).length

theorem Undrained.nonempty {sent : Nat} {s : State} (h : Undrained sent s) : s.head ≠ s.tail := by
  have hmore := h.accepted_more
  rw [length_accepted, h.serial_length] at hmore
  exact fun he => absurd ((fifoCount_eq_zero_iff h.inv.capacity h.inv.txq).2 he) (by omega)

theorem Undrained.step {sent : Nat} {s t : State} (h : Undrained sent s) (hfault : t.fault = none)
    (hstep : step s = .next t) :
    t.serial.length = sent + 1 ∨ Undrained sent t ∧ Advances drainRank drainAwaits s t := by
  have hlen := h.serial_length
  refine (step_sends_or_advances h.inv h.nonempty hstep).imp (hlen ▸ id) fun ⟨hserial, hadvances⟩ => ⟨?_, hadvances⟩
  exact
    { inv := invStep s t h.inv hstep
      no_fault := hfault
      serial_length := hserial.trans hlen
      accepted_more := h.accepted_more.trans_le (accepted_prefix_of_step h.inv hstep).length_le }

/-- Under TX_LIVE, with no fault, the bytes accepted are sent, as many of them as one asks for. -/
theorem eventually_sends {r : Nat → State} (hfair : FairRun r) (h0 : Inv (r 0)) (hlive : (r 0).params.txLive = true)
    (hfault : ∀ m, (r m).fault = none) (n : Nat) {k : Nat} (hk : k ≤ (accepted (r n)).length) :
    ∃ m, n ≤ m ∧ k ≤ (r m).serial.length := by
  induction k with
  | zero => exact ⟨n, le_rfl, Nat.zero_le _⟩
  | succ k ih =>
    obtain ⟨m, hm, hsent⟩ := ih (by omega)
    rcases hsent.lt_or_eq with hlt | heq
    · exact ⟨m, hm, hlt⟩
    · have hmore := (hfair.1.accepted_prefix h0 hm).length_le
      have hundrained : Undrained k (r m) := ⟨hfair.1.inv h0 m, hfault m, heq.symm, by omega⟩
      obtain ⟨m', hm', hnext⟩ := eventually_of_advances (P := Undrained k) (Q := fun t => t.serial.length = k + 1)
        hfair.1 (fun s => hfair.fairFor hlive (drainAwaits_ne_eng s))
        (fun _ h => enabled_drainAwaits h.inv h.no_fault h.nonempty) (fun _ h => h.step (hfault _)) hundrained
      exact ⟨m', by omega, hnext.ge⟩

/-- Settles O52: what was accepted and what is sent both begin what is accepted later, and the latter gets as long. -/
theorem storedBytesEventuallySent : Obligations.StoredBytesEventuallySent := by
  intro r n hfair h0 hlive hfault
  obtain ⟨m, hm, hsent⟩ := eventually_sends hfair h0 hlive hfault n le_rfl
  refine ⟨m, hm, List.prefix_of_prefix_length_le (hfair.1.accepted_prefix h0 hm) ⟨queued (r m), rfl⟩ ?_⟩
  rwa [List.length_map]

/-! ## The Gray code (R179) -/

theorem getLsbD_gray (i : Index) (j : Nat) : (gray i).getLsbD j = Bool.xor (i.getLsbD j) (i.getLsbD (j + 1)) := by
  simp [gray, Nat.add_comm]

/-- The bits from `j` on of a Gray code add up to bit `j` of its index and the bit above the last of them. -/
theorem binBit_gray (i : Index) (j above : Nat) :
    binBit (gray i) j above = Bool.xor (i.getLsbD j) (i.getLsbD (j + above + 1)) := by
  induction above generalizing j with
  | zero => exact getLsbD_gray i j
  | succ above ih =>
    rw [binBit, ih, getLsbD_gray, show j + 1 + above + 1 = j + (above + 1) + 1 by omega]
    cases i.getLsbD j <;> cases i.getLsbD (j + 1) <;> simp

/-- A word put together bit by bit. -/
theorem getLsbD_foldl_setBit (f : Nat → Bool) {n : Nat} (hn : n ≤ 8) (l : Nat) :
    ((List.range n).foldl (fun acc j => if f j = true then acc ||| (1#8 <<< j) else acc) 0#8).getLsbD l =
      (decide (l < n) && f l) := by
  induction n with
  | zero => simp
  | succ n ih =>
    have hbit : (1#8 <<< n).getLsbD l = decide (n = l) := by
      rw [← BitVec.twoPow_eq, BitVec.getLsbD_twoPow, decide_eq_true (show n < 8 by omega), Bool.true_and]
    have hlast : decide (l < n + 1) = (decide (l < n) || decide (n = l)) := by
      rw [← Bool.decide_or, decide_eq_decide]
      omega
    rw [List.range_succ, List.foldl_append, List.foldl_cons, List.foldl_nil, hlast]
    by_cases hl : n = l
    · subst hl
      cases hf : f n <;> simp [ih (by omega), hf, hbit]
    · cases hf : f n <;> simp [ih (by omega), hbit, hl]

theorem getLsbD_bin {k : Nat} (hk : k ≤ 8) (g : Index) (j : Nat) :
    (bin k g).getLsbD j = (decide (j < k) && binBit g j (k - 1 - j)) :=
  getLsbD_foldl_setBit (fun j => binBit g j (k - 1 - j)) hk j

theorem getLsbD_eq_false_of_lt {i : Index} {k j : Nat} (hi : i.toNat < 2 ^ k) (hj : k ≤ j) : i.getLsbD j = false :=
  Nat.testBit_eq_false_of_lt (hi.trans_le (Nat.pow_le_pow_right Nat.two_pos hj))

/-- `bin` inverts `gray` on K-bit indices. -/
theorem bin_gray {k : Nat} (hk : k ≤ 8) {i : Index} (hi : i.toNat < 2 ^ k) : bin k (gray i) = i := by
  refine BitVec.eq_of_getLsbD_eq fun j _ => ?_
  rw [getLsbD_bin hk, binBit_gray]
  by_cases hj : j < k
  · rw [getLsbD_eq_false_of_lt hi (show k ≤ j + (k - 1 - j) + 1 by omega)]
    simp [hj]
  · rw [getLsbD_eq_false_of_lt hi (show k ≤ j by omega)]
    simp [hj]

/-- An 8-bit index and its successor have Gray codes that differ in one bit, the one that the carry stops at. -/
theorem gray_xor_gray_succ :
    ∀ i : Index, ∃ j < 8, gray i ^^^ gray (i + 1#8) = 1#8 <<< j ∧ 2 ^ j ≤ i.toNat + 1 := by decide

/-- The Gray code of MASK is its highest bit. -/
theorem gray_mask {k : Nat} (h1 : 1 ≤ k) (h8 : k ≤ 8) :
    gray (BitVec.ofNat 8 (2 ^ k - 1)) = BitVec.ofNat 8 (2 ^ (k - 1)) := by
  interval_cases k <;> decide

/-- The Gray codes of an index and of the next one differ in one bit, the wraparound included. -/
theorem gray_xor_gray_nextIndex {p : Params} (hc : p.capLegal = true) {i : Index} (hi : i.toNat < p.txqCap) :
    ∃ j, 2 ^ j < p.txqCap ∧ gray i ^^^ gray (nextIndex p i) = 1#8 <<< j := by
  have hnext := nextIndex_toNat hc i
  obtain ⟨k, h1, h8, hk⟩ := capLegal_pow hc
  rw [hk] at hi hnext ⊢
  by_cases hwrap : i.toNat + 1 < 2 ^ k
  · obtain ⟨j, -, hbit, hle⟩ := gray_xor_gray_succ i
    have hsucc : nextIndex p i = i + 1#8 := by
      apply BitVec.eq_of_toNat_eq
      have := Nat.pow_le_pow_right Nat.two_pos h8
      rw [hnext, Nat.mod_eq_of_lt hwrap, BitVec.toNat_add, BitVec.toNat_ofNat]
      omega
    exact ⟨j, by omega, hsucc ▸ hbit⟩
  · have hlast : i.toNat + 1 = 2 ^ k := by omega
    have hmask : i = BitVec.ofNat 8 (2 ^ k - 1) := by
      rw [← hlast, Nat.add_sub_cancel, BitVec.ofNat_toNat, BitVec.setWidth_eq]
    have hzero : nextIndex p i = 0#8 := BitVec.eq_of_toNat_eq (by rw [hnext, hlast, Nat.mod_self]; rfl)
    refine ⟨k - 1, Nat.pow_lt_pow_right (by decide) (by omega), ?_⟩
    rw [hzero, hmask, gray_mask h1 h8, ← BitVec.twoPow_eq]
    exact BitVec.xor_zero.trans (BitVec.eq_of_toNat_eq (BitVec.toNat_twoPow 8 (k - 1)).symm)

/-- Settles O54: `bin`'s bits are sums of the code's bits, and the carry of an increment stops at the bit that changes. -/
theorem grayCode : Obligations.GrayCode := by
  intro k h1 h8 m
  refine ⟨gray_mask h1 h8, rfl, fun i hi => ⟨rfl, bin_gray h8 hi, ?top, fun j hj => ?lower, ?change⟩⟩
  case top =>
    rw [getLsbD_bin h8, decide_eq_true (show k - 1 < k by omega), Nat.sub_self]
    rfl
  case lower =>
    rw [getLsbD_bin h8, getLsbD_bin h8, decide_eq_true (show j < k by omega),
      decide_eq_true (show j + 1 < k by omega), show k - 1 - j = k - 1 - (j + 1) + 1 by omega]
    rfl
  case change =>
    let p : Params := { Params.reset with txqCap := 2 ^ k }
    obtain ⟨j, hj, hbit⟩ := gray_xor_gray_nextIndex (p := p) ((capLegal_iff p).2 ⟨k, h1, h8, rfl⟩) hi
    exact ⟨j, (Nat.pow_lt_pow_iff_right (by decide)).1 hj, hbit⟩

/-! ## Copies of the indices in another clock domain (R180) -/

/-- A word that agrees, bit by bit, with one of two words that differ in one bit is one of the two. -/
theorem eq_or_eq_of_one_bit {x y z : Index} {j : Nat} (hone : y ^^^ z = 1#8 <<< j)
    (h : (x ^^^ y) &&& (x ^^^ z) = 0#8) : x = y ∨ x = z := by
  have hz : x ^^^ z = (x ^^^ y) ^^^ BitVec.twoPow 8 j := by
    rw [BitVec.twoPow_eq, ← hone, BitVec.xor_assoc, ← BitVec.xor_assoc y, BitVec.xor_self, BitVec.zero_xor]
  have hmasked : x ^^^ y = (x ^^^ y) &&& BitVec.twoPow 8 j := by
    rw [hz] at h
    refine BitVec.eq_of_getLsbD_eq fun l _ => ?_
    have hl := congrArg (·.getLsbD l) h
    simp only [BitVec.getLsbD_and, BitVec.getLsbD_xor (x := x ^^^ y), BitVec.getLsbD_zero] at hl ⊢
    revert hl
    cases (x ^^^ y).getLsbD l <;> cases (BitVec.twoPow 8 j).getLsbD l <;> decide
  rw [BitVec.and_twoPow] at hmasked
  split at hmasked
  · exact .inr (BitVec.xor_eq_zero_iff.1 (by rw [hz, hmasked, BitVec.xor_self]))
  · exact .inl (BitVec.xor_eq_zero_iff.1 hmasked)

/-- Settles O55: the two codes differ in one bit. -/
theorem sampledCopyIsOldOrNew : Obligations.SampledCopyIsOldOrNew := by
  intro p i x hc hi hsampled
  obtain ⟨j, -, hone⟩ := gray_xor_gray_nextIndex hc (lt_of_masked hc hi)
  exact eq_or_eq_of_one_bit hone (eq_of_beq hsampled)

theorem olderTail_iff {seen : Index} {s : State} :
    olderTail seen s = true ↔ seen &&& mask s.params = seen ∧
      ((s.tail - seen) &&& mask s.params).toNat + fifoCount s ≤ (mask s.params).toNat := by
  simp [olderTail]

/-- Settles O56: on a full FIFO the only older tail is the tail itself. -/
theorem olderTailOnlyHoldsLonger : Obligations.OlderTailOnlyHoldsLonger := by
  intro s b next seen h hp holder hne hfull
  obtain ⟨hseen, hfits⟩ := olderTail_iff.1 holder
  have hcount := (fifoCount_eq_pred_iff h.capacity h.txq).2 (h.next_of_p2 hp ▸ hfull)
  rw [hcount, mask_toNat h.capacity] at hfits
  have htail : s.tail = seen := (sub_and_mask_eq_zero_iff h.capacity h.txq.tail_masked hseen).1 (by omega)
  exact hne (hfull.trans htail)

theorem drainSeeing_of_ne {seen : Index} {s : State} (slots : Memory) (h : seen ≠ s.tail) :
    drainSeeing seen slots s =
      { send (slotByte (nextIndex s.params s.tail) { s with buf := slots }) s with
        tail := nextIndex s.params s.tail, txReady := false } :=
  if_pos h

theorem drainSeeing_of_eq {seen : Index} {s : State} (slots : Memory) (h : seen = s.tail) :
    drainSeeing seen slots s = { s with txie := false } :=
  if_neg (not_not_intro h)

/-- (b): a drain step that sees a fresh head copy keeps the enable of a FIFO that holds bytes, or the host is at P5 and
will set it. -/
theorem enabled_or_p5_of_fresh {seen : Index} {s : State} (slots : Memory) (hie : s.txie = true)
    (hfresh : headCopyFresh seen s = true)
    (hne : (drainSeeing seen slots s).head ≠ (drainSeeing seen slots s).tail) :
    (drainSeeing seen slots s).txie = true ∨ atP5 (drainSeeing seen slots s) = true := by
  by_cases hseen : seen = s.tail
  · rw [drainSeeing_of_eq slots hseen] at hne ⊢
    right
    simp only [headCopyFresh, Bool.or_eq_true, beq_iff_eq] at hfresh
    rcases hfresh with heq | hp5
    · exact absurd (heq.symm.trans hseen) hne
    · unfold atP5
      split at hp5
      · rename_i hp
        simp [hp]
      · cases hp5
  · rw [drainSeeing_of_ne slots hseen]
    exact .inl hie

/-- (c): where the set wins, the race ends as the drain step followed by P5 would. -/
theorem raced_eq_p5_after_drain (seen : Index) (slots : Memory) (b : Byte) (n : Index) (s : State) :
    raced true seen slots b n s = pushStep .p5 b n (drainSeeing seen slots s) := by
  by_cases hseen : seen = s.tail
  · rw [drainSeeing_of_eq slots hseen, raced, drainSeeing_of_eq (s := pushStep .p5 b n s) slots hseen]
    rfl
  · rw [drainSeeing_of_ne slots hseen, raced, drainSeeing_of_ne (s := pushStep .p5 b n s) slots hseen]
    rfl

/-- (c): P5 overwrites what a clear does. -/
theorem raced_eq_p5_of_clear {seen : Index} {s : State} (slots : Memory) (b : Byte) (n : Index) (h : seen = s.tail) :
    raced true seen slots b n s = pushStep .p5 b n s := by
  rw [raced_eq_p5_after_drain, drainSeeing_of_eq slots h]
  rfl

theorem publishedHead_iff {seen : Index} {s : State} :
    publishedHead seen s = true ↔
      seen &&& mask s.params = seen ∧ ((seen - s.tail) &&& mask s.params).toNat ≤ fifoCount s := by
  simp [publishedHead]

/-- A published head past tail covers the slot that DRAIN reads (R180). -/
theorem nextIndex_tail_mem_coveredSlots {seen : Index} {s : State} (hc : s.params.capLegal = true) (h : TxqInv s)
    (hseen : seen &&& mask s.params = seen) (hne : seen ≠ s.tail) :
    nextIndex s.params s.tail ∈ coveredSlots seen s := by
  have hpos := mt (sub_and_mask_eq_zero_iff hc hseen h.tail_masked).1 hne
  exact mem_coveredSlots.2 ⟨0, Nat.pos_of_ne_zero hpos, rfl⟩

/-- A published head covers stored slots only (R174, R180). -/
theorem stored_of_mem_coveredSlots {seen i : Index} {s : State} (hpub : publishedHead seen s = true)
    (hi : i ∈ coveredSlots seen s) : ∃ j, 1 ≤ j ∧ j ≤ fifoCount s ∧ i = slotAt s j := by
  obtain ⟨-, hpub⟩ := publishedHead_iff.1 hpub
  obtain ⟨j, hj, rfl⟩ := mem_coveredSlots.1 hi
  exact ⟨j + 1, by omega, by omega, rfl⟩

/-- The slot of a push is not a stored one (R166, R174). -/
theorem slotAt_ne_nextIndex_head {s : State} (hc : s.params.capLegal = true) (h : TxqInv s) {j : Nat}
    (hj : j ≤ fifoCount s) (hroom : nextIndex s.params s.head ≠ s.tail) : slotAt s j ≠ nextIndex s.params s.head := by
  rw [index_ne_iff, nextIndex_toNat hc] at hroom ⊢
  rw [slotAt_toNat hc]
  rw [fifoCount_eq hc] at hj
  exact stored_ne_next (capLegal_cases hc) (lt_of_masked hc h.head_masked) (lt_of_masked hc h.tail_masked) hj hroom

/-- (d): where the slots that a published head covers are stable, a drain step that finds a byte is DRAIN's own and sends
the oldest byte stored. -/
theorem drainSeeing_eq_drainStep {seen : Index} {slots : Memory} {s : State} (hc : s.params.capLegal = true)
    (h : TxqInv s) (hpub : publishedHead seen s = true) (hne : seen ≠ s.tail)
    (hstable : slotsStable seen slots s = true) :
    drainSeeing seen slots s = drainStep s ∧
      ∃ b, s.buf.read (nextIndex s.params s.tail).toNat = some b ∧
        (drainSeeing seen slots s).serial = s.serial ++ [b] := by
  obtain ⟨hseen, -⟩ := publishedHead_iff.1 hpub
  have hcovered := nextIndex_tail_mem_coveredSlots hc h hseen hne
  obtain ⟨j, h1, hj, hslot⟩ := stored_of_mem_coveredSlots hpub hcovered
  obtain ⟨b, hb⟩ := Option.isSome_iff_exists.1 (hslot ▸ h.stored_written j h1 hj)
  have hnonempty : s.head ≠ s.tail := fun he => by
    have := (fifoCount_eq_zero_iff hc h).2 he
    omega
  have hread : slots.read (nextIndex s.params s.tail).toNat = some b := (slotsStable_iff.1 hstable _ hcovered).trans hb
  have hseeing := drainSeeing_of_ne slots hne
  rw [slotByte_of_read (s := { s with buf := slots }) hread] at hseeing
  refine ⟨?_, b, hb, ?_⟩
  · rw [hseeing, drainStep_of_nonempty hnonempty, slotByte_of_read hb]
  · rw [hseeing]
    rfl

/-- (d): the slot that P3 writes is not covered yet. -/
theorem slotsStable_pushStep_p3 {seen : Index} {slots : Memory} {s : State} (h : Inv s) {b : Byte} {n : Index}
    (hp : s.hstate = .push .p3 b n) (hpub : publishedHead seen s = true) (hstable : slotsStable seen slots s = true) :
    slotsStable seen slots (pushStep .p3 b n s) = true := by
  obtain ⟨rfl, hroom⟩ := h.next_of_p3 hp
  refine slotsStable_iff.2 fun i hi => ?_
  have hi' : i ∈ coveredSlots seen s := hi
  obtain ⟨j, -, hj, rfl⟩ := stored_of_mem_coveredSlots hpub hi'
  have hother := index_ne_iff.1 (slotAt_ne_nextIndex_head h.capacity h.txq hj hroom)
  exact (slotsStable_iff.1 hstable _ hi').trans (read_write_other s.buf b hother).symm

/-- One byte stored, the drain at work, and the host in the given run state at a `txq.push`: where the conditions of R180
are not met, a wakeup is lost or a wrong byte sent. -/
def oneStored (hstate : HState) : State :=
  { State.launch Params.reset [0x00008844#32] with
    hstate := hstate, head := 1#8, buf := [(1, 0x44#8)], txie := true }

theorem oneStored_inv : Inv (oneStored .run) ∧ Inv (oneStored (.push .p5 0x44#8 1#8)) :=
  ⟨inv_of_check (by decide) (by decide) (by decide) (by decide),
    inv_of_check (by decide) (by decide) (by decide) (by decide)⟩

/-- Settles O57: (b), (c) and (d) by the lemmas above, and each failure by a drain domain that still sees the head copy before
P4, lets the clear win, or reads 0x00 in the slot. -/
theorem freshCopyLosesNoWakeup : Obligations.FreshCopyLosesNoWakeup := by
  refine ⟨fun s seen slots _ hdrain hfresh => ?fresh, ⟨oneStored .run, oneStored_inv.1, ?stale⟩,
    fun s seen slots b next _ _ _ => ⟨raced_eq_p5_after_drain seen slots b next s, raced_eq_p5_of_clear slots b next,
      raced_eq_p5_after_drain seen slots b next s ▸ rfl, fun _ => rfl⟩,
    ⟨oneStored (.push .p5 0x44#8 1#8), 0x44#8, 1#8, oneStored_inv.2, ?clearWins⟩,
    fun s seen slots h _ hpub hne => drainSeeing_eq_drainStep h.capacity h.txq hpub hne,
    fun _ _ _ _ _ h => slotsStable_pushStep_p3 h,
    ⟨oneStored .run, 1#8, [(1, 0x00#8)], 0x44#8, oneStored_inv.1, ?unstable⟩⟩
  case fresh =>
    obtain ⟨-, hie, -⟩ := enabled_drain_iff.1 hdrain
    exact enabled_or_p5_of_fresh slots hie hfresh
  case stale | clearWins | unstable => and_intros <;> decide

end Sys2Proof.Machine
end

section
/-! SUPPORT. The faults (spec 60_exceptions.md): which steps record one, and what they record. -/

namespace Sys2Proof.Machine

/-! ## Precise faults (R190, R191) -/

/-- A statement that changes the fault register has raised a fault, under its own word. -/
theorem Effect.fault_ne {i : Instr} {s t : State} (e : Effect i s t) (h : t.fault ≠ s.fault) :
    ∃ c, t = raiseFault c (encode i) s := by
  cases e with
  | raised c => exact ⟨c, rfl⟩
  | _ => exact absurd rfl h

/-- A HOST step in RUN that changes the fault register has raised a fault, under the word at pc or PC_RANGE. -/
theorem StatementStep.fault_ne {s t : State} (e : StatementStep s t) (h : t.fault ≠ s.fault) :
    ∃ c w, t = raiseFault c w s ∧ (fetch s = some w ∨ fetch s = none ∧ c = .pcRange) := by
  cases e with
  | pastEnd hf => exact ⟨_, _, rfl, .inr ⟨hf, rfl⟩⟩
  | badWord w c hf hd => exact ⟨c, w, rfl, .inl hf⟩
  | statement w i t hf hd he =>
    obtain ⟨c, rfl⟩ := he.fault_ne h
    exact ⟨c, encode i, rfl, .inl (eq_encode_of_decodeWord hd ▸ hf)⟩

/-- The steps that change the fault register: HOST ran the statement at pc, or the platform widened its access (R54). -/
theorem fault_ne_of_step {s t : State} (hstep : step s = .next t) (h : t.fault ≠ s.fault) :
    nextAgent s = some .host ∧ s.hstate = .run ∧
      ∃ c w, t = raiseFault c w (consumeChoice s) ∧ (fetch s = some w ∨ fetch s = none ∧ c = .pcRange) := by
  cases step_cases hstep with
  | hostRun a hr _ e => exact ⟨a, hr, e.fault_ne h⟩
  | widened a hr w hf => exact ⟨a, hr, .badAccess, w, rfl, .inl hf⟩
  | stalled | hostPush | eng | drain | ser => simp at h

/-- Settles O36: the fault register was empty, so the record is the fault that HOST raised at pc. -/
theorem faultsArePrecise : Obligations.FaultsArePrecise := by
  intro s t hstep h
  have hnone := fault_none_of_step hstep
  obtain ⟨hhost, hrun, c, w, rfl, hw⟩ := fault_ne_of_step hstep h
  exact ⟨hhost, hrun, hnone, ⟨c, s.pc, w⟩, raiseFault_of_none (consumeChoice s) c w hnone, rfl, hw⟩

end Sys2Proof.Machine
end
